-- ==== Sys2Proof/Word.lean ====
section
/-! DEFINITION. The two word types of the block (00_scope.md R12): bytes and 16-bit words. -/

namespace Sys2Proof

/-- An 8-bit pattern (`u8` of 00_scope.md R16): a code byte, a data byte, a byte register. -/
abbrev Byte := BitVec 8

/-- A 16-bit pattern (`u16`): a register slot, an address, a word immediate. -/
abbrev Word := BitVec 16

end Sys2Proof
end

