-- ==== Sys2Proof/Syntax.lean ====
section
/-! DEFINITION. The syntax of the decoded instruction: operation kinds, mnemonics, operand forms and
the 36 instructions of the opcode map (30_encoding.md R100, R121, R133). -/

namespace Sys2Proof

/-- The operation kinds of 30_encoding.md R100, under the names of 00_scope.md R23. -/
inductive Kind where
  | jcc      -- K_JCC
  | immReg   -- K_IMM_REG
  | immRm    -- K_IMM_RM
  | acc      -- K_ACC
  | rmReg    -- K_RM_REG
  | rmSreg   -- K_RM_SREG
  deriving DecidableEq, Repr

/-- The mnemonics of 30_encoding.md R161. -/
inductive Mnemonic where
  | mov | add | sub | cmp
  | jo | jno | jb | jnb | je | jne | jbe | ja | js | jns | jp | jnp | jl | jnl | jle | jg
  | loopnz | loopz | loop | jcxz
  deriving DecidableEq, Repr

/-- The operand width that W selects (00_scope.md R21): W = 0 byte, W = 1 word. -/
inductive Width where
  | byte | word
  deriving DecidableEq, Repr

/-- The three mnemonics that the ALU step takes (41_arith.md R192). -/
inductive AluOp where
  | add | sub | cmp
  deriving DecidableEq, Repr

/-- The direction bit of K_RM_REG (30_encoding.md R114): D = 0, the RM operand is the destination;
D = 1, the register is. -/
inductive Dir where
  | rmDst | regDst
  deriving DecidableEq, Repr

/-- The eight word registers (10_state.md R32). -/
inductive Reg16 where
  | ax | cx | dx | bx | sp | bp | si | di
  deriving DecidableEq, Repr

/-- The half of a word register that a byte register is (10_state.md R34). -/
inductive Half where
  | low | high
  deriving DecidableEq, Repr

/-- The four segment registers (10_state.md R38). -/
inductive SegReg where
  | es | cs | ss | ds
  deriving DecidableEq, Repr

/-- The eight memory base expressions (30_encoding.md R123). -/
inductive Base where
  | bxSi | bxDi | bpSi | bpDi | si | di | bp | bx
  deriving DecidableEq, Repr

/-- What MOD and RM select, before the width is known (30_encoding.md R117, R122 to R126).
A register is kept as its 3-bit code, since the width decides which register the code names
(10_state.md R32, R34). -/
inductive Rm where
  | reg    (n : BitVec 3)            -- MOD = 0b11
  | mem    (b : Base)                -- MOD = 0b00, RM ≠ 0b110
  | direct (addr : Word)             -- MOD = 0b00, RM = 0b110
  | mem8   (b : Base) (disp : Byte)  -- MOD = 0b01
  | mem16  (b : Base) (disp : Word)  -- MOD = 0b10
  deriving DecidableEq, Repr

/-- An immediate whose width is the instruction's (30_encoding.md R128 with S = 0, R129). -/
inductive Imm where
  | byte (v : Byte)
  | word (v : Word)
  deriving DecidableEq, Repr

/-- The immediate of the K_IMM_RM arithmetic forms (30_encoding.md R116, R128): W = 0; W = 1 and
S = 0; or W = 1 and S = 1, one byte that is sign-extended before use. -/
inductive AluImm where
  | byte    (v : Byte)
  | word    (v : Word)
  | sextByte (v : Byte)
  deriving DecidableEq, Repr

/-- The operand descriptors of 30_encoding.md R121 that can be written. -/
inductive Loc where
  | reg8   (n : BitVec 3)
  | reg16  (n : BitVec 3)
  | sreg   (g : SegReg)
  | mem    (b : Base) (disp : Word)
  | direct (addr : Word)
  deriving DecidableEq, Repr

/-- The operand descriptors of 30_encoding.md R121. -/
inductive Operand where
  | loc  (l : Loc)
  | imm  (v : Imm)
  | rel8 (d : Byte)
  deriving DecidableEq, Repr

/-- The admitted instruction set: one constructor per row of the opcode map (30_encoding.md R133). -/
inductive Instr where
  -- the mov family, rows 1 to 7 (40_mov.md R172 to R178)
  | movRmReg  (d : Dir) (w : Width) (reg : BitVec 3) (rm : Rm)
  | movImmRm  (rm : Rm) (imm : Imm)
  | movImmReg (reg : BitVec 3) (imm : Imm)
  | movMemAcc (w : Width) (addr : Word)
  | movAccMem (w : Width) (addr : Word)
  | movRmSreg (g : SegReg) (rm : Rm)
  | movSregRm (g : SegReg) (rm : Rm)
  -- the arithmetic family, rows 8 to 16 (41_arith.md R193 to R201)
  | addRmReg  (d : Dir) (w : Width) (reg : BitVec 3) (rm : Rm)
  | addImmRm  (rm : Rm) (imm : AluImm)
  | addImmAcc (imm : Imm)
  | subRmReg  (d : Dir) (w : Width) (reg : BitVec 3) (rm : Rm)
  | subImmRm  (rm : Rm) (imm : AluImm)
  | subImmAcc (imm : Imm)
  | cmpRmReg  (d : Dir) (w : Width) (reg : BitVec 3) (rm : Rm)
  | cmpImmRm  (rm : Rm) (imm : AluImm)
  | cmpImmAcc (imm : Imm)
  -- the conditional jumps, rows 17 to 32 (42_branch.md R212 to R227)
  | jo  (rel : Byte)
  | jno (rel : Byte)
  | jb  (rel : Byte)
  | jnb (rel : Byte)
  | je  (rel : Byte)
  | jne (rel : Byte)
  | jbe (rel : Byte)
  | ja  (rel : Byte)
  | js  (rel : Byte)
  | jns (rel : Byte)
  | jp  (rel : Byte)
  | jnp (rel : Byte)
  | jl  (rel : Byte)
  | jnl (rel : Byte)
  | jle (rel : Byte)
  | jg  (rel : Byte)
  -- the loops and jcxz, rows 33 to 36 (42_branch.md R228 to R231)
  | loopnz (rel : Byte)
  | loopz  (rel : Byte)
  | loop   (rel : Byte)
  | jcxz   (rel : Byte)
  deriving DecidableEq, Repr

end Sys2Proof
end

