-- ==== Sys2Proof/Config.lean ====
section
/-! DEFINITION. What is fixed for a run: the parameters of 00_scope.md R13 and the one value the spec
lets a model leave open, the auxiliary carry under an opaque AF_RULE (43_flag_unit.md R247). -/

namespace Sys2Proof

/-- `UNMAPPED_POLICY` (30_encoding.md R111, R112). -/
inductive UnmappedPolicy where
  | fault | stale
  deriving DecidableEq, Repr

/-- `OPERAND_READ` (41_arith.md R191). -/
inductive OperandRead where
  | unsigned | signed
  deriving DecidableEq, Repr

/-- `AF_RULE` (43_flag_unit.md R247). -/
inductive AfRule where
  | nibbleCarry | opaqueRule
  deriving DecidableEq, Repr

/-- `ACC8_ADDR` (30_encoding.md R130). -/
inductive Acc8Addr where
  | lo8 | lo16
  deriving DecidableEq, Repr

/-- `UNIMPL_POLICY` (40_mov.md R171). -/
inductive UnimplPolicy where
  | noOp | refuse
  deriving DecidableEq, Repr

/-- The parameters that the step reads (00_scope.md R13): the block's configuration, fixed for a run
and not writable by a program (10_state.md R48). State holds one such record (log entry 5).
The `INIT_` parameters belong to the launch (`Machine.Init`). -/
structure Params where
  unmapped    : UnmappedPolicy
  operandRead : OperandRead
  afRule      : AfRule
  acc8        : Acc8Addr
  unimpl      : UnimplPolicy
  deriving DecidableEq, Repr

/-- The defaults of 00_scope.md R13. -/
def Params.default : Params where
  unmapped    := .fault
  operandRead := .unsigned
  afRule      := .nibbleCarry
  acc8        := .lo8
  unimpl      := .noOp

/-- FREE VALUE (log entry 6): the auxiliary carry under `AF_RULE` = an opaque function of
(mn, r, src, W) to Bool, "about which nothing is assumed" (43_flag_unit.md R247). It has no body. -/
opaque Config.afRule : AluOp → Int → Int → Width → Bool

end Sys2Proof
end

