-- ==== Sys2Proof/WellFormed.lean ====
section
/-! DEFINITION. Which terms of `Instr` an encoding can stand for. -/

namespace Sys2Proof

/-- MOD = 0b00 with the base bp has no encoding: RM = 0b110 is then the direct address
(30_encoding.md R123, R124). -/
def Rm.wf : Rm → Bool
  | .mem .bp => false
  | _        => true

/-- MOD = 0b00 with RM ≠ 0b110 has no length in the segment-register row: it is a DecodeError
(30_encoding.md R146, R148). -/
def Rm.sregWf : Rm → Bool
  | .mem _ => false
  | _      => true

/-- The address of a memory/accumulator form: a byte form under `ACC8_ADDR` = Lo8 has one address
byte, so its address is below 256 (30_encoding.md R130). -/
def accAddrWf (p : Params) (w : Width) (addr : Word) : Bool :=
  match w, p.acc8 with
  | .byte, .lo8 => decide (addr.toNat < 256)
  | _, _        => true

/-- The instruction is one that some bytes decode to, under the parameters `p`. -/
def Instr.wf (p : Params) : Instr → Bool
  | .movRmReg _ _ _ rm | .addRmReg _ _ _ rm | .subRmReg _ _ _ rm | .cmpRmReg _ _ _ rm => rm.wf
  | .movImmRm rm _ | .addImmRm rm _ | .subImmRm rm _ | .cmpImmRm rm _ => rm.wf
  | .movImmReg _ _ | .addImmAcc _ | .subImmAcc _ | .cmpImmAcc _ => true
  | .movMemAcc w addr | .movAccMem w addr => accAddrWf p w addr
  | .movRmSreg _ rm | .movSregRm _ rm => rm.sregWf
  | .jo _ | .jno _ | .jb _ | .jnb _ | .je _ | .jne _ | .jbe _ | .ja _
  | .js _ | .jns _ | .jp _ | .jnp _ | .jl _ | .jnl _ | .jle _ | .jg _
  | .loopnz _ | .loopz _ | .loop _ | .jcxz _ => true

end Sys2Proof
end

