-- ==== Sys2Proof/Decode.lean ====
section
/-! DEFINITION. The decoder, stage by stage (30_encoding.md): the opcode classifier, the field
extractor, the operand resolver, the length calculator, the role assignment, and the decoder as one
function; then the encoder and the opcode table's view of a word. -/

namespace Sys2Proof

/-! ### Byte order and bit helpers -/

/-- `hi : lo`, a 16-bit value from its two bytes; the low byte comes first in the stream
(20_memory.md R82). -/
def joinWord (lo hi : Byte) : Word := hi ++ lo

/-- The low byte `v[7:0]`. -/
def loByte (v : Word) : Byte := v.extractLsb' 0 8

/-- The high byte `v[15:8]`. -/
def hiByte (v : Word) : Byte := v.extractLsb' 8 8

/-- `sext_16` of a byte (00_scope.md R16). -/
def sext16 (v : Byte) : Word := v.signExtend 16

/-- `zext_16` of a byte (00_scope.md R16). -/
def zext16 (v : Byte) : Word := v.setWidth 16

/-- The width that the bit W selects (30_encoding.md R115). -/
def Width.ofBit (w : Bool) : Width := if w then .word else .byte

/-- The bit W of a width. -/
def Width.bit : Width → BitVec 1
  | .byte => 0
  | .word => 1

/-- The bit D of a direction (30_encoding.md R114). -/
def Dir.bit : Dir → BitVec 1
  | .rmDst  => 0
  | .regDst => 1

/-- The direction that the bit D of K_RM_REG selects (30_encoding.md R114). -/
def Dir.ofBit (d : Bool) : Dir := if d then .regDst else .rmDst

/-- The mnemonic of an ALU operation. -/
def AluOp.mnemonic : AluOp → Mnemonic
  | .add => .add
  | .sub => .sub
  | .cmp => .cmp

/-! ### What the decoder can raise -/

/-- The decode faults of 60_exceptions.md R260, without IP0, which the step adds. -/
inductive DecodeFault where
  | unmappedOpcode (b0 : Byte) (b1 : Option Byte)
  | decodeError (b0 b1 : Byte) (kind : Kind) (mnemonic : Mnemonic)
  | truncatedInstruction (avail need : Nat)
  deriving DecidableEq, Repr

/-! ### Opcode classifier -/

/-- Table FB, matched on the full first byte (30_encoding.md R104). -/
def tableFB : List (Byte × Kind × Mnemonic) :=
  [(0x70, .jcc, .jo), (0x71, .jcc, .jno), (0x72, .jcc, .jb), (0x73, .jcc, .jnb),
   (0x74, .jcc, .je), (0x75, .jcc, .jne), (0x76, .jcc, .jbe), (0x77, .jcc, .ja),
   (0x78, .jcc, .js), (0x79, .jcc, .jns), (0x7A, .jcc, .jp), (0x7B, .jcc, .jnp),
   (0x7C, .jcc, .jl), (0x7D, .jcc, .jnl), (0x7E, .jcc, .jle), (0x7F, .jcc, .jg),
   (0xE0, .jcc, .loopnz), (0xE1, .jcc, .loopz), (0xE2, .jcc, .loop), (0xE3, .jcc, .jcxz),
   (0x8C, .rmSreg, .mov), (0x8E, .rmSreg, .mov)]

/-- Table T7, matched on `b0[7:1]` (30_encoding.md R105). -/
def tableT7 : List (BitVec 7 × Kind × Mnemonic) :=
  [(0b1100011, .immRm, .mov), (0b1010000, .acc, .mov), (0b1010001, .acc, .mov),
   (0b0000010, .immReg, .add), (0b0010110, .immReg, .sub), (0b0011110, .immReg, .cmp)]

/-- Table T6, matched on `b0[7:2]`, less the group of `groupT6` (30_encoding.md R106). -/
def tableT6 : List (BitVec 6 × Kind × Mnemonic) :=
  [(0b100010, .rmReg, .mov), (0b000000, .rmReg, .add), (0b001010, .rmReg, .sub),
   (0b001110, .rmReg, .cmp)]

/-- The T6 entry whose mnemonic `b1[5:3]` selects: 0x80 to 0x83 (30_encoding.md R106, R108). -/
def groupT6 : BitVec 6 := 0b100000

/-- Table T4, matched on `b0[7:4]` (30_encoding.md R107). -/
def tableT4 : List (BitVec 4 × Kind × Mnemonic) := [(0b1011, .immReg, .mov)]

/-- The ByteTwo test on `b1[5:3]` (30_encoding.md R108). -/
def byteTwo (ext : BitVec 3) : Option Mnemonic :=
  [(0b000, Mnemonic.add), (0b101, .sub), (0b111, .cmp)].lookup ext

/-- The full-byte test: what table FB says of b0. -/
def testFB (b0 : Byte) : Option (Kind × Option Mnemonic) :=
  (tableFB.lookup b0).map fun (k, m) => (k, some m)

/-- The 7-bit test. -/
def testT7 (b0 : Byte) : Option (Kind × Option Mnemonic) :=
  (tableT7.lookup (b0.extractLsb' 1 7)).map fun (k, m) => (k, some m)

/-- The 6-bit test; for the group the mnemonic may be `none` (30_encoding.md R109). -/
def testT6 (b0 b1 : Byte) : Option (Kind × Option Mnemonic) :=
  if b0.extractLsb' 2 6 = groupT6 then some (.immRm, byteTwo (b1.extractLsb' 3 3))
  else (tableT6.lookup (b0.extractLsb' 2 6)).map fun (k, m) => (k, some m)

/-- The 4-bit test. -/
def testT4 (b0 : Byte) : Option (Kind × Option Mnemonic) :=
  (tableT4.lookup (b0.extractLsb' 4 4)).map fun (k, m) => (k, some m)

/-- The four tests in the order FB, T7, T6, T4, the last match winning (30_encoding.md R103, R109). -/
def classifyTables (b0 b1 : Byte) : Option (Kind × Option Mnemonic) :=
  testT4 b0 <|> testT6 b0 b1 <|> testT7 b0 <|> testFB b0

/-- What the classifier answers for a first byte in no table (30_encoding.md R111, R112). -/
def unmappedVerdict (p : Params) (latch : Option (Kind × Mnemonic)) (b0 : Byte) :
    Except DecodeFault (Kind × Mnemonic) :=
  match p.unmapped, latch with
  | .stale, some km => .ok km
  | _, _            => .error (.unmappedOpcode b0 none)

/-- What the classifier answers for an unmapped ByteTwo code (30_encoding.md R113). -/
def unmappedGroupVerdict (p : Params) (latch : Option (Kind × Mnemonic)) (b0 b1 : Byte) :
    Except DecodeFault (Kind × Mnemonic) :=
  match p.unmapped, latch with
  | .stale, some (_, m) => .ok (.immRm, m)
  | _, _                => .error (.unmappedOpcode b0 (some b1))

/-- The opcode classifier (30_encoding.md R109). -/
def classify (p : Params) (latch : Option (Kind × Mnemonic)) (b0 b1 : Byte) :
    Except DecodeFault (Kind × Mnemonic) :=
  match classifyTables b0 b1 with
  | none           => unmappedVerdict p latch b0
  | some (_, none) => unmappedGroupVerdict p latch b0 b1
  | some (k, some m) => .ok (k, m)

/-! ### Field extractor -/

/-- The fields of each kind (30_encoding.md R101): a variant holds its own fields and no others. -/
inductive Fields where
  | rmReg  (d : Bool) (w : Width) (mod : BitVec 2) (reg rm : BitVec 3)
  | immRm  (w : Width) (s : Bool) (mod : BitVec 2) (reg rm : BitVec 3)
  | immReg (w : Width) (reg : BitVec 3)
  | acc    (d : Bool) (w : Width)
  | rmSreg (d : Bool) (mod : BitVec 2) (sr : BitVec 2) (rm : BitVec 3)
  | jcc
  deriving DecidableEq, Repr

/-- The mnemonics for which S has a meaning (30_encoding.md R116). -/
def Mnemonic.isAlu : Mnemonic → Bool
  | .add | .sub | .cmp => true
  | _ => false

/-- The bit S of a K_IMM_RM instruction (30_encoding.md R116). -/
def signBitS (m : Mnemonic) (b0 : Byte) : Bool := m.isAlu && b0.getLsbD 1 && b0.getLsbD 0

/-- The field extractor (30_encoding.md R120). -/
def extractFields (k : Kind) (m : Mnemonic) (b0 b1 : Byte) : Fields :=
  match k with
  | .rmReg  => .rmReg (b0.getLsbD 1) (.ofBit (b0.getLsbD 0))
                 (b1.extractLsb' 6 2) (b1.extractLsb' 3 3) (b1.extractLsb' 0 3)
  | .immRm  => .immRm (.ofBit (b0.getLsbD 0)) (signBitS m b0)
                 (b1.extractLsb' 6 2) (b1.extractLsb' 3 3) (b1.extractLsb' 0 3)
  | .immReg =>
    if m = .mov then .immReg (.ofBit (b0.getLsbD 3)) (b0.extractLsb' 0 3)
    else .immReg (.ofBit (b0.getLsbD 0)) 0
  | .acc    => .acc (b0.getLsbD 1) (.ofBit (b0.getLsbD 0))
  | .rmSreg => .rmSreg (b0.getLsbD 1) (b1.extractLsb' 6 2) (b1.extractLsb' 3 2)
                 (b1.extractLsb' 0 3)
  | .jcc    => .jcc

/-! ### Length calculator -/

/-- The number of displacement bytes (30_encoding.md R122). -/
def ndisp (mod : BitVec 2) (rm : BitVec 3) : Nat :=
  if mod = 0b00 then (if rm = 0b110 then 2 else 0)
  else if mod = 0b01 then 1
  else if mod = 0b10 then 2
  else 0

/-- `base(MOD, RM)` (30_encoding.md R141). -/
def baseLen (mod : BitVec 2) (rm : BitVec 3) : Nat := 2 + ndisp mod rm

/-- The bytes of an immediate of width w. -/
def Width.bytes : Width → Nat
  | .byte => 1
  | .word => 2

/-- The mnemonics of the kinds K_RM_REG, K_IMM_RM and K_IMM_REG in the length table
(30_encoding.md R140). -/
def Mnemonic.isData (m : Mnemonic) : Bool := m = .mov || m.isAlu

/-- The length calculator (30_encoding.md R140 to R148); `none` is "any unrecognized combination". -/
def lengthCalc (m : Mnemonic) : Fields → Option Nat
  | .rmReg _ _ mod _ rm => if m.isData then some (baseLen mod rm) else none
  | .immRm w s mod _ rm =>
    if m.isAlu then some (baseLen mod rm + (if s = false ∧ w = .word then 2 else 1))
    else if m = .mov then some (baseLen mod rm + w.bytes)
    else none
  | .immReg w _ => if m.isData then some (1 + w.bytes) else none
  | .acc _ w => if m = .mov then some (1 + w.bytes) else none
  | .rmSreg _ mod _ rm =>
    if m ≠ .mov then none
    else if mod = 0b00 ∧ rm ≠ 0b110 then none
    else some (baseLen mod rm)
  | .jcc => if m.isData then none else some 2

/-- How many bytes the decoder reads: the length, or 3 for a byte K_ACC form under
`ACC8_ADDR` = Lo16 (30_encoding.md R130, R156). -/
def bytesNeeded (p : Params) (f : Fields) (len : Nat) : Nat :=
  match f, p.acc8 with
  | .acc _ .byte, .lo16 => 3
  | _, _ => len

/-! ### Operand resolver -/

/-- The code byte `b[i]` of the instruction (00_scope.md R18). The decoder reads it only where
the byte is there. -/
def byteAt (bs : List Byte) (i : Nat) : Byte := bs.getD i 0

/-- The little-endian word `b[i+1] : b[i]` (20_memory.md R82). -/
def wordAt (bs : List Byte) (i : Nat) : Word := joinWord (byteAt bs i) (byteAt bs (i + 1))

/-- The base expression that RM names (30_encoding.md R123). -/
def Base.ofCode (rm : BitVec 3) : Base :=
  match rm.toNat with
  | 0 => .bxSi
  | 1 => .bxDi
  | 2 => .bpSi
  | 3 => .bpDi
  | 4 => .si
  | 5 => .di
  | 6 => .bp
  | _ => .bx

/-- The segment register that SR names (10_state.md R38). -/
def SegReg.ofCode (sr : BitVec 2) : SegReg :=
  match sr.toNat with
  | 0 => .es
  | 1 => .cs
  | 2 => .ss
  | _ => .ds

/-- `Resolve`, before the width is applied (30_encoding.md R124 to R126). -/
def resolveRm (mod : BitVec 2) (rm : BitVec 3) (bs : List Byte) : Rm :=
  if mod = 0b11 then .reg rm
  else if mod = 0b00 then
    (if rm = 0b110 then .direct (wordAt bs 2) else .mem (Base.ofCode rm))
  else if mod = 0b01 then .mem8 (Base.ofCode rm) (byteAt bs 2)
  else .mem16 (Base.ofCode rm) (wordAt bs 2)

/-- An immediate of width w at byte position p (30_encoding.md R128 with S = 0, R129). -/
def immAt (w : Width) (p : Nat) (bs : List Byte) : Imm :=
  match w with
  | .byte => .byte (byteAt bs p)
  | .word => .word (wordAt bs p)

/-- The immediate of a K_IMM_RM arithmetic form (30_encoding.md R128). -/
def aluImmAt (w : Width) (s : Bool) (p : Nat) (bs : List Byte) : AluImm :=
  match w, s with
  | .byte, _     => .byte (byteAt bs p)
  | .word, false => .word (wordAt bs p)
  | .word, true  => .sextByte (byteAt bs p)

/-- The address of a K_ACC form (30_encoding.md R130). -/
def accAddrAt (p : Params) (w : Width) (bs : List Byte) : Word :=
  match w, p.acc8 with
  | .byte, .lo8 => zext16 (byteAt bs 1)
  | _, _        => wordAt bs 1

/-- The instruction of a mnemonic and its fields; `none` on a combination with no row. -/
def assemble (p : Params) (m : Mnemonic) (f : Fields) (bs : List Byte) : Option Instr :=
  match f with
  | .rmReg d w mod reg rm =>
    match m with
    | .mov => some (.movRmReg (.ofBit d) w reg (resolveRm mod rm bs))
    | .add => some (.addRmReg (.ofBit d) w reg (resolveRm mod rm bs))
    | .sub => some (.subRmReg (.ofBit d) w reg (resolveRm mod rm bs))
    | .cmp => some (.cmpRmReg (.ofBit d) w reg (resolveRm mod rm bs))
    | _    => none
  | .immRm w s mod _ rm =>
    match m with
    | .mov => some (.movImmRm (resolveRm mod rm bs) (immAt w (baseLen mod rm) bs))
    | .add => some (.addImmRm (resolveRm mod rm bs) (aluImmAt w s (baseLen mod rm) bs))
    | .sub => some (.subImmRm (resolveRm mod rm bs) (aluImmAt w s (baseLen mod rm) bs))
    | .cmp => some (.cmpImmRm (resolveRm mod rm bs) (aluImmAt w s (baseLen mod rm) bs))
    | _    => none
  | .immReg w reg =>
    match m with
    | .mov => some (.movImmReg reg (immAt w 1 bs))
    | .add => some (.addImmAcc (immAt w 1 bs))
    | .sub => some (.subImmAcc (immAt w 1 bs))
    | .cmp => some (.cmpImmAcc (immAt w 1 bs))
    | _    => none
  | .acc d w =>
    match m, d with
    | .mov, false => some (.movMemAcc w (accAddrAt p w bs))
    | .mov, true  => some (.movAccMem w (accAddrAt p w bs))
    | _, _        => none
  | .rmSreg d mod sr rm =>
    match m, d with
    | .mov, true  => some (.movRmSreg (.ofCode sr) (resolveRm mod rm bs))
    | .mov, false => some (.movSregRm (.ofCode sr) (resolveRm mod rm bs))
    | _, _        => none
  | .jcc =>
    let rel := byteAt bs 1
    match m with
    | .jo  => some (.jo rel)
    | .jno => some (.jno rel)
    | .jb  => some (.jb rel)
    | .jnb => some (.jnb rel)
    | .je  => some (.je rel)
    | .jne => some (.jne rel)
    | .jbe => some (.jbe rel)
    | .ja  => some (.ja rel)
    | .js  => some (.js rel)
    | .jns => some (.jns rel)
    | .jp  => some (.jp rel)
    | .jnp => some (.jnp rel)
    | .jl  => some (.jl rel)
    | .jnl => some (.jnl rel)
    | .jle => some (.jle rel)
    | .jg  => some (.jg rel)
    | .loopnz => some (.loopnz rel)
    | .loopz  => some (.loopz rel)
    | .loop   => some (.loop rel)
    | .jcxz   => some (.jcxz rel)
    | .mov | .add | .sub | .cmp => none

/-! ### The decoder as one function -/

/-- The instruction record that a successful decode answers (30_encoding.md R101, R156): the raw opcode
byte, the fields of the variant, the instruction with its displacement, immediate, address or rel8,
and its length in bytes. The kind, the mnemonic, the source, the destination and the displacement
marker are functions of the instruction (below). -/
structure Decoded where
  opcode : Byte
  fields : Fields
  instr  : Instr
  len    : Nat
  deriving DecidableEq, Repr

/-- The stages after the classifier, on the code bytes from IP0 on (30_encoding.md R156). -/
def decodeAs (p : Params) (k : Kind) (m : Mnemonic) (b0 b1 : Byte) (bs : List Byte) :
    Except DecodeFault Decoded :=
  let f := extractFields k m b0 b1
  match lengthCalc m f with
  | none => .error (.decodeError b0 b1 k m)
  | some len =>
    if bs.length < bytesNeeded p f len then
      .error (.truncatedInstruction bs.length (bytesNeeded p f len))
    else
      match assemble p m f bs with
      | none   => .error (.decodeError b0 b1 k m)
      | some i => .ok ⟨b0, f, i, len⟩

/-- The decoder (30_encoding.md R156): `bs` is the code from IP0 to the end of CODE, so its length is
the bytes available. -/
def decode (p : Params) (latch : Option (Kind × Mnemonic)) (bs : List Byte) :
    Except DecodeFault Decoded :=
  match bs with
  | b0 :: b1 :: _ =>
    match classify p latch b0 b1 with
    | .error e   => .error e
    | .ok (k, m) => decodeAs p k m b0 b1 bs
  | _ => .error (.truncatedInstruction bs.length 2)

/-! ### Kind, mnemonic, length and roles of an instruction -/

/-- The operation kind of an instruction (30_encoding.md R133). -/
def Instr.kind : Instr → Kind
  | .movRmReg _ _ _ _ | .addRmReg _ _ _ _ | .subRmReg _ _ _ _ | .cmpRmReg _ _ _ _ => .rmReg
  | .movImmRm _ _ | .addImmRm _ _ | .subImmRm _ _ | .cmpImmRm _ _ => .immRm
  | .movImmReg _ _ | .addImmAcc _ | .subImmAcc _ | .cmpImmAcc _ => .immReg
  | .movMemAcc _ _ | .movAccMem _ _ => .acc
  | .movRmSreg _ _ | .movSregRm _ _ => .rmSreg
  | .jo _ | .jno _ | .jb _ | .jnb _ | .je _ | .jne _ | .jbe _ | .ja _
  | .js _ | .jns _ | .jp _ | .jnp _ | .jl _ | .jnl _ | .jle _ | .jg _
  | .loopnz _ | .loopz _ | .loop _ | .jcxz _ => .jcc

/-- The mnemonic of an instruction (30_encoding.md R133). -/
def Instr.mnemonic : Instr → Mnemonic
  | .movRmReg _ _ _ _ | .movImmRm _ _ | .movImmReg _ _ | .movMemAcc _ _ | .movAccMem _ _
  | .movRmSreg _ _ | .movSregRm _ _ => .mov
  | .addRmReg _ _ _ _ | .addImmRm _ _ | .addImmAcc _ => .add
  | .subRmReg _ _ _ _ | .subImmRm _ _ | .subImmAcc _ => .sub
  | .cmpRmReg _ _ _ _ | .cmpImmRm _ _ | .cmpImmAcc _ => .cmp
  | .jo _  => .jo
  | .jno _ => .jno
  | .jb _  => .jb
  | .jnb _ => .jnb
  | .je _  => .je
  | .jne _ => .jne
  | .jbe _ => .jbe
  | .ja _  => .ja
  | .js _  => .js
  | .jns _ => .jns
  | .jp _  => .jp
  | .jnp _ => .jnp
  | .jl _  => .jl
  | .jnl _ => .jnl
  | .jle _ => .jle
  | .jg _  => .jg
  | .loopnz _ => .loopnz
  | .loopz _  => .loopz
  | .loop _   => .loop
  | .jcxz _   => .jcxz

/-- The bytes of an operand's displacement (30_encoding.md R122). -/
def Rm.dispLen : Rm → Nat
  | .reg _     => 0
  | .mem _     => 0
  | .direct _  => 2
  | .mem8 _ _  => 1
  | .mem16 _ _ => 2

/-- The width of an immediate. -/
def Imm.width : Imm → Width
  | .byte _ => .byte
  | .word _ => .word

/-- The width of the instruction that an arithmetic immediate belongs to (30_encoding.md R116). -/
def AluImm.width : AluImm → Width
  | .byte _     => .byte
  | .word _     => .word
  | .sextByte _ => .word

/-- The bytes an arithmetic immediate takes (30_encoding.md R142). -/
def AluImm.bytes : AluImm → Nat
  | .byte _     => 1
  | .word _     => 2
  | .sextByte _ => 1

/-- The immediate as the ALU reads it, sign-extended where S = 1 (30_encoding.md R128). -/
def AluImm.value : AluImm → Imm
  | .byte v     => .byte v
  | .word v     => .word v
  | .sextByte v => .word (sext16 v)

/-- The length of an instruction in bytes (30_encoding.md R141 to R147). -/
def Instr.length : Instr → Nat
  | .movRmReg _ _ _ rm | .addRmReg _ _ _ rm | .subRmReg _ _ _ rm | .cmpRmReg _ _ _ rm =>
    2 + rm.dispLen
  | .movImmRm rm imm => 2 + rm.dispLen + imm.width.bytes
  | .addImmRm rm imm | .subImmRm rm imm | .cmpImmRm rm imm => 2 + rm.dispLen + imm.bytes
  | .movImmReg _ imm | .addImmAcc imm | .subImmAcc imm | .cmpImmAcc imm => 1 + imm.width.bytes
  | .movMemAcc w _ | .movAccMem w _ => 1 + w.bytes
  | .movRmSreg _ rm | .movSregRm _ rm => 2 + rm.dispLen
  | .jo _ | .jno _ | .jb _ | .jnb _ | .je _ | .jne _ | .jbe _ | .ja _
  | .js _ | .jns _ | .jp _ | .jnp _ | .jl _ | .jnl _ | .jle _ | .jg _
  | .loopnz _ | .loopz _ | .loop _ | .jcxz _ => 2

/-- The bytes the decoder reads for an instruction: its length, or 3 for a byte K_ACC form under
`ACC8_ADDR` = Lo16 (30_encoding.md R130). -/
def Instr.bytesRead (p : Params) (i : Instr) : Nat :=
  match i, p.acc8 with
  | .movMemAcc .byte _, .lo16 | .movAccMem .byte _, .lo16 => 3
  | _, _ => i.length

/-- A register code as an operand, byte or word by the width (10_state.md R32, R34). -/
def regLoc (w : Width) (n : BitVec 3) : Loc :=
  match w with
  | .byte => .reg8 n
  | .word => .reg16 n

/-- `Resolve` with the width applied (30_encoding.md R126); the displacement is 16 bits, sign-extended
from 8 for MOD = 0b01 and 0 for MOD = 0b00 (R121, R125). -/
def Rm.loc (w : Width) : Rm → Loc
  | .reg n     => regLoc w n
  | .mem b     => .mem b 0
  | .direct a  => .direct a
  | .mem8 b d  => .mem b (sext16 d)
  | .mem16 b d => .mem b d

/-- The accumulator: ax for word forms, al for byte forms (10_state.md R37). -/
def accLoc (w : Width) : Loc := regLoc w 0

/-- The destination of a K_RM_REG form (30_encoding.md R150). -/
def rmRegDst (d : Dir) (w : Width) (reg : BitVec 3) (rm : Rm) : Loc :=
  match d with
  | .rmDst  => rm.loc w
  | .regDst => regLoc w reg

/-- The source of a K_RM_REG form (30_encoding.md R150). -/
def rmRegSrc (d : Dir) (w : Width) (reg : BitVec 3) (rm : Rm) : Loc :=
  match d with
  | .rmDst  => regLoc w reg
  | .regDst => rm.loc w

/-- The destination operand (30_encoding.md R150 to R155); a jump has none. -/
def Instr.dst : Instr → Option Operand
  | .movRmReg d w reg rm | .addRmReg d w reg rm | .subRmReg d w reg rm | .cmpRmReg d w reg rm =>
    some (.loc (rmRegDst d w reg rm))
  | .movImmRm rm imm => some (.loc (rm.loc imm.width))
  | .addImmRm rm imm | .subImmRm rm imm | .cmpImmRm rm imm => some (.loc (rm.loc imm.width))
  | .movImmReg reg imm => some (.loc (regLoc imm.width reg))
  | .addImmAcc imm | .subImmAcc imm | .cmpImmAcc imm => some (.loc (accLoc imm.width))
  | .movMemAcc w _ => some (.loc (accLoc w))
  | .movAccMem _ addr => some (.loc (.direct addr))
  | .movRmSreg g _ => some (.loc (.sreg g))
  | .movSregRm _ rm => some (.loc (rm.loc .word))
  | .jo _ | .jno _ | .jb _ | .jnb _ | .je _ | .jne _ | .jbe _ | .ja _
  | .js _ | .jns _ | .jp _ | .jnp _ | .jl _ | .jnl _ | .jle _ | .jg _
  | .loopnz _ | .loopz _ | .loop _ | .jcxz _ => none

/-- The source operand (30_encoding.md R150 to R155); a jump's single operand is its Rel8. -/
def Instr.src : Instr → Operand
  | .movRmReg d w reg rm | .addRmReg d w reg rm | .subRmReg d w reg rm | .cmpRmReg d w reg rm =>
    .loc (rmRegSrc d w reg rm)
  | .movImmRm _ imm => .imm imm
  | .addImmRm _ imm | .subImmRm _ imm | .cmpImmRm _ imm => .imm imm.value
  | .movImmReg _ imm | .addImmAcc imm | .subImmAcc imm | .cmpImmAcc imm => .imm imm
  | .movMemAcc _ addr => .loc (.direct addr)
  | .movAccMem w _ => .loc (accLoc w)
  | .movRmSreg _ rm => .loc (rm.loc .word)
  | .movSregRm g _ => .loc (.sreg g)
  | .jo r | .jno r | .jb r | .jnb r | .je r | .jne r | .jbe r | .ja r
  | .js r | .jns r | .jp r | .jnp r | .jl r | .jnl r | .jle r | .jg r
  | .loopnz r | .loopz r | .loop r | .jcxz r => .rel8 r

/-- The displacement-presence marker of a memory operand (30_encoding.md R132). -/
def Rm.dispPresent : Rm → Bool
  | .reg _ | .mem _ => false
  | .direct _ | .mem8 _ _ | .mem16 _ _ => true

/-- Whether the renderer prints a displacement (30_encoding.md R132): for the direct address always,
else where the marker is set and the displacement is not zero. -/
def Rm.dispPrinted : Rm → Bool
  | .reg _ | .mem _ => false
  | .direct _       => true
  | .mem8 _ d       => decide (d ≠ 0)
  | .mem16 _ d      => decide (d ≠ 0)

/-- The MOD/RM operand of an instruction that has one. -/
def Instr.rm? : Instr → Option Rm
  | .movRmReg _ _ _ rm | .addRmReg _ _ _ rm | .subRmReg _ _ _ rm | .cmpRmReg _ _ _ rm => some rm
  | .movImmRm rm _ => some rm
  | .addImmRm rm _ | .subImmRm rm _ | .cmpImmRm rm _ => some rm
  | .movRmSreg _ rm | .movSregRm _ rm => some rm
  | .movImmReg _ _ | .addImmAcc _ | .subImmAcc _ | .cmpImmAcc _ | .movMemAcc _ _ | .movAccMem _ _
  | .jo _ | .jno _ | .jb _ | .jnb _ | .je _ | .jne _ | .jbe _ | .ja _
  | .js _ | .jns _ | .jp _ | .jnp _ | .jl _ | .jnl _ | .jle _ | .jg _
  | .loopnz _ | .loopz _ | .loop _ | .jcxz _ => none

/-- The displacement-presence marker of an instruction (30_encoding.md R132): a K_ACC form's memory
operand is a direct address. -/
def Instr.dispPresent (i : Instr) : Bool :=
  match i with
  | .movMemAcc _ _ | .movAccMem _ _ => true
  | _ => (i.rm?.map Rm.dispPresent).getD false

/-! ### The encoder

The source has no encoder (00_scope.md R8): this one is the model's (log entry 13), written from the
formats of 30_encoding.md R134 to R139, so that decoding can be shown to lose no bit. -/

/-- RM of a base expression (30_encoding.md R123). -/
def Base.code : Base → BitVec 3
  | .bxSi => 0b000
  | .bxDi => 0b001
  | .bpSi => 0b010
  | .bpDi => 0b011
  | .si   => 0b100
  | .di   => 0b101
  | .bp   => 0b110
  | .bx   => 0b111

/-- SR of a segment register (10_state.md R38). -/
def SegReg.code : SegReg → BitVec 2
  | .es => 0b00
  | .cs => 0b01
  | .ss => 0b10
  | .ds => 0b11

/-- MOD of an operand (30_encoding.md R117). -/
def Rm.modCode : Rm → BitVec 2
  | .reg _     => 0b11
  | .mem _     => 0b00
  | .direct _  => 0b00
  | .mem8 _ _  => 0b01
  | .mem16 _ _ => 0b10

/-- RM of an operand (30_encoding.md R123, R124, R126). -/
def Rm.rmCode : Rm → BitVec 3
  | .reg n     => n
  | .mem b     => b.code
  | .direct _  => 0b110
  | .mem8 b _  => b.code
  | .mem16 b _ => b.code

/-- The MOD/REG/RM byte `mmgggbbb`. -/
def modRmByte (ggg : BitVec 3) (rm : Rm) : Byte := rm.modCode ++ ggg ++ rm.rmCode

/-- A word as two code bytes, the low one first (20_memory.md R82). -/
def wordBytes (v : Word) : List Byte := [loByte v, hiByte v]

/-- The displacement bytes (30_encoding.md R125). -/
def Rm.dispBytes : Rm → List Byte
  | .reg _     => []
  | .mem _     => []
  | .direct a  => wordBytes a
  | .mem8 _ d  => [d]
  | .mem16 _ d => wordBytes d

/-- The immediate bytes (30_encoding.md R128, R129). -/
def Imm.encode : Imm → List Byte
  | .byte v => [v]
  | .word v => wordBytes v

/-- The arithmetic immediate bytes (30_encoding.md R128). -/
def AluImm.encode : AluImm → List Byte
  | .byte v     => [v]
  | .word v     => wordBytes v
  | .sextByte v => [v]

/-- The bit S of an arithmetic immediate; the encoder sets it only with W = 1 (30_encoding.md R116). -/
def AluImm.sBit : AluImm → BitVec 1
  | .byte _     => 0
  | .word _     => 0
  | .sextByte _ => 1

/-- Format F_RMREG (30_encoding.md R134). -/
def encodeRmReg (op : BitVec 6) (d : Dir) (w : Width) (reg : BitVec 3) (rm : Rm) : List Byte :=
  (op ++ d.bit ++ w.bit) :: modRmByte reg rm :: rm.dispBytes

/-- Format F_IMMRM, arithmetic (30_encoding.md R135). -/
def encodeAluImmRm (ext : BitVec 3) (rm : Rm) (imm : AluImm) : List Byte :=
  (0b100000#6 ++ imm.sBit ++ imm.width.bit) :: modRmByte ext rm :: (rm.dispBytes ++ imm.encode)

/-- Format F_IMMREG, arithmetic (30_encoding.md R136). -/
def encodeAluImmAcc (op : BitVec 7) (imm : Imm) : List Byte :=
  (op ++ imm.width.bit) :: imm.encode

/-- Format F_ACC (30_encoding.md R137): the bytes the decoder reads. Under `ACC8_ADDR` = Lo16 a byte
form's address high byte lies beyond the instruction's length (R130). -/
def encodeAcc (p : Params) (d : BitVec 1) (w : Width) (addr : Word) : List Byte :=
  (0b101000#6 ++ d ++ w.bit) ::
    (match w, p.acc8 with
     | .byte, .lo8 => [loByte addr]
     | _, _        => wordBytes addr)

/-- Format F_SREG (30_encoding.md R138); the ignored bit b1[5] is written 0. -/
def encodeSreg (op : Byte) (g : SegReg) (rm : Rm) : List Byte :=
  op :: modRmByte (0b0#1 ++ g.code) rm :: rm.dispBytes

/-- The encoder: the bytes that the decoder reads for a well-formed instruction. Ignored bits are
written 0 (30_encoding.md R159). -/
def encode (p : Params) : Instr → List Byte
  | .movRmReg d w reg rm => encodeRmReg 0b100010 d w reg rm
  | .movImmRm rm imm =>
    (0b1100011#7 ++ imm.width.bit) :: modRmByte 0 rm :: (rm.dispBytes ++ imm.encode)
  | .movImmReg reg imm => (0b1011#4 ++ imm.width.bit ++ reg) :: imm.encode
  | .movMemAcc w addr => encodeAcc p 0 w addr
  | .movAccMem w addr => encodeAcc p 1 w addr
  | .movRmSreg g rm => encodeSreg 0x8E g rm
  | .movSregRm g rm => encodeSreg 0x8C g rm
  | .addRmReg d w reg rm => encodeRmReg 0b000000 d w reg rm
  | .addImmRm rm imm => encodeAluImmRm 0b000 rm imm
  | .addImmAcc imm => encodeAluImmAcc 0b0000010 imm
  | .subRmReg d w reg rm => encodeRmReg 0b001010 d w reg rm
  | .subImmRm rm imm => encodeAluImmRm 0b101 rm imm
  | .subImmAcc imm => encodeAluImmAcc 0b0010110 imm
  | .cmpRmReg d w reg rm => encodeRmReg 0b001110 d w reg rm
  | .cmpImmRm rm imm => encodeAluImmRm 0b111 rm imm
  | .cmpImmAcc imm => encodeAluImmAcc 0b0011110 imm
  | .jo rel  => [0x70, rel]
  | .jno rel => [0x71, rel]
  | .jb rel  => [0x72, rel]
  | .jnb rel => [0x73, rel]
  | .je rel  => [0x74, rel]
  | .jne rel => [0x75, rel]
  | .jbe rel => [0x76, rel]
  | .ja rel  => [0x77, rel]
  | .js rel  => [0x78, rel]
  | .jns rel => [0x79, rel]
  | .jp rel  => [0x7A, rel]
  | .jnp rel => [0x7B, rel]
  | .jl rel  => [0x7C, rel]
  | .jnl rel => [0x7D, rel]
  | .jle rel => [0x7E, rel]
  | .jg rel  => [0x7F, rel]
  | .loopnz rel => [0xE0, rel]
  | .loopz rel  => [0xE1, rel]
  | .loop rel   => [0xE2, rel]
  | .jcxz rel   => [0xE3, rel]

/-! ### A word as spec/opcode_table.json numbers it (log entry 1) -/

/-- The six code bytes of an instruction whose bits are w. The table gives every row 16 bits, with
b0 in bits 15..8 and b1 in bits 7..0 ("match_bytes"); later bytes count on from bit 16. Every bit at
or above nbits is 0. -/
def tableBytes (nbits w : Nat) : List Byte :=
  let v := w % 2 ^ nbits
  [v / 2 ^ 8, v, v / 2 ^ 16, v / 2 ^ 24, v / 2 ^ 32, v / 2 ^ 40].map (BitVec.ofNat 8)

/-- The instruction the decoder reads from a table word, with the default parameters and an empty
latch. -/
def decodeTableWord (nbits w : Nat) : Option Instr :=
  match decode .default none (tableBytes nbits w) with
  | .ok d    => some d.instr
  | .error _ => none

end Sys2Proof
end

