-- ==== Sys2Proof/Machine/State.lean ====
section
/-! DEFINITION. The state of the block (10_state.md R53), the reasons a step can stop
(60_exceptions.md R260, R278), and the state after reset. -/

namespace Sys2Proof.Machine

/-- The eight general registers, in slot order (10_state.md R30, R31). -/
structure Gpr where
  ax : Word
  bx : Word
  cx : Word
  dx : Word
  sp : Word
  bp : Word
  si : Word
  di : Word
  deriving DecidableEq, Repr

/-- The four segment registers, in slot order (10_state.md R31, R38). -/
structure Sregs where
  es : Word
  cs : Word
  ss : Word
  ds : Word
  deriving DecidableEq, Repr

/-- The nine flags, in dump order (10_state.md R43). There is no word layout. -/
structure Flags where
  OF : Bool
  DF : Bool
  IF : Bool
  TF : Bool
  SF : Bool
  ZF : Bool
  AF : Bool
  PF : Bool
  CF : Bool
  deriving DecidableEq, Repr

/-- Data memory (20_memory.md R71): the bytes that are not 0, by rising address. An unlisted address
reads 0 (R72). `Memory.wf` in Machine/Ops.lean states the canonical form. -/
abbrev Memory := List Host.Cell

/-- Everything the spec gives the machine (10_state.md R53), and its parameters (00_scope.md R13). -/
structure State where
  gpr    : Gpr
  sreg   : Sregs
  /-- The instruction pointer, an offset into `code` (10_state.md R40). -/
  ip     : Word
  flags  : Flags
  mem    : Memory
  /-- The code buffer CODE; its length is N (20_memory.md R74). -/
  code   : List Byte
  /-- The classifier latch (10_state.md R46). -/
  latch  : Option (Kind × Mnemonic)
  /-- The block's configuration, fixed for a run (10_state.md R48). -/
  params : Params
  deriving DecidableEq, Repr

/-- The faults of 60_exceptions.md R260, each with its recorded information. Every one ends the run and
leaves the state as before the faulting instruction (R267). -/
inductive Fault where
  /-- Code 1, raised by the step when the classifier finds b0 in no table, or an unmapped ByteTwo code
  (then with b1) (R261). Under `UNMAPPED_POLICY` = Fault it is safe: the model stops where the
  repository goes on with a stale decode. -/
  | unmappedOpcode (ip0 : Word) (b0 : Byte) (b1 : Option Byte)
  /-- Code 2, raised by the step when the length table has no row (R262). Safe: the model stops where
  the repository may go on. -/
  | decodeError (ip0 : Word) (b0 b1 : Byte) (kind : Kind) (mnemonic : Mnemonic)
  /-- Code 3, raised by the step when CODE ends inside the instruction (R263). Safe: the model stops
  where the repository may read past the buffer. -/
  | truncatedInstruction (ip0 : Word) (avail need : Nat)
  /-- Code 4, raised by the launch when there is no input (R264). Safe: the model stops where the
  repository runs an empty program. -/
  | inputUnavailable
  deriving DecidableEq, Repr

/-- The refusals. -/
inductive Refusal where
  /-- Raised by exec for an instruction that has no meaning yet; no arm of this model raises it. Safe. -/
  | notModelled (mnemonic : String)
  /-- Raised by an Unimplemented form under `UNIMPL_POLICY` = Refuse, and only then, with IP0 and the
  mnemonic (60_exceptions.md R278). Safe: the model declines where the repository does nothing. -/
  | unimplemented (ip0 : Word) (mnemonic : Mnemonic)
  /-- Raised by the launch for an input of more than 65,535 bytes (70_reset_and_hazards.md R291). Safe:
  nothing runs. -/
  | inputTooLong (n : Nat)
  deriving DecidableEq, Repr

/-- DESIGN CHOICE (log entry 4): the reference value of `INIT_GPR`, all zero (10_state.md R53). -/
def Gpr.zero : Gpr where
  ax := 0
  bx := 0
  cx := 0
  dx := 0
  sp := 0
  bp := 0
  si := 0
  di := 0

/-- DESIGN CHOICE (log entry 4): the reference value of `INIT_SREG`, all zero (10_state.md R53). -/
def Sregs.zero : Sregs where
  es := 0
  cs := 0
  ss := 0
  ds := 0

/-- DESIGN CHOICE (log entry 4): the reference value of `INIT_FLAGS`, all false (10_state.md R53). -/
def Flags.clear : Flags where
  OF := false
  DF := false
  IF := false
  TF := false
  SF := false
  ZF := false
  AF := false
  PF := false
  CF := false

/-- The state after the start sequence with an empty input (70_reset_and_hazards.md R291, 10_state.md
R53): ip and memory 0 and the latch None as the spec states, the OPEN registers and flags at the
spec's reference values (log entry 4), the parameters at their defaults (00_scope.md R13), and no
code, which a launch supplies (log entry 3). -/
def State.reset : State where
  gpr    := .zero
  sreg   := .zero
  ip     := 0
  flags  := .clear
  mem    := []
  code   := []
  latch  := none
  params := .default

end Sys2Proof.Machine
end

