-- ==== Sys2Proof/Machine/Ops.lean ====
section
/-! DEFINITION. The named operations over registers, memory, the code buffer and the instruction
pointer, raising a fault, and the Unimplemented outcome. -/

namespace Sys2Proof.Machine

/-- What a meaning answers. -/
abbrev Result := Host.Outcome State Fault Refusal

/-! ### Registers -/

/-- The word register that a 3-bit code names (10_state.md R32). -/
def wordReg (n : BitVec 3) : Reg16 :=
  match n.toNat with
  | 0 => .ax
  | 1 => .cx
  | 2 => .dx
  | 3 => .bx
  | 4 => .sp
  | 5 => .bp
  | 6 => .si
  | _ => .di

/-- The slot of a byte register: word register `n mod 4` (10_state.md R34). -/
def byteSlot (n : BitVec 3) : Reg16 :=
  match n.toNat % 4 with
  | 0 => .ax
  | 1 => .cx
  | 2 => .dx
  | _ => .bx

/-- The half of a byte register: low if `n < 4`, else high (10_state.md R34). -/
def byteHalf (n : BitVec 3) : Half := if n.toNat < 4 then .low else .high

/-- The slot of a word register (10_state.md R30). -/
def Gpr.get (g : Gpr) : Reg16 → Word
  | .ax => g.ax
  | .cx => g.cx
  | .dx => g.dx
  | .bx => g.bx
  | .sp => g.sp
  | .bp => g.bp
  | .si => g.si
  | .di => g.di

/-- Replaces a whole slot (10_state.md R33). -/
def Gpr.set (g : Gpr) (r : Reg16) (v : Word) : Gpr :=
  match r with
  | .ax => { g with ax := v }
  | .cx => { g with cx := v }
  | .dx => { g with dx := v }
  | .bx => { g with bx := v }
  | .sp => { g with sp := v }
  | .bp => { g with bp := v }
  | .si => { g with si := v }
  | .di => { g with di := v }

/-- `SR(g)` (00_scope.md R18). -/
def Sregs.get (x : Sregs) : SegReg → Word
  | .es => x.es
  | .cs => x.cs
  | .ss => x.ss
  | .ds => x.ds

/-- `SR(g) <- v`. -/
def Sregs.set (x : Sregs) (g : SegReg) (v : Word) : Sregs :=
  match g with
  | .es => { x with es := v }
  | .cs => { x with cs := v }
  | .ss => { x with ss := v }
  | .ds => { x with ds := v }

/-- One half of a word. -/
def halfOf (h : Half) (v : Word) : Byte :=
  match h with
  | .low  => loByte v
  | .high => hiByte v

/-- A word with one half replaced, the masked read-modify-write of 10_state.md R34. -/
def withHalf (h : Half) (v : Word) (b : Byte) : Word :=
  match h with
  | .low  => joinWord b (hiByte v)
  | .high => joinWord (loByte v) b

/-- Reads a word register. -/
def State.getReg (s : State) (r : Reg16) : Word := s.gpr.get r

/-- Writes a word register. -/
def State.setReg (s : State) (r : Reg16) (v : Word) : State := { s with gpr := s.gpr.set r v }

/-- Reads a segment register. -/
def State.getSeg (s : State) (g : SegReg) : Word := s.sreg.get g

/-- Writes a segment register. -/
def State.setSeg (s : State) (g : SegReg) (v : Word) : State := { s with sreg := s.sreg.set g v }

/-- `R16(n)` (10_state.md R33). -/
def State.r16 (s : State) (n : BitVec 3) : Word := s.getReg (wordReg n)

/-- `R16(n) <- v` (10_state.md R33). -/
def State.setR16 (s : State) (n : BitVec 3) (v : Word) : State := s.setReg (wordReg n) v

/-- `R8(n)` (10_state.md R34). -/
def State.r8 (s : State) (n : BitVec 3) : Byte := halfOf (byteHalf n) (s.getReg (byteSlot n))

/-- `R8(n) <- v` (10_state.md R34). -/
def State.setR8 (s : State) (n : BitVec 3) (v : Byte) : State :=
  s.setReg (byteSlot n) (withHalf (byteHalf n) (s.getReg (byteSlot n)) v)

/-! ### Data memory -/

/-- The canonical form: addresses strictly rising and below 65,536, and no byte that is 0. -/
def Memory.wf (m : Memory) : Bool :=
  decide (m.Pairwise (fun x y => x.1 < y.1)) && m.all (fun c => decide (c.1 < 65536) && c.2 != 0)

/-- The byte at an address; an address that is not listed reads 0 (20_memory.md R72). -/
def Memory.read (m : Memory) (a : Nat) : Byte :=
  match m with
  | []           => 0
  | (k, v) :: m' => if k = a then v else Memory.read m' a

/-- Puts a cell before the first listed address above its own. -/
def Memory.insert (m : Memory) (a : Nat) (v : Byte) : Memory :=
  match m with
  | []      => [(a, v)]
  | c :: m' => if a < c.1 then (a, v) :: c :: m' else c :: Memory.insert m' a v

/-- Stores one byte. Storing 0 takes the entry out, so that equal memories are equal lists. -/
def Memory.write (m : Memory) (a : Nat) (v : Byte) : Memory :=
  let rest := m.filter (fun c => c.1 != a)
  if v = 0 then rest else Memory.insert rest a v

/-- `MemRead(a, 1)` (20_memory.md R80). -/
def State.memRead8 (s : State) (a : Word) : Byte := s.mem.read a.toNat

/-- `MemRead(a, 2)`: the low byte at a, the high byte at `(a + 1) mod 2^16` (20_memory.md R80). -/
def State.memRead16 (s : State) (a : Word) : Word :=
  joinWord (s.memRead8 a) (s.memRead8 (a + 1))

/-- `MemWrite(a, 1, v)` (20_memory.md R81). -/
def State.memWrite8 (s : State) (a : Word) (v : Byte) : State :=
  { s with mem := s.mem.write a.toNat v }

/-- `MemWrite(a, 2, v)` (20_memory.md R81). -/
def State.memWrite16 (s : State) (a : Word) (v : Word) : State :=
  (s.memWrite8 a (loByte v)).memWrite8 (a + 1) (hiByte v)

/-! ### The code buffer and the instruction pointer -/

/-- N, the length of the code buffer (20_memory.md R74). -/
def State.codeLen (s : State) : Nat := s.code.length

/-- The run has ended normally: `ip >= N` (10_state.md R50). -/
def State.halted (s : State) : Bool := decide (s.codeLen ≤ s.ip.toNat)

/-- The code bytes from ip to the end of CODE, which the decoder reads (20_memory.md R74). -/
def State.fetch (s : State) : List Byte := s.code.drop s.ip.toNat

/-- What the cycle does between decode and execute (10_state.md R49): the latch takes the instruction's
(kind, mnemonic) (R47) and ip advances by the length, modulo 2^16 (R41). -/
def State.advance (s : State) (d : Decoded) : State :=
  { s with latch := some (d.instr.kind, d.instr.mnemonic), ip := s.ip + BitVec.ofNat 16 d.len }

/-- A branch, taken if the condition holds: `ip <- (ip + sext_16(rel)) mod 2^16` (42_branch.md R210). -/
def State.branchIf (s : State) (c : Bool) (rel : Byte) : State :=
  if c then { s with ip := s.ip + sext16 rel } else s

/-! ### Faults and Unimplemented forms -/

/-- Raising a fault at IP0, the one way a fault is entered (60_exceptions.md R267): the run ends, no
state changes, nothing is saved and control goes nowhere, so there is no return (R269). -/
def raise (ip0 : Word) : DecodeFault → Result
  | .unmappedOpcode b0 b1         => .fault (.unmappedOpcode ip0 b0 b1)
  | .decodeError b0 b1 k m        => .fault (.decodeError ip0 b0 b1 k m)
  | .truncatedInstruction avail n => .fault (.truncatedInstruction ip0 avail n)

/-- The code of a fault (60_exceptions.md R260). -/
def Fault.code : Fault → Nat
  | .unmappedOpcode _ _ _       => 1
  | .decodeError _ _ _ _ _      => 2
  | .truncatedInstruction _ _ _ => 3
  | .inputUnavailable           => 4

/-- `Unimplemented` (40_mov.md R171): under NoOp no state changes beyond the ip advance; under Refuse
the run ends refused, with IP0 and the mnemonic (60_exceptions.md R278). ip already holds
IP0 + len when this runs (10_state.md R40), so IP0 is ip less the length. -/
def unimplemented (i : Instr) (s : State) : Result :=
  match s.params.unimpl with
  | .noOp   => .next s
  | .refuse => .refused (.unimplemented (s.ip - BitVec.ofNat 16 i.length) i.mnemonic)

end Sys2Proof.Machine
end

