-- ==== Sys2Proof/Machine/Operands.lean ====
section
/-! DEFINITION. Effective addresses and the two operand primitives ReadOp and WriteOp (40_mov.md R170). -/

namespace Sys2Proof.Machine

/-- The value of a base expression, modulo 2^16 (30_encoding.md R123). -/
def State.base (s : State) : Base → Word
  | .bxSi => s.getReg .bx + s.getReg .si
  | .bxDi => s.getReg .bx + s.getReg .di
  | .bpSi => s.getReg .bp + s.getReg .si
  | .bpDi => s.getReg .bp + s.getReg .di
  | .si   => s.getReg .si
  | .di   => s.getReg .di
  | .bp   => s.getReg .bp
  | .bx   => s.getReg .bx

/-- `EA(Mem(base, disp))`, modulo 2^16 (30_encoding.md R126, 20_memory.md R78). -/
def State.ea (s : State) (b : Base) (disp : Word) : Word := s.base b + disp

/-- `MemRead` of width w, as an integer (20_memory.md R80). -/
def State.memRead (s : State) (w : Width) (a : Word) : Nat :=
  match w with
  | .byte => (s.memRead8 a).toNat
  | .word => (s.memRead16 a).toNat

/-- `MemWrite` of width w: the low bytes of v (20_memory.md R81). -/
def State.memWrite (s : State) (w : Width) (a : Word) (v : Int) : State :=
  match w with
  | .byte => s.memWrite8 a (BitVec.ofInt 8 v)
  | .word => s.memWrite16 a (BitVec.ofInt 16 v)

/-- `ReadOp` of a location: the pattern, as an unsigned integer (40_mov.md R170). No read widens. -/
def State.readLoc (s : State) (w : Width) : Loc → Nat
  | .reg8 n   => (s.r8 n).toNat
  | .reg16 n  => (s.r16 n).toNat
  | .sreg g   => (s.getSeg g).toNat
  | .mem b d  => s.memRead w (s.ea b d)
  | .direct a => s.memRead w a

/-- The pattern of an immediate. -/
def immValue : Imm → Nat
  | .byte v => v.toNat
  | .word v => v.toNat

/-- `ReadOp` (40_mov.md R170): an immediate is its own pattern. A jump's Rel8 is read as its
sign-extended word (30_encoding.md R131). -/
def State.readOp (s : State) (w : Width) : Operand → Nat
  | .loc l  => s.readLoc w l
  | .imm v  => immValue v
  | .rel8 d => (sext16 d).toNat

/-- `WriteOp`: the value modulo 2^8 or 2^16, as the destination holds (40_mov.md R170, 10_state.md R33,
R34). -/
def State.writeLoc (s : State) (w : Width) (l : Loc) (v : Int) : State :=
  match l with
  | .reg8 n   => s.setR8 n (BitVec.ofInt 8 v)
  | .reg16 n  => s.setR16 n (BitVec.ofInt 16 v)
  | .sreg g   => s.setSeg g (BitVec.ofInt 16 v)
  | .mem b d  => s.memWrite w (s.ea b d) v
  | .direct a => s.memWrite w a v

/-- Whether the operand is register-direct, MOD = 0b11 (41_arith.md R190). -/
def isRegister : Rm → Bool
  | .reg _ => true
  | .mem _ | .direct _ | .mem8 _ _ | .mem16 _ _ => false

end Sys2Proof.Machine
end

