-- ==== Sys2Proof/Machine/Flags.lean ====
section
/-! DEFINITION. The flag logic unit (43_flag_unit.md). -/

namespace Sys2Proof.Machine

/-- The intermediate result as the 32-bit pattern whose bits the rules read (00_scope.md R17). -/
def pattern32 (r : Int) : BitVec 32 := BitVec.ofInt 32 r

/-- `popcount` of a byte (00_scope.md R16). -/
def popcount (v : Byte) : Nat := ((List.range 8).filter (fun i => v.getLsbD i)).length

/-- PF (43_flag_unit.md R242). -/
def parityFlag (r : Int) : Bool := popcount ((pattern32 r).extractLsb' 0 8) % 2 = 0

/-- ZF, of the unmasked intermediate (43_flag_unit.md R243). -/
def zeroFlag (r : Int) : Bool := r = 0

/-- SF, bit 15 or bit 7 of the intermediate (43_flag_unit.md R244). -/
def signFlag (w : Width) (r : Int) : Bool :=
  match w with
  | .word => (pattern32 r).getLsbD 15
  | .byte => (pattern32 r).getLsbD 7

/-- CF, with the threshold 255 at both widths (43_flag_unit.md R245). -/
def carryFlag (op : AluOp) (r : Int) : Bool :=
  match op with
  | .add => r > 255
  | .sub | .cmp => r < 0

/-- OF, by the numeric intervals (43_flag_unit.md R246; 90_conflicts.md C2). -/
def overflowFlag (w : Width) (r : Int) : Bool :=
  match w with
  | .word => r < -32768 ∨ r > 65535
  | .byte => r < -127 ∨ r > 255

/-- AF (43_flag_unit.md R247): the nibble carry, or the opaque rule (log entry 6). -/
def auxCarryFlag (rule : AfRule) (op : AluOp) (r src : Int) (w : Width) : Bool :=
  match rule with
  | .opaqueRule => Config.afRule op r src w
  | .nibbleCarry =>
    match op with
    | .add => (src % 16) + ((r - src) % 16) > 15
    | .sub | .cmp => (r + src) % 16 < src % 16

/-- The flag unit (43_flag_unit.md R248), written over the flags as they were: DF, IF and TF are no
outputs of it (R250). -/
def flagUnit (rule : AfRule) (op : AluOp) (r src : Int) (w : Width) (f : Flags) : Flags :=
  { f with
    PF := parityFlag r
    ZF := zeroFlag r
    SF := signFlag w r
    CF := carryFlag op r
    OF := overflowFlag w r
    AF := auxCarryFlag rule op r src w }

end Sys2Proof.Machine
end

