-- ==== Sys2Proof/Machine/Arith.lean ====
section
/-! DEFINITION. The arithmetic family (41_arith.md): the ALU step and add, sub and cmp in their three
forms. Each meaning runs after the ip advance (10_state.md R40). -/

namespace Sys2Proof.Machine

/-- `Int(v, w)`: an operand pattern as an integer, by `OPERAND_READ` (41_arith.md R191). -/
def operandInt (read : OperandRead) (w : Width) (v : Nat) : Int :=
  match read, w with
  | .unsigned, _   => v
  | .signed, .byte => (BitVec.ofNat 8 v).toInt
  | .signed, .word => (BitVec.ofNat 16 v).toInt

/-- The intermediate result, a mathematical integer (41_arith.md R192). -/
def aluResult (op : AluOp) (a b : Int) : Int :=
  match op with
  | .add => a + b
  | .sub | .cmp => a - b

/-- The ALU step (41_arith.md R192): both operands are read first, cmp stores nothing, and the flag unit
sets six flags. -/
def alu (op : AluOp) (w : Width) (dst : Loc) (src : Operand) (s : State) : State :=
  let a := operandInt s.params.operandRead w (s.readLoc w dst)
  let b := operandInt s.params.operandRead w (s.readOp w src)
  let r := aluResult op a b
  let stored := match op with
    | .add | .sub => s.writeLoc w dst r
    | .cmp        => s
  { stored with flags := flagUnit s.params.afRule op r b w s.flags }

/-- A K_RM_REG arithmetic form: executed in register mode only (41_arith.md R190). -/
def aluRmReg (op : AluOp) (d : Dir) (w : Width) (reg : BitVec 3) (rm : Rm) (i : Instr) (s : State) :
    Result :=
  if isRegister rm then
    .next (alu op w (rmRegDst d w reg rm) (.loc (rmRegSrc d w reg rm)) s)
  else unimplemented i s

/-- A K_IMM_RM arithmetic form: executed in register mode only (41_arith.md R190). -/
def aluImmRm (op : AluOp) (rm : Rm) (imm : AluImm) (i : Instr) (s : State) : Result :=
  if isRegister rm then .next (alu op imm.width (rm.loc imm.width) (.imm imm.value) s)
  else unimplemented i s

/-- A K_IMM_REG arithmetic form: always executed, on the accumulator (41_arith.md R190). -/
def aluImmAcc (op : AluOp) (imm : Imm) (s : State) : Result :=
  .next (alu op imm.width (accLoc imm.width) (.imm imm) s)

/-- `add` register/memory with register (41_arith.md R193). -/
def execAddRmReg (d : Dir) (w : Width) (reg : BitVec 3) (rm : Rm) (s : State) : Result :=
  aluRmReg .add d w reg rm (.addRmReg d w reg rm) s

/-- `add` immediate to register/memory (41_arith.md R194). -/
def execAddImmRm (rm : Rm) (imm : AluImm) (s : State) : Result :=
  aluImmRm .add rm imm (.addImmRm rm imm) s

/-- `add` immediate to accumulator (41_arith.md R195). -/
def execAddImmAcc (imm : Imm) (s : State) : Result := aluImmAcc .add imm s

/-- `sub` register/memory with register (41_arith.md R196). -/
def execSubRmReg (d : Dir) (w : Width) (reg : BitVec 3) (rm : Rm) (s : State) : Result :=
  aluRmReg .sub d w reg rm (.subRmReg d w reg rm) s

/-- `sub` immediate from register/memory (41_arith.md R197). -/
def execSubImmRm (rm : Rm) (imm : AluImm) (s : State) : Result :=
  aluImmRm .sub rm imm (.subImmRm rm imm) s

/-- `sub` immediate from accumulator (41_arith.md R198). -/
def execSubImmAcc (imm : Imm) (s : State) : Result := aluImmAcc .sub imm s

/-- `cmp` register/memory with register (41_arith.md R199). -/
def execCmpRmReg (d : Dir) (w : Width) (reg : BitVec 3) (rm : Rm) (s : State) : Result :=
  aluRmReg .cmp d w reg rm (.cmpRmReg d w reg rm) s

/-- `cmp` immediate with register/memory (41_arith.md R200). -/
def execCmpImmRm (rm : Rm) (imm : AluImm) (s : State) : Result :=
  aluImmRm .cmp rm imm (.cmpImmRm rm imm) s

/-- `cmp` immediate with accumulator (41_arith.md R201). -/
def execCmpImmAcc (imm : Imm) (s : State) : Result := aluImmAcc .cmp imm s

end Sys2Proof.Machine
end

