-- ==== Sys2Proof/Machine/Branch.lean ====
section
/-! DEFINITION. The conditional jumps, the loops and jcxz (42_branch.md). Each meaning runs after the ip
advance, so a displacement counts from IP0 + 2 (R210). The fifteen unwired mnemonics are Unimplemented
(R211): under `UNIMPL_POLICY` = NoOp they change nothing. -/

namespace Sys2Proof.Machine

/-- `jo`, unwired (42_branch.md R212). -/
def execJo (rel : Byte) (s : State) : Result := unimplemented (.jo rel) s

/-- `jno`, unwired (42_branch.md R213). -/
def execJno (rel : Byte) (s : State) : Result := unimplemented (.jno rel) s

/-- `jb`: branches if CF = 1 (42_branch.md R214). -/
def execJb (rel : Byte) (s : State) : Result := .next (s.branchIf s.flags.CF rel)

/-- `jnb`, unwired (42_branch.md R215). -/
def execJnb (rel : Byte) (s : State) : Result := unimplemented (.jnb rel) s

/-- `je`: branches if ZF = 1 (42_branch.md R216). -/
def execJe (rel : Byte) (s : State) : Result := .next (s.branchIf s.flags.ZF rel)

/-- `jne`: branches if ZF = 0 (42_branch.md R217). -/
def execJne (rel : Byte) (s : State) : Result := .next (s.branchIf (!s.flags.ZF) rel)

/-- `jbe`, unwired (42_branch.md R218). -/
def execJbe (rel : Byte) (s : State) : Result := unimplemented (.jbe rel) s

/-- `ja`, unwired (42_branch.md R219). -/
def execJa (rel : Byte) (s : State) : Result := unimplemented (.ja rel) s

/-- `js`, unwired (42_branch.md R220). -/
def execJs (rel : Byte) (s : State) : Result := unimplemented (.js rel) s

/-- `jns`, unwired (42_branch.md R221). -/
def execJns (rel : Byte) (s : State) : Result := unimplemented (.jns rel) s

/-- `jp`: branches if PF = 1 (42_branch.md R222). -/
def execJp (rel : Byte) (s : State) : Result := .next (s.branchIf s.flags.PF rel)

/-- `jnp`, unwired (42_branch.md R223). -/
def execJnp (rel : Byte) (s : State) : Result := unimplemented (.jnp rel) s

/-- `jl`, unwired (42_branch.md R224). -/
def execJl (rel : Byte) (s : State) : Result := unimplemented (.jl rel) s

/-- `jnl`, unwired (42_branch.md R225). -/
def execJnl (rel : Byte) (s : State) : Result := unimplemented (.jnl rel) s

/-- `jle`, unwired (42_branch.md R226). -/
def execJle (rel : Byte) (s : State) : Result := unimplemented (.jle rel) s

/-- `jg`, unwired (42_branch.md R227). -/
def execJg (rel : Byte) (s : State) : Result := unimplemented (.jg rel) s

/-- `loopnz`: decrements cx modulo 2^16, then branches if the decremented cx is not 0 and ZF = 0
(42_branch.md R228). -/
def execLoopnz (rel : Byte) (s : State) : Result :=
  let cx := s.getReg .cx - 1
  .next ((s.setReg .cx cx).branchIf (cx != 0 && !s.flags.ZF) rel)

/-- `loopz`, unwired; cx is not decremented (42_branch.md R229). -/
def execLoopz (rel : Byte) (s : State) : Result := unimplemented (.loopz rel) s

/-- `loop`, unwired; cx is not decremented (42_branch.md R230). -/
def execLoop (rel : Byte) (s : State) : Result := unimplemented (.loop rel) s

/-- `jcxz`, unwired (42_branch.md R231). -/
def execJcxz (rel : Byte) (s : State) : Result := unimplemented (.jcxz rel) s

end Sys2Proof.Machine
end

