-- ==== Sys2Proof/Machine/Mov.lean ====
section
/-! DEFINITION. The mov family (40_mov.md). Each meaning runs after the ip advance (10_state.md R40). -/

namespace Sys2Proof.Machine

/-- The copy every mov makes: read the source, write the destination (40_mov.md R172). -/
def move (w : Width) (dst : Loc) (src : Operand) (s : State) : State :=
  s.writeLoc w dst (s.readOp w src)

/-- `mov` register/memory to/from register (40_mov.md R172). -/
def execMovRmReg (d : Dir) (w : Width) (reg : BitVec 3) (rm : Rm) (s : State) : Result :=
  .next (move w (rmRegDst d w reg rm) (.loc (rmRegSrc d w reg rm)) s)

/-- `mov` immediate to register/memory (40_mov.md R173). -/
def execMovImmRm (rm : Rm) (imm : Imm) (s : State) : Result :=
  .next (move imm.width (rm.loc imm.width) (.imm imm) s)

/-- `mov` immediate to register (40_mov.md R174). -/
def execMovImmReg (reg : BitVec 3) (imm : Imm) (s : State) : Result :=
  .next (move imm.width (regLoc imm.width reg) (.imm imm) s)

/-- `mov` memory to accumulator (40_mov.md R175). -/
def execMovMemAcc (w : Width) (addr : Word) (s : State) : Result :=
  .next (move w (accLoc w) (.loc (.direct addr)) s)

/-- `mov` accumulator to memory (40_mov.md R176). -/
def execMovAccMem (w : Width) (addr : Word) (s : State) : Result :=
  .next (move w (.direct addr) (.loc (accLoc w)) s)

/-- `mov` register/memory to segment register: register-direct only (40_mov.md R177). -/
def execMovRmSreg (g : SegReg) (rm : Rm) (s : State) : Result :=
  if isRegister rm then .next (move .word (.sreg g) (.loc (rm.loc .word)) s)
  else unimplemented (.movRmSreg g rm) s

/-- `mov` segment register to register/memory: register-direct only (40_mov.md R178). -/
def execMovSregRm (g : SegReg) (rm : Rm) (s : State) : Result :=
  if isRegister rm then .next (move .word (rm.loc .word) (.loc (.sreg g)) s)
  else unimplemented (.movSregRm g rm) s

end Sys2Proof.Machine
end

