-- ==== Sys2Proof/Machine/Dispatch.lean ====
section
/-! DEFINITION. Execute (10_state.md R49): the dispatch from an instruction to its meaning. It runs on the
state after the latch update and the ip advance. -/

namespace Sys2Proof.Machine

def exec (i : Instr) (s : State) : Host.Outcome State Fault Refusal :=
  match i with
  -- the mov family (40_mov.md)
  | .movRmReg d w reg rm => Sys2Proof.Machine.execMovRmReg d w reg rm s
  | .movImmRm rm imm => Sys2Proof.Machine.execMovImmRm rm imm s
  | .movImmReg reg imm => Sys2Proof.Machine.execMovImmReg reg imm s
  | .movMemAcc w addr => Sys2Proof.Machine.execMovMemAcc w addr s
  | .movAccMem w addr => Sys2Proof.Machine.execMovAccMem w addr s
  | .movRmSreg g rm => Sys2Proof.Machine.execMovRmSreg g rm s
  | .movSregRm g rm => Sys2Proof.Machine.execMovSregRm g rm s
  -- the arithmetic family (41_arith.md)
  | .addRmReg d w reg rm => Sys2Proof.Machine.execAddRmReg d w reg rm s
  | .addImmRm rm imm => Sys2Proof.Machine.execAddImmRm rm imm s
  | .addImmAcc imm => Sys2Proof.Machine.execAddImmAcc imm s
  | .subRmReg d w reg rm => Sys2Proof.Machine.execSubRmReg d w reg rm s
  | .subImmRm rm imm => Sys2Proof.Machine.execSubImmRm rm imm s
  | .subImmAcc imm => Sys2Proof.Machine.execSubImmAcc imm s
  | .cmpRmReg d w reg rm => Sys2Proof.Machine.execCmpRmReg d w reg rm s
  | .cmpImmRm rm imm => Sys2Proof.Machine.execCmpImmRm rm imm s
  | .cmpImmAcc imm => Sys2Proof.Machine.execCmpImmAcc imm s
  -- conditional jumps and loops (42_branch.md)
  | .jo rel => Sys2Proof.Machine.execJo rel s
  | .jno rel => Sys2Proof.Machine.execJno rel s
  | .jb rel => Sys2Proof.Machine.execJb rel s
  | .jnb rel => Sys2Proof.Machine.execJnb rel s
  | .je rel => Sys2Proof.Machine.execJe rel s
  | .jne rel => Sys2Proof.Machine.execJne rel s
  | .jbe rel => Sys2Proof.Machine.execJbe rel s
  | .ja rel => Sys2Proof.Machine.execJa rel s
  | .js rel => Sys2Proof.Machine.execJs rel s
  | .jns rel => Sys2Proof.Machine.execJns rel s
  | .jp rel => Sys2Proof.Machine.execJp rel s
  | .jnp rel => Sys2Proof.Machine.execJnp rel s
  | .jl rel => Sys2Proof.Machine.execJl rel s
  | .jnl rel => Sys2Proof.Machine.execJnl rel s
  | .jle rel => Sys2Proof.Machine.execJle rel s
  | .jg rel => Sys2Proof.Machine.execJg rel s
  | .loopnz rel => Sys2Proof.Machine.execLoopnz rel s
  | .loopz rel => Sys2Proof.Machine.execLoopz rel s
  | .loop rel => Sys2Proof.Machine.execLoop rel s
  | .jcxz rel => Sys2Proof.Machine.execJcxz rel s

end Sys2Proof.Machine
end

