-- ==== Sys2Proof/Machine/Step.lean ====
section
/-! DEFINITION. One step of the instruction cycle (10_state.md R49), and the host's way to place an
instruction where the step fetches. -/

namespace Sys2Proof.Machine

/-- One step (10_state.md R49): a run that has ended stays as it is (log entry 2); a decode fault ends
the run with no state change (60_exceptions.md R267); otherwise the latch is updated, ip advances and
the instruction executes. -/
def step (s : State) : Host.Outcome State Fault Refusal :=
  if s.halted then .next s
  else
    match decode s.params s.latch s.fetch with
    | .error e => raise s.ip e
    | .ok d    => exec d.instr (s.advance d)

/-- The state with an instruction of spec/opcode_table.json's numbering stored where the step fetches:
six code bytes at ip (log entry 1). Where CODE is shorter it grows, with zero bytes up to ip. -/
def State.withFetchWord (s : State) (nbits w : Nat) : State :=
  let at_ := s.ip.toNat
  let before := s.code.take at_
  { s with
    code := before ++ List.replicate (at_ - before.length) 0 ++ tableBytes nbits w
      ++ s.code.drop (at_ + 6) }

end Sys2Proof.Machine
end

