-- ==== Sys2Proof/Machine/Launch.lean ====
section
/-! DEFINITION. The start of a run (70_reset_and_hazards.md R290, R291). -/

namespace Sys2Proof.Machine

/-- The OPEN initial values `INIT_GPR`, `INIT_SREG` and `INIT_FLAGS` (00_scope.md R13): the launch takes
them as an argument. -/
structure Init where
  gpr   : Gpr
  sreg  : Sregs
  flags : Flags
  deriving DecidableEq, Repr

/-- The largest N that a launch admits (10_state.md R50). -/
def maxCodeLen : Nat := 65535

/-- The state from which a run with this code starts (70_reset_and_hazards.md R291). -/
def started (p : Params) (init : Init) (code : List Byte) : State where
  gpr    := init.gpr
  sreg   := init.sreg
  ip     := 0
  flags  := init.flags
  mem    := []
  code   := code
  latch  := none
  params := p

/-- `Start(input)` (70_reset_and_hazards.md R291): no input raises InputUnavailable (60_exceptions.md
R264), and an input of more than 65,535 bytes is refused. -/
def launch (p : Params) (init : Init) (input : Option (List Byte)) : Result :=
  match input with
  | none => .fault .inputUnavailable
  | some code =>
    if code.length > maxCodeLen then .refused (.inputTooLong code.length)
    else .next (started p init code)

end Sys2Proof.Machine
end

