-- ==== Sys2Proof/Machine/Observe.lean ====
section
/-! DEFINITION. What the block outputs (60_exceptions.md R274): the trace record of a step
(10_state.md R52), the dump at a normal end and the end of a run (70_reset_and_hazards.md R297, R298).
They are functions of the state, since no rule reads them back. -/

namespace Sys2Proof.Machine

/-- The record of a decoded instruction (30_encoding.md R101, R156) at its IP0, with the raw opcode byte and the
variant's own fields. The renderer that makes text of it is no part of the hardware (00_scope.md R10). -/
structure TraceRecord where
  ip0         : Word
  opcode      : Byte
  fields      : Fields
  kind        : Kind
  mnemonic    : Mnemonic
  dst         : Option Operand
  src         : Operand
  len         : Nat
  dispPresent : Bool
  deriving DecidableEq, Repr

/-- The trace record that the step from s emits: one for each successful decode, none at a halt or on a
fault (10_state.md R52, 60_exceptions.md R267). -/
def traceRecord (s : State) : Option TraceRecord :=
  if s.halted then none
  else
    match decode s.params s.latch s.fetch with
    | .error _ => none
    | .ok d =>
      some { ip0 := s.ip, opcode := d.opcode, fields := d.fields, kind := d.instr.kind,
             mnemonic := d.instr.mnemonic, dst := d.instr.dst, src := d.instr.src, len := d.len,
             dispPresent := d.instr.dispPresent }

/-- The names of the 13 register slots (10_state.md R31). -/
inductive Slot where
  | ax | bx | cx | dx | sp | bp | si | di | es | cs | ss | ds | ip
  deriving DecidableEq, Repr

/-- The names of the nine flags (10_state.md R43). -/
inductive FlagName where
  | OF | DF | IF | TF | SF | ZF | AF | PF | CF
  deriving DecidableEq, Repr

/-- The dump: the slots with their values and the flags that are set (70_reset_and_hazards.md R297). -/
structure Dump where
  slots : List (Slot × Word)
  flags : List FlagName
  deriving DecidableEq, Repr

/-- The 13 slots in slot order (10_state.md R31). -/
def State.slots (s : State) : List (Slot × Word) :=
  [(.ax, s.gpr.ax), (.bx, s.gpr.bx), (.cx, s.gpr.cx), (.dx, s.gpr.dx), (.sp, s.gpr.sp),
   (.bp, s.gpr.bp), (.si, s.gpr.si), (.di, s.gpr.di), (.es, s.sreg.es), (.cs, s.sreg.cs),
   (.ss, s.sreg.ss), (.ds, s.sreg.ds), (.ip, s.ip)]

/-- The flags in dump order with their values (10_state.md R43). -/
def Flags.named (f : Flags) : List (FlagName × Bool) :=
  [(.OF, f.OF), (.DF, f.DF), (.IF, f.IF), (.TF, f.TF), (.SF, f.SF), (.ZF, f.ZF), (.AF, f.AF),
   (.PF, f.PF), (.CF, f.CF)]

/-- `Dump(state)` (70_reset_and_hazards.md R297). -/
def State.dump (s : State) : Dump where
  slots := s.slots
  flags := (s.flags.named.filter (fun x => x.2)).map (fun x => x.1)

/-- The three ends of a run (70_reset_and_hazards.md R298), each with its final state. -/
inductive RunEnd where
  | halt    (final : State) (dump : Dump)
  | fault   (final : State) (reason : Fault)
  | refused (final : State) (reason : Refusal)
  deriving DecidableEq, Repr

/-- How the run ends at s, if it does (70_reset_and_hazards.md R298): a halt outputs the dump; a fault
leaves the state as before the faulting instruction and outputs none; a refusal leaves the latch
update and the ip advance in place (log entry 11). -/
def runEnd (s : State) : Option RunEnd :=
  if s.halted then some (.halt s s.dump)
  else
    match decode s.params s.latch s.fetch, step s with
    | _, .fault r      => some (.fault s r)
    | .ok d, .refused r => some (.refused (s.advance d) r)
    | _, _ => none

end Sys2Proof.Machine
end

