-- ==== Sys2Proof/Safety.lean ====
section
/-! DEFINITION. The terms that claims use: the machine's invariant, what a safe run is, and frames. -/

namespace Sys2Proof.Machine

/-- The (kind, mnemonic) pairs that a decoded instruction can have (30_encoding.md R133). -/
def admitted (k : Kind) (m : Mnemonic) : Bool :=
  match k with
  | .jcc => !m.isData
  | .immReg | .immRm | .rmReg => m.isData
  | .acc | .rmSreg => m = .mov

/-- The latch is None or holds a pair that a decoded instruction can have (10_state.md R46). -/
def latchOk : Option (Kind × Mnemonic) → Bool
  | none        => true
  | some (k, m) => admitted k m

/-- The invariant that every step keeps: memory is in its canonical form, CODE is no longer than a
launch admits (10_state.md R50), and the latch holds what some decode left there (R47). -/
structure Inv (s : State) : Prop where
  memWf    : s.mem.wf = true
  codeFits : s.codeLen ≤ maxCodeLen
  latchOk  : latchOk s.latch = true

/-- A run of k steps is safe if it meets neither a fault nor a refusal. -/
def SafeFor (k : Nat) (s : State) : Prop := ∃ t : State, Host.Core.run Sys2Proof.core k s = .next t

/-! ### Frames -/

/-- The addresses of the bytes that an access of width w at a touches (20_memory.md R81). -/
def accessBytes (w : Width) (a : Word) : List Nat :=
  match w with
  | .byte => [a.toNat]
  | .word => [a.toNat, (a + 1).toNat]

/-- The addresses of the bytes of a location, by the effective address that WriteOp uses; none for a
register. -/
def State.locBytes (s : State) (w : Width) : Loc → List Nat
  | .mem b d  => accessBytes w (s.ea b d)
  | .direct a => accessBytes w a
  | .reg8 _ | .reg16 _ | .sreg _ => []

/-- The general register that a location lies in. -/
def locRegs : Loc → List Reg16
  | .reg8 n  => [byteSlot n]
  | .reg16 n => [wordReg n]
  | .sreg _ | .mem _ _ | .direct _ => []

/-- The segment register that a location is. -/
def locSegs : Loc → List SegReg
  | .sreg g => [g]
  | .reg8 _ | .reg16 _ | .mem _ _ | .direct _ => []

/-- The half of a word register that a byte register is not. -/
def otherHalf : Half → Half
  | .low  => .high
  | .high => .low

/-- Writing a byte register keeps the other half of its slot (10_state.md R35). -/
def OtherHalfKept (s t : State) : Loc → Prop
  | .reg8 n =>
    halfOf (otherHalf (byteHalf n)) (t.getReg (byteSlot n)) = halfOf (otherHalf (byteHalf n)) (s.getReg (byteSlot n))
  | .reg16 _ | .sreg _ | .mem _ _ | .direct _ => True

/-- From s to t nothing changes but the listed general registers, segment registers and bytes of memory,
the flags and ip. The code buffer, the latch and the parameters are kept too. -/
structure Frame (s t : State) (regs : List Reg16) (segs : List SegReg) (addrs : List Nat) : Prop where
  regs   : ∀ r, r ∉ regs → t.getReg r = s.getReg r
  segs   : ∀ g, g ∉ segs → t.getSeg g = s.getSeg g
  mem    : ∀ a, a ∉ addrs → t.mem.read a = s.mem.read a
  code   : t.code = s.code
  latch  : t.latch = s.latch
  params : t.params = s.params

/-- From s to t only the location l changes (and, of a byte register, only its half). -/
structure WritesOnly (s t : State) (w : Width) (l : Loc) : Prop where
  frame : Frame s t (locRegs l) (locSegs l) (s.locBytes w l)
  half  : OtherHalfKept s t l

/-! ### Instructions by their shape -/

/-- The ALU operation, width, destination and source of an add, sub or cmp that executes: the register
forms and the accumulator forms (41_arith.md R190). -/
def executedAlu : Instr → Option (AluOp × Width × Loc × Operand)
  | .addRmReg d w reg (.reg n) => some (.add, w, rmRegDst d w reg (.reg n), .loc (rmRegSrc d w reg (.reg n)))
  | .subRmReg d w reg (.reg n) => some (.sub, w, rmRegDst d w reg (.reg n), .loc (rmRegSrc d w reg (.reg n)))
  | .cmpRmReg d w reg (.reg n) => some (.cmp, w, rmRegDst d w reg (.reg n), .loc (rmRegSrc d w reg (.reg n)))
  | .addImmRm (.reg n) imm => some (.add, imm.width, regLoc imm.width n, .imm imm.value)
  | .subImmRm (.reg n) imm => some (.sub, imm.width, regLoc imm.width n, .imm imm.value)
  | .cmpImmRm (.reg n) imm => some (.cmp, imm.width, regLoc imm.width n, .imm imm.value)
  | .addImmAcc imm => some (.add, imm.width, accLoc imm.width, .imm imm)
  | .subImmAcc imm => some (.sub, imm.width, accLoc imm.width, .imm imm)
  | .cmpImmAcc imm => some (.cmp, imm.width, accLoc imm.width, .imm imm)
  | _ => none

/-- An executed add, sub or cmp with its operation, width, destination and the pattern of its source. -/
structure AluRow where
  instr : Instr
  op    : AluOp
  width : Width
  dst   : Loc
  src   : Nat
  deriving DecidableEq, Repr

/-- The nine executed forms of one operation, from its three constructors: register with register by D and
W (30_encoding.md R150), immediate to register by W and S (R128, R151) and immediate to accumulator by W
(R152). -/
def aluRowsOf (op : AluOp) (rmReg : Dir → Width → BitVec 3 → Rm → Instr) (immRm : Rm → AluImm → Instr)
    (immAcc : Imm → Instr) (s : State) (reg n : BitVec 3) (b : Byte) (v : Word) : List AluRow :=
  [⟨rmReg .rmDst .byte reg (.reg n), op, .byte, .reg8 n, (s.r8 reg).toNat⟩,
   ⟨rmReg .rmDst .word reg (.reg n), op, .word, .reg16 n, (s.r16 reg).toNat⟩,
   ⟨rmReg .regDst .byte reg (.reg n), op, .byte, .reg8 reg, (s.r8 n).toNat⟩,
   ⟨rmReg .regDst .word reg (.reg n), op, .word, .reg16 reg, (s.r16 n).toNat⟩,
   ⟨immRm (.reg n) (.byte b), op, .byte, .reg8 n, b.toNat⟩,
   ⟨immRm (.reg n) (.word v), op, .word, .reg16 n, v.toNat⟩,
   ⟨immRm (.reg n) (.sextByte b), op, .word, .reg16 n, if b.toNat < 128 then b.toNat else b.toNat + 65280⟩,
   ⟨immAcc (.byte b), op, .byte, .reg8 0, b.toNat⟩,
   ⟨immAcc (.word v), op, .word, .reg16 0, v.toNat⟩]

/-- The executed forms of add, sub and cmp with the operands that each reads. -/
def aluRows (s : State) (reg n : BitVec 3) (b : Byte) (v : Word) : List AluRow :=
  aluRowsOf .add .addRmReg .addImmRm .addImmAcc s reg n b v ++
  aluRowsOf .sub .subRmReg .subImmRm .subImmAcc s reg n b v ++
  aluRowsOf .cmp .cmpRmReg .cmpImmRm .cmpImmAcc s reg n b v

/-- The forms that 41_arith.md R190, 40_mov.md R177 and R178 and 42_branch.md R211 leave Unimplemented. -/
def isUnimplemented : Instr → Bool
  | .movRmSreg _ rm | .movSregRm _ rm => !isRegister rm
  | .addRmReg _ _ _ rm | .subRmReg _ _ _ rm | .cmpRmReg _ _ _ rm => !isRegister rm
  | .addImmRm rm _ | .subImmRm rm _ | .cmpImmRm rm _ => !isRegister rm
  | .jo _ | .jno _ | .jnb _ | .jbe _ | .ja _ | .js _ | .jns _ | .jnp _ | .jl _ | .jnl _ | .jle _
  | .jg _ | .loopz _ | .loop _ | .jcxz _ => true
  | .movRmReg _ _ _ _ | .movImmRm _ _ | .movImmReg _ _ | .movMemAcc _ _ | .movAccMem _ _
  | .addImmAcc _ | .subImmAcc _ | .cmpImmAcc _ | .jb _ | .je _ | .jne _ | .jp _ | .loopnz _ => false

/-- The 70 first bytes that the classifier maps (30_encoding.md R158). -/
def isMapped (b0 : Byte) : Bool :=
  let n := b0.toNat
  n ≤ 0x05 ∨ (0x28 ≤ n ∧ n ≤ 0x2D) ∨ (0x38 ≤ n ∧ n ≤ 0x3D) ∨ (0x70 ≤ n ∧ n ≤ 0x7F)
    ∨ (0x80 ≤ n ∧ n ≤ 0x83) ∨ (0x88 ≤ n ∧ n ≤ 0x8C) ∨ n = 0x8E ∨ (0xA0 ≤ n ∧ n ≤ 0xA3)
    ∨ (0xB0 ≤ n ∧ n ≤ 0xBF) ∨ n = 0xC6 ∨ n = 0xC7 ∨ (0xE0 ≤ n ∧ n ≤ 0xE3)

/-- The arithmetic group 0x80 to 0x83 (30_encoding.md R108). -/
def isGroup (b0 : Byte) : Bool := 0x80 ≤ b0.toNat ∧ b0.toNat ≤ 0x83

/-- The five ByteTwo codes that select no mnemonic (30_encoding.md R108, R113). -/
def isUnmappedExt (b1 : Byte) : Bool :=
  let e := (b1.extractLsb' 3 3).toNat
  e = 1 ∨ e = 2 ∨ e = 3 ∨ e = 4 ∨ e = 6

/-- Code bytes with the ignored bits of 30_encoding.md R159 at 0, and 0x82 as 0x80. -/
def withoutIgnoredBits : List Byte → List Byte
  | b0 :: b1 :: rest =>
    if b0 = 0xC6 ∨ b0 = 0xC7 then b0 :: (b1 &&& 0b11000111) :: rest
    else if b0 = 0x8C ∨ b0 = 0x8E then b0 :: (b1 &&& 0b11011111) :: rest
    else if b0 = 0x82 then 0x80 :: b1 :: rest
    else b0 :: b1 :: rest
  | bs => bs

/-- The code of a chunk list laid end to end, and the offset of its k-th chunk. -/
def chunkOffset (chunks : List (List Byte)) (k : Nat) : Nat := ((chunks.take k).map List.length).sum

/-- The number of bits of a width. -/
def widthBits : Width → Nat
  | .byte => 8
  | .word => 16

end Sys2Proof.Machine
end

