-- ==== Sys2Proof/Certificates/Slice0/Obligations.lean ====
section
/-! DEFINITION. The statements about the model, for the provers. Each docstring names the rules of spec/
that the statement formalises. -/

open Sys2Proof Sys2Proof.Machine

/-! ### The start of a run, the cycle and its ends -/

/-- The start sequence (70_reset_and_hazards.md R291) and InputUnavailable (60_exceptions.md R264): a
missing input faults before any decode, an input over 65,535 bytes is refused, any other is loaded with
ip 0, memory all zero, the latch None and the OPEN registers and flags as the launch gives them. -/
def Obligations.StartSequenceLoadsTheInput : Prop :=
  ∀ (p : Params) (init : Init),
    launch p init none = .fault .inputUnavailable ∧
    ∀ code : List Byte,
      (65535 < code.length → launch p init (some code) = .refused (.inputTooLong code.length)) ∧
      (code.length ≤ 65535 →
        ∃ t, launch p init (some code) = .next t ∧ t.code = code ∧ (∀ a, t.mem.read a = 0) ∧
          t.gpr = init.gpr ∧ t.sreg = init.sreg ∧ t.flags = init.flags ∧ t.ip = 0 ∧ t.latch = none ∧
          t.params = p)

/-- The state after reset is the launch of an empty input with the default parameters and with the
reference values of the OPEN registers and flags, which are the spec's choice and the model's (log
entries 3, 4 and 7). -/
def Obligations.ResetIsTheReferenceStart : Prop :=
  launch .default ⟨.zero, .zero, .clear⟩ (some []) = .next State.reset ∧
  State.reset.ip = 0 ∧ State.reset.latch = none ∧ (∀ a, State.reset.mem.read a = 0) ∧
  (∀ r, State.reset.getReg r = 0) ∧ (∀ g, State.reset.getSeg g = 0) ∧
  State.reset.flags = ⟨false, false, false, false, false, false, false, false, false⟩

/-- The invariant holds at reset and in every state that a launch makes (10_state.md R46, R50; 20_memory.md
R71). What State.reset holds and the canonical form of memory are the model's choices (log entries 3, 4 and
9). -/
def Obligations.LaunchMeetsTheInvariant : Prop :=
  Inv State.reset ∧
  ∀ (p : Params) (init : Init) (input : Option (List Byte)) (t : State),
    launch p init input = .next t → Inv t

/-- Every step keeps the invariant: canonical memory, a code buffer of at most 65,535 bytes, and a latch
that some decode could have left (20_memory.md R71, R74; 10_state.md R46, R47, R50). -/
def Obligations.StepKeepsTheInvariant : Prop :=
  ∀ s t : State, Inv s → step s = .next t → Inv t

/-- A step runs the decoded instruction (10_state.md R41, R47, R49): where the bytes at ip decode, the step
is exec of the instruction on the state with the latch set and ip advanced by the length. -/
def Obligations.StepRunsTheDecodedInstruction : Prop :=
  ∀ (s : State) (d : Decoded), s.halted = false → decode s.params s.latch s.fetch = .ok d →
    step s = exec d.instr { s with
      latch := some (d.instr.kind, d.instr.mnemonic)
      ip := s.ip + BitVec.ofNat 16 d.len }

/-- The normal end (10_state.md R50): at ip ≥ N the run has ended with the dump and no trace record. That a
step of an ended run answers the same state is the model's choice (log entry 2). -/
def Obligations.EndedRunStaysAsItIs : Prop :=
  ∀ s : State, s.code.length ≤ s.ip.toNat →
    step s = .next s ∧ runEnd s = some (.halt s s.dump) ∧ traceRecord s = none

/-- The three ends of a run (70_reset_and_hazards.md R298), each with its final state; a refusal only under
`UNIMPL_POLICY` = Refuse. That the final state of a refusal has the latch set and ip advanced is the model's
deduction (log entry 11). -/
def Obligations.RunEndsInThreeWays : Prop :=
  ∀ s : State,
    (s.code.length ≤ s.ip.toNat ↔ runEnd s = some (.halt s s.dump)) ∧
    (∀ r, step s = .fault r ↔ runEnd s = some (.fault s r)) ∧
    (∀ r, step s = .refused r ↔ ∃ final, runEnd s = some (.refused final r)) ∧
    (∀ r final, runEnd s = some (.refused final r) →
      ∃ d, decode s.params s.latch s.fetch = .ok d ∧
        final = { s with
          latch := some (d.instr.kind, d.instr.mnemonic)
          ip := s.ip + BitVec.ofNat 16 d.len }) ∧
    (∀ r, step s = .refused r → s.params.unimpl = .refuse) ∧
    (runEnd s = none ↔ s.ip.toNat < s.code.length ∧ ∃ t, step s = .next t)

/-- No execution-time faults (60_exceptions.md R265): no instruction faults when it executes; every fault
of a step is one that the decoder raised at ip, before any state changed. -/
def Obligations.FaultsComeFromTheDecoder : Prop :=
  (∀ (i : Instr) (s : State) (r : Fault), exec i s ≠ .fault r) ∧
  ∀ (s : State) (r : Fault), step s = .fault r ↔
    s.ip.toNat < s.code.length ∧
      ∃ e, decode s.params s.latch s.fetch = .error e ∧ raise s.ip e = .fault r

/-- The priority of the faults (60_exceptions.md R266; 30_encoding.md R157): InputUnavailable at launch only,
then, of one decode, fewer than 2 bytes, an unmapped opcode, a DecodeError, fewer bytes than needed. -/
def Obligations.DecodeFaultPriority : Prop :=
  (∀ (p : Params) (init : Init) (input : Option (List Byte)) (r : Fault),
    launch p init input = .fault r ↔ input = none ∧ r = .inputUnavailable) ∧
  (∀ s : State, step s ≠ .fault .inputUnavailable) ∧
  ∀ (p : Params) (latch : Option (Kind × Mnemonic)) (bs : List Byte),
    (bs.length < 2 → decode p latch bs = .error (.truncatedInstruction bs.length 2)) ∧
    ∀ (b0 b1 : Byte) (rest : List Byte), bs = b0 :: b1 :: rest →
      (∀ e, classify p latch b0 b1 = .error e →
        decode p latch bs = .error e ∧ ∃ b, e = .unmappedOpcode b0 b) ∧
      ∀ k m, classify p latch b0 b1 = .ok (k, m) →
        (lengthCalc m (extractFields k m b0 b1) = none →
          decode p latch bs = .error (.decodeError b0 b1 k m)) ∧
        ∀ len, lengthCalc m (extractFields k m b0 b1) = some len →
          bs.length < bytesNeeded p (extractFields k m b0 b1) len →
          decode p latch bs =
            .error (.truncatedInstruction bs.length (bytesNeeded p (extractFields k m b0 b1) len))

/-- Truncation (30_encoding.md R157, 60_exceptions.md R263): a step at an instruction of which CODE holds
only the first k bytes raises TruncatedInstruction, whatever the instruction. -/
def Obligations.CutInstructionFaults : Prop :=
  ∀ (s : State) (i : Instr) (k : Nat), i.wf s.params = true → 0 < k → k < i.bytesRead s.params →
    s.fetch = (encode s.params i).take k →
    step s = .fault (.truncatedInstruction s.ip k (if k < 2 then 2 else i.bytesRead s.params))

/-- One trace record for each successful decode and none on a fault or at the end (10_state.md R52,
60_exceptions.md R267). -/
def Obligations.TraceRecordPerDecode : Prop :=
  ∀ s : State, s.ip.toNat < s.code.length →
    (∀ d, decode s.params s.latch s.fetch = .ok d →
      traceRecord s = some ⟨s.ip, d.opcode, d.fields, d.instr.kind, d.instr.mnemonic, d.instr.dst, d.instr.src,
        d.len, d.instr.dispPresent⟩) ∧
    (∀ r, step s = .fault r → traceRecord s = none)

/-- The dump (70_reset_and_hazards.md R297), output at a normal end: the 13 slots in slot order, each with its value, then the
flags that are set, in dump order. -/
def Obligations.DumpListsSlotsAndSetFlags : Prop :=
  ∀ s : State,
    (s.code.length ≤ s.ip.toNat → runEnd s = some (.halt s s.dump)) ∧
    s.dump.slots = [(.ax, s.getReg .ax), (.bx, s.getReg .bx), (.cx, s.getReg .cx), (.dx, s.getReg .dx),
      (.sp, s.getReg .sp), (.bp, s.getReg .bp), (.si, s.getReg .si), (.di, s.getReg .di),
      (.es, s.getSeg .es), (.cs, s.getSeg .cs), (.ss, s.getSeg .ss), (.ds, s.getSeg .ds), (.ip, s.ip)] ∧
    s.dump.flags.Sublist [.OF, .DF, .IF, .TF, .SF, .ZF, .AF, .PF, .CF] ∧
    (.OF ∈ s.dump.flags ↔ s.flags.OF = true) ∧ (.DF ∈ s.dump.flags ↔ s.flags.DF = true) ∧
    (.IF ∈ s.dump.flags ↔ s.flags.IF = true) ∧ (.TF ∈ s.dump.flags ↔ s.flags.TF = true) ∧
    (.SF ∈ s.dump.flags ↔ s.flags.SF = true) ∧ (.ZF ∈ s.dump.flags ↔ s.flags.ZF = true) ∧
    (.AF ∈ s.dump.flags ↔ s.flags.AF = true) ∧ (.PF ∈ s.dump.flags ↔ s.flags.PF = true) ∧
    (.CF ∈ s.dump.flags ↔ s.flags.CF = true)

/-! ### The decoder -/

/-- Words written out from the spec's encodings (95_test_vectors.md 2.2) decode as it says. -/
def Obligations.SpecWordsDecode : Prop :=
  ∀ x ∈ ([([0x89, 0xD9], .movRmReg .rmDst .word 3 (.reg 1), 2),
    ([0x8A, 0x80, 0x87, 0x13], .movRmReg .regDst .byte 0 (.mem16 .bxSi 0x1387), 4),
    ([0xC7, 0x85, 0x85, 0x03, 0x5B, 0x01], .movImmRm (.mem16 .di 901) (.word 347), 6),
    ([0xB8, 0x05, 0x00], .movImmReg 0 (.word 5), 3),
    ([0xA0, 0x10], .movMemAcc .byte 0x10, 2),
    ([0xA3, 0x02, 0x02], .movAccMem .word 514, 3),
    ([0x8E, 0xD8], .movRmSreg .ds (.reg 0), 2),
    ([0x8C, 0x06, 0x00, 0x01], .movSregRm .es (.direct 256), 4),
    ([0x03, 0xC3], .addRmReg .regDst .word 0 (.reg 3), 2),
    ([0x83, 0xC0, 0xFF], .addImmRm (.reg 0) (.sextByte 0xFF), 3),
    ([0x2C, 0x80], .subImmAcc (.byte 128), 2),
    ([0x83, 0x3E, 0xE2, 0x12, 0x1D], .cmpImmRm (.direct 4834) (.sextByte 29), 5),
    ([0x74, 0xFE], .je 0xFE, 2),
    ([0xE0, 0xF9], .loopnz 0xF9, 2)] : List (List Byte × Instr × Nat)),
    (decode .default none x.1).map (fun d => (d.instr, d.len)) = .ok (x.2.1, x.2.2)

/-- The mapped first bytes and the unmapped ByteTwo codes (30_encoding.md R158). -/
def Obligations.SeventyFirstBytesAreMapped : Prop :=
  (∀ b0 : Byte, (∃ b1 k m, classifyTables b0 b1 = some (k, some m)) ↔ isMapped b0 = true) ∧
  ((List.range 256).filter fun n => isMapped (BitVec.ofNat 8 n)).length = 70 ∧
  ((List.range 256).filter fun n => !isMapped (BitVec.ofNat 8 n)).length = 186 ∧
  ∀ b0 b1 : Byte, (classifyTables b0 b1 = some (.immRm, none) ↔
    isGroup b0 = true ∧ isUnmappedExt b1 = true)

/-- No first byte matches more than one of the four tests, so their order changes no classification
(30_encoding.md R110). -/
def Obligations.ClassifierTestsAreDisjoint : Prop :=
  ∀ b0 b1 : Byte,
    ([testFB b0, testT7 b0, testT6 b0 b1, testT4 b0].countP (fun x => x.isSome)) ≤ 1 ∧
    classifyTables b0 b1 = (testFB b0 <|> testT7 b0 <|> testT6 b0 b1 <|> testT4 b0)

/-- What the two unmapped policies do with an unmapped first byte and with an unmapped ByteTwo code
(30_encoding.md R111, R112, R113). -/
def Obligations.UnmappedBytesFollowThePolicy : Prop :=
  ∀ (s : State) (b0 b1 : Byte) (rest : List Byte), s.fetch = b0 :: b1 :: rest →
    (isMapped b0 = false →
      (s.params.unmapped = .fault ∨ s.latch = none →
        step s = .fault (.unmappedOpcode s.ip b0 none)) ∧
      (∀ k m, s.params.unmapped = .stale → s.latch = some (k, m) →
        decode s.params s.latch s.fetch = decodeAs s.params k m b0 b1 s.fetch)) ∧
    (isGroup b0 = true → isUnmappedExt b1 = true →
      (s.params.unmapped = .fault ∨ s.latch = none →
        step s = .fault (.unmappedOpcode s.ip b0 (some b1))) ∧
      (∀ k m, s.params.unmapped = .stale → s.latch = some (k, m) →
        decode s.params s.latch s.fetch = decodeAs s.params .immRm m b0 b1 s.fetch ∧
        (m ≠ .mov → m ≠ .add → m ≠ .sub → m ≠ .cmp →
          step s = .fault (.decodeError s.ip b0 b1 .immRm m))))

/-- DecodeError is raised for exactly two inputs, the second only under Stale (30_encoding.md R148,
60_exceptions.md R262). -/
def Obligations.DecodeErrorExactly : Prop :=
  ∀ (p : Params) (latch : Option (Kind × Mnemonic)) (b0 b1 : Byte) (rest : List Byte),
    latchOk latch = true →
    (∀ k m, decode p latch (b0 :: b1 :: rest) = .error (.decodeError b0 b1 k m) ↔
      classify p latch b0 b1 = .ok (k, m) ∧
        ((k = .rmSreg ∧ b1.extractLsb' 6 2 = 0b00 ∧ b1.extractLsb' 0 3 ≠ 0b110) ∨
          (k = .immRm ∧ m ≠ .mov ∧ m ≠ .add ∧ m ≠ .sub ∧ m ≠ .cmp))) ∧
    (p.unmapped = .fault → ∀ k m, classify p latch b0 b1 = .ok (k, m) →
      ¬ (k = .immRm ∧ m ≠ .mov ∧ m ≠ .add ∧ m ≠ .sub ∧ m ≠ .cmp))

/-- The length table (30_encoding.md R141 to R147). -/
def Obligations.LengthTable : Prop :=
  (∀ mod rm, baseLen mod rm =
    if mod = 0b11 then 2 else if mod = 0b01 then 3 else if mod = 0b10 then 4
    else if rm = 0b110 then 4 else 2) ∧
  (∀ m d w mod reg rm, (m = .mov ∨ m = .add ∨ m = .sub ∨ m = .cmp) →
    lengthCalc m (.rmReg d w mod reg rm) = some (baseLen mod rm)) ∧
  (∀ m w s mod reg rm, (m = .add ∨ m = .sub ∨ m = .cmp) →
    lengthCalc m (.immRm w s mod reg rm) =
      some (baseLen mod rm + if s = false ∧ w = .word then 2 else 1)) ∧
  (∀ w s mod reg rm, lengthCalc .mov (.immRm w s mod reg rm) =
    some (baseLen mod rm + if w = .word then 2 else 1)) ∧
  (∀ m w reg, (m = .mov ∨ m = .add ∨ m = .sub ∨ m = .cmp) →
    lengthCalc m (.immReg w reg) = some (if w = .word then 3 else 2)) ∧
  (∀ d w, lengthCalc .mov (.acc d w) = some (if w = .word then 3 else 2)) ∧
  (∀ d mod sr rm, lengthCalc .mov (.rmSreg d mod sr rm) =
    if mod = 0b00 ∧ rm ≠ 0b110 then none else some (baseLen mod rm)) ∧
  (∀ m, m ≠ .mov → m ≠ .add → m ≠ .sub → m ≠ .cmp → lengthCalc m .jcc = some 2)

/-- Decode of encode is the instruction, for every well-formed instruction, every operand value, every
parameter, every latch and whatever code follows; the encoder is the model's (log entry 13). -/
def Obligations.DecodeOfEncodeIsTheInstruction : Prop :=
  ∀ (p : Params) (latch : Option (Kind × Mnemonic)) (i : Instr) (rest : List Byte),
    i.wf p = true → ∃ d, decode p latch (encode p i ++ rest) = .ok d ∧ d.instr = i ∧ d.len = i.length

/-- Encoding a decoded instruction gives back the bytes that the decoder read, but for the ignored bits of
30_encoding.md R159: no other bit is dropped, and those have no meaning. That Instr does not keep the ignored
bits is the model's choice (log entry 12), and the encoder is the model's own (log entry 13). An unmapped byte
that Stale decodes by the latch has no encoding of its own: here the classifier's tables know the bytes. -/
def Obligations.OnlyIgnoredBitsAreDropped : Prop :=
  ∀ (p : Params) (latch : Option (Kind × Mnemonic)) (b0 b1 : Byte) (rest : List Byte) (d : Decoded),
    (p.unmapped = .fault ∨ ∃ k m, classifyTables b0 b1 = some (k, some m)) →
    decode p latch (b0 :: b1 :: rest) = .ok d →
    encode p d.instr = (withoutIgnoredBits (b0 :: b1 :: rest)).take (d.instr.bytesRead p) ∧
    ∃ d', decode p latch (withoutIgnoredBits (b0 :: b1 :: rest)) = .ok d' ∧ d'.instr = d.instr ∧ d'.len = d.len

/-- Whatever the decoder answers is a record (30_encoding.md R101, R156) that is well formed, of an admitted
kind and mnemonic, within the code, with the instruction's length and the raw opcode byte b0. Its fields are
the bits of b0 and b1 (R120), and its operands follow from them: the immediate (R128, R129), the address of an
accumulator form (R130), the displacement of a jump (R131) and the roles (R150 to R155). -/
def Obligations.DecodedInstructionsAreWellFormed : Prop :=
  ∀ (p : Params) (latch : Option (Kind × Mnemonic)) (bs : List Byte) (d : Decoded),
    decode p latch bs = .ok d →
    d.instr.wf p = true ∧ admitted d.instr.kind d.instr.mnemonic = true ∧ d.len = d.instr.length ∧
      d.instr.bytesRead p ≤ bs.length ∧
    ∃ b0 b1 rest, bs = b0 :: b1 :: rest ∧ d.opcode = b0 ∧
      match d.fields with
      | .rmReg D w mod reg rm =>
        d.instr.kind = .rmReg ∧ D = b0.getLsbD 1 ∧ w = (if b0.getLsbD 0 then .word else .byte) ∧
        mod.toNat = b1.toNat / 64 ∧ reg.toNat = b1.toNat / 8 % 8 ∧ rm.toNat = b1.toNat % 8 ∧
        let regop : Loc := if w = .word then .reg16 reg else .reg8 reg
        let rmop := (resolveRm mod rm bs).loc w
        d.instr.dst = some (.loc (if D then regop else rmop)) ∧ d.instr.src = .loc (if D then rmop else regop)
      | .immRm w S mod reg rm =>
        d.instr.kind = .immRm ∧ w = (if b0.getLsbD 0 then .word else .byte) ∧
        (S = true ↔ d.instr.mnemonic ≠ .mov ∧ b0.getLsbD 1 = true ∧ w = .word) ∧
        mod.toNat = b1.toNat / 64 ∧ reg.toNat = b1.toNat / 8 % 8 ∧ rm.toNat = b1.toNat % 8 ∧
        d.instr.dst = some (.loc ((resolveRm mod rm bs).loc w)) ∧
        let imm0 := byteAt bs (2 + ndisp mod rm)
        let imm1 := byteAt bs (3 + ndisp mod rm)
        d.instr.src = .imm (if w = .byte then .byte imm0
          else if S then .word (BitVec.ofInt 16 imm0.toInt)
          else .word (BitVec.ofNat 16 (imm1.toNat * 256 + imm0.toNat)))
      | .immReg w reg =>
        d.instr.kind = .immReg ∧
        w = (if b0.getLsbD (if d.instr.mnemonic = .mov then 3 else 0) then .word else .byte) ∧
        reg.toNat = (if d.instr.mnemonic = .mov then b0.toNat % 8 else 0) ∧
        d.instr.dst = some (.loc (if w = .word then .reg16 reg else .reg8 reg)) ∧
        d.instr.src = .imm (if w = .byte then .byte b1
          else .word (BitVec.ofNat 16 ((byteAt bs 2).toNat * 256 + b1.toNat)))
      | .acc D w =>
        d.instr.kind = .acc ∧ D = b0.getLsbD 1 ∧ w = (if b0.getLsbD 0 then .word else .byte) ∧
        let acc : Loc := if w = .word then .reg16 0 else .reg8 0
        let mem : Loc := .direct (BitVec.ofNat 16 (if w = .byte ∧ p.acc8 = .lo8 then b1.toNat
          else (byteAt bs 2).toNat * 256 + b1.toNat))
        d.instr.dst = some (.loc (if D then mem else acc)) ∧ d.instr.src = .loc (if D then acc else mem)
      | .rmSreg D mod sr rm =>
        d.instr.kind = .rmSreg ∧ D = b0.getLsbD 1 ∧
        mod.toNat = b1.toNat / 64 ∧ sr.toNat = b1.toNat / 8 % 4 ∧ rm.toNat = b1.toNat % 8 ∧
        let sreg : Loc := .sreg (SegReg.ofCode sr)
        let rmop := (resolveRm mod rm bs).loc .word
        d.instr.dst = some (.loc (if D then sreg else rmop)) ∧ d.instr.src = .loc (if D then rmop else sreg)
      | .jcc => d.instr.kind = .jcc ∧ d.instr.dst = none ∧ d.instr.src = .rel8 b1

/-- The fetch window (00_scope.md R14): instructions are 2 to 6 bytes long, both are attained, and the
decoder reads nothing beyond the sixth byte. -/
def Obligations.FetchWindowIsSixBytes : Prop :=
  (∀ (p : Params) (latch : Option (Kind × Mnemonic)) (bs : List Byte),
    decode p latch bs = decode p latch (bs.take 6)) ∧
  (∀ (p : Params) (latch : Option (Kind × Mnemonic)) (bs : List Byte) (d : Decoded),
    decode p latch bs = .ok d → 2 ≤ d.len ∧ d.len ≤ 6) ∧
  (∀ (b : Base) (disp addr v : Word),
    (Instr.movImmRm (.mem16 b disp) (.word v)).length = 6 ∧
    (Instr.movImmRm (.direct addr) (.word v)).length = 6) ∧
  (∀ rel : Byte, (Instr.je rel).length = 2)

/-- The length is fixed by the first two bytes, and for unmapped bytes under Stale by the latch too
(30_encoding.md R162). -/
def Obligations.FirstTwoBytesFixTheLength : Prop :=
  ∀ (p : Params) (latch latch' : Option (Kind × Mnemonic)) (b0 b1 : Byte) (rest rest' : List Byte)
    (d d' : Decoded),
    (p.unmapped = .fault ∨ latch = latch' ∨
      isMapped b0 = true ∧ (isGroup b0 = true → isUnmappedExt b1 = false)) →
    decode p latch (b0 :: b1 :: rest) = .ok d → decode p latch' (b0 :: b1 :: rest') = .ok d' →
    d.len = d'.len

/-- The length-sum law (30_encoding.md R149). In a stream whose instructions decode without a fault where the
lengths before them end, the sum of the lengths never passes the length of the code (no overrun), and at the
end it is that length (no gap). And a concatenation of chunks that each decode alone, to an instruction of the
chunk's own length, is such a stream. Each instruction decodes at the latch it meets. -/
def Obligations.LengthSumLaw : Prop :=
  (∀ (p : Params) (latch : Nat → Option (Kind × Mnemonic)) (code : List Byte) (len : Nat → Nat) (n : Nat),
    (∀ k < n, ∃ d, decode p (latch k) (code.drop ((List.range k).map len).sum) = .ok d ∧ d.len = len k) →
    (∀ k ≤ n, ((List.range k).map len).sum ≤ code.length) ∧
    (code.length ≤ ((List.range n).map len).sum → ((List.range n).map len).sum = code.length)) ∧
  ∀ (p : Params) (latch : Nat → Option (Kind × Mnemonic)) (chunks : List (List Byte)),
    (∀ (k : Nat) (h : k < chunks.length), ∃ d, decode p (latch k) chunks[k] = .ok d ∧
      d.len = chunks[k].length) →
    chunkOffset chunks chunks.length = chunks.flatten.length ∧
    ∀ (k : Nat) (h : k < chunks.length), ∃ d,
      decode p (latch k) (chunks.flatten.drop (chunkOffset chunks k)) = .ok d ∧
      decode p (latch k) chunks[k] = .ok d ∧
      chunkOffset chunks (k + 1) = chunkOffset chunks k + d.len

/-! ### Registers and memory -/

/-- The word register codes (10_state.md R32), the slots and halves of the byte register codes (the table
of R34) and the segment register codes (R38). -/
def Obligations.RegisterCodesNameTheRegisters : Prop :=
  (List.map wordReg [0, 1, 2, 3, 4, 5, 6, 7] = [.ax, .cx, .dx, .bx, .sp, .bp, .si, .di]) ∧
  (List.map (fun n => (byteSlot n, byteHalf n)) [0, 1, 2, 3, 4, 5, 6, 7] =
    [(.ax, .low), (.cx, .low), (.dx, .low), (.bx, .low), (.ax, .high), (.cx, .high), (.dx, .high),
      (.bx, .high)]) ∧
  (List.map SegReg.ofCode [0, 1, 2, 3] = [.es, .cs, .ss, .ds])

/-- A word register write replaces the whole slot with the value modulo 2^16 and leaves every other slot
alone, and with it the rest of the state; a read returns the slot (10_state.md R33). -/
def Obligations.WordWriteReplacesTheSlot : Prop :=
  ∀ (s : State) (w : Width) (n : BitVec 3) (v : Int),
    ((s.writeLoc w (.reg16 n) v).getReg (wordReg n)).toNat = v % 65536 ∧
    (s.writeLoc w (.reg16 n) v).readLoc w (.reg16 n) =
      ((s.writeLoc w (.reg16 n) v).getReg (wordReg n)).toNat ∧
    (∀ r, r ≠ wordReg n → (s.writeLoc w (.reg16 n) v).getReg r = s.getReg r) ∧
    s.writeLoc w (.reg16 n) v = { s with gpr := (s.writeLoc w (.reg16 n) v).gpr }

/-- The half-register aliasing law (10_state.md R35): the byte register takes the value modulo 2^8, the other
half and every other slot keep theirs, the segment registers and ip among them, and so does the rest of the
state. -/
def Obligations.HalfRegisterAliasing : Prop :=
  ∀ (s : State) (w : Width) (n : BitVec 3) (v : Int),
    (s.writeLoc w (.reg8 n) v).readLoc w (.reg8 n) = v % 256 ∧
    (∀ r, r ≠ byteSlot n → (s.writeLoc w (.reg8 n) v).getReg r = s.getReg r) ∧
    (∀ k, k < 16 → (byteHalf n = .low → 8 ≤ k) → (byteHalf n = .high → k < 8) →
      ((s.writeLoc w (.reg8 n) v).getReg (byteSlot n)).getLsbD k = (s.getReg (byteSlot n)).getLsbD k) ∧
    (∀ g, (s.writeLoc w (.reg8 n) v).getSeg g = s.getSeg g) ∧ (s.writeLoc w (.reg8 n) v).ip = s.ip ∧
    s.writeLoc w (.reg8 n) v = { s with gpr := (s.writeLoc w (.reg8 n) v).gpr }

/-- Words in memory are two bytes, the low one at the lower address, modulo 2^16, and the mixed-width view
follows (20_memory.md R80, R81, R83); every other byte is left alone. -/
def Obligations.MixedWidthMemoryView : Prop :=
  ∀ (s : State) (a : Word) (v : Int) (x y : Byte),
    s.memRead .byte a = (s.mem.read a.toNat).toNat ∧
    s.memRead .word a =
      (s.mem.read ((a.toNat + 1) % 65536)).toNat * 256 + (s.mem.read a.toNat).toNat ∧
    (s.memWrite .word a v).memRead .byte a = v % 256 ∧
    (s.memWrite .word a v).memRead .byte (a + 1) = v / 256 % 256 ∧
    (s.memWrite .word a v).memRead .word a = v % 65536 ∧
    ((s.memWrite .byte a x.toNat).memWrite .byte (a + 1) y.toNat).memRead .word a =
      y.toNat * 256 + x.toNat ∧
    (a = 0xFFFF → (s.memWrite .word a v).mem.read 0 = BitVec.ofInt 8 (v / 256)) ∧
    (∀ k : Nat, k ≠ a.toNat → k ≠ (a.toNat + 1) % 65536 →
      (s.memWrite .word a v).mem.read k = s.mem.read k) ∧
    (∀ k : Nat, k ≠ a.toNat → (s.memWrite .byte a v).mem.read k = s.mem.read k)

/-- Memories in canonical form that read alike at every address are equal data (the model's form of
20_memory.md R71). -/
def Obligations.CanonicalMemoriesThatReadAlikeAreEqual : Prop :=
  ∀ m m' : Memory, m.wf = true → m'.wf = true → (∀ a, m.read a = m'.read a) → m = m'

/-- Where a memory operand lies (30_encoding.md R123 to R126; 20_memory.md R78). RM selects one of the eight sums
of registers; MOD adds nothing, the sign-extended byte b2 or the word b3 : b2; MOD = 0b00 with RM = 0b110 is
the address b3 : b2 itself; all modulo 2^16. Reading and writing the operand, at both widths, is reading and
writing memory there, and so do the register moves 0x88 to 0x8B and the immediate moves 0xC6 and 0xC7, from
their code bytes. -/
def Obligations.MemoryOperandsLieAtTheTableAddress : Prop :=
  ∀ (s : State) (b2 b3 : Byte) (rest : List Byte),
  ∀ row ∈ ([(0b000, .bxSi, (s.getReg .bx).toNat + (s.getReg .si).toNat),
      (0b001, .bxDi, (s.getReg .bx).toNat + (s.getReg .di).toNat),
      (0b010, .bpSi, (s.getReg .bp).toNat + (s.getReg .si).toNat),
      (0b011, .bpDi, (s.getReg .bp).toNat + (s.getReg .di).toNat),
      (0b100, .si, (s.getReg .si).toNat), (0b101, .di, (s.getReg .di).toNat),
      (0b110, .bp, (s.getReg .bp).toNat), (0b111, .bx, (s.getReg .bx).toNat)] :
      List (BitVec 3 × Base × Nat)),
  ∀ form ∈ ([(0b00, if row.1 = 0b110 then [b2, b3] else [],
        if row.1 = 0b110 then .direct (wordAt [b2, b3] 0) else .mem row.2.1,
        if row.1 = 0b110 then b3.toNat * 256 + b2.toNat else row.2.2),
      (0b01, [b2], .mem8 row.2.1 b2, row.2.2 + b2.toInt),
      (0b10, [b2, b3], .mem16 row.2.1 (wordAt [b2, b3] 0), row.2.2 + (b3.toNat * 256 + b2.toNat))] :
      List (BitVec 2 × List Byte × Rm × Int)),
  ∀ a : Word, (a.toNat : Int) = form.2.2.2 % 65536 →
    (∀ b0 b1 : Byte, resolveRm form.1 row.1 (b0 :: b1 :: (form.2.1 ++ rest)) = form.2.2.1) ∧
    (∀ (w : Width) (v : Int),
      s.readLoc w (form.2.2.1.loc w) = s.memRead w a ∧ s.writeLoc w (form.2.2.1.loc w) v = s.memWrite w a v ∧
      s.locBytes w (form.2.2.1.loc w) = accessBytes w a) ∧
    ∀ reg : BitVec 3,
      (s.fetch = 0x8A :: (form.1 ++ reg ++ row.1) :: (form.2.1 ++ rest) →
        ∃ t, step s = .next t ∧ (t.r8 reg).toNat = s.memRead .byte a ∧ t.mem = s.mem) ∧
      (s.fetch = 0x8B :: (form.1 ++ reg ++ row.1) :: (form.2.1 ++ rest) →
        ∃ t, step s = .next t ∧ (t.r16 reg).toNat = s.memRead .word a ∧ t.mem = s.mem) ∧
      (s.fetch = 0x88 :: (form.1 ++ reg ++ row.1) :: (form.2.1 ++ rest) →
        ∃ t, step s = .next t ∧ t.mem = (s.memWrite .byte a (s.r8 reg).toNat).mem ∧ t.gpr = s.gpr) ∧
      (s.fetch = 0x89 :: (form.1 ++ reg ++ row.1) :: (form.2.1 ++ rest) →
        ∃ t, step s = .next t ∧ t.mem = (s.memWrite .word a (s.r16 reg).toNat).mem ∧ t.gpr = s.gpr) ∧
      ∀ (i0 i1 : Byte) (rest' : List Byte),
        (s.fetch = 0xC6 :: (form.1 ++ reg ++ row.1) :: (form.2.1 ++ i0 :: rest') →
          ∃ t, step s = .next t ∧ t.mem = (s.memWrite .byte a i0.toNat).mem ∧ t.gpr = s.gpr) ∧
        (s.fetch = 0xC7 :: (form.1 ++ reg ++ row.1) :: (form.2.1 ++ i0 :: i1 :: rest') →
          ∃ t, step s = .next t ∧ t.mem = (s.memWrite .word a (i1.toNat * 256 + i0.toNat)).mem ∧ t.gpr = s.gpr)

/-! ### mov -/

/-- `mov` register/memory to/from register completes for every form: the destination reads as the source
read, and nothing else changes (40_mov.md R172; frame). -/
def Obligations.MovRmRegCopiesTheSource : Prop :=
  ∀ (d : Dir) (w : Width) (reg : BitVec 3) (rm : Rm) (s : State),
    ∃ t, exec (.movRmReg d w reg rm) s = .next t ∧
      t.readLoc w (rmRegDst d w reg rm) = s.readLoc w (rmRegSrc d w reg rm) ∧
      WritesOnly s t w (rmRegDst d w reg rm) ∧ t.flags = s.flags ∧ t.ip = s.ip

/-- `mov` immediate to register/memory and to register complete for every form: the destination reads as
the immediate, and nothing else changes (40_mov.md R173, R174; frame). -/
def Obligations.MovImmediateStoresTheImmediate : Prop :=
  (∀ (rm : Rm) (imm : Imm) (s : State), ∃ t, exec (.movImmRm rm imm) s = .next t ∧
    t.readLoc imm.width (rm.loc imm.width) = immValue imm ∧
    WritesOnly s t imm.width (rm.loc imm.width) ∧ t.flags = s.flags ∧ t.ip = s.ip) ∧
  (∀ (reg : BitVec 3) (imm : Imm) (s : State), ∃ t, exec (.movImmReg reg imm) s = .next t ∧
    t.readLoc imm.width (regLoc imm.width reg) = immValue imm ∧
    WritesOnly s t imm.width (regLoc imm.width reg) ∧ t.flags = s.flags ∧ t.ip = s.ip)

/-- `mov` memory to accumulator (40_mov.md R175): ax, or al with ah kept, takes the word or byte at the
address, the word's high byte from the next address modulo 2^16. -/
def Obligations.MovMemoryToAccumulator : Prop :=
  ∀ (addr : Word) (s : State),
    (∃ t, exec (.movMemAcc .word addr) s = .next t ∧
      (t.getReg .ax).toNat =
        (s.mem.read ((addr.toNat + 1) % 65536)).toNat * 256 + (s.mem.read addr.toNat).toNat ∧
      Frame s t [.ax] [] [] ∧ t.flags = s.flags ∧ t.ip = s.ip) ∧
    (∃ t, exec (.movMemAcc .byte addr) s = .next t ∧
      (t.getReg .ax).toNat =
        (s.getReg .ax).toNat / 256 * 256 + (s.mem.read addr.toNat).toNat ∧
      Frame s t [.ax] [] [] ∧ t.flags = s.flags ∧ t.ip = s.ip)

/-- `mov` accumulator to memory (40_mov.md R176): the byte or word of ax goes to the address, a word's high
byte to the next address modulo 2^16, and no other byte changes. -/
def Obligations.MovAccumulatorToMemory : Prop :=
  ∀ (addr : Word) (s : State),
    (∃ t, exec (.movAccMem .word addr) s = .next t ∧
      (t.mem.read addr.toNat).toNat = (s.getReg .ax).toNat % 256 ∧
      (t.mem.read ((addr.toNat + 1) % 65536)).toNat = (s.getReg .ax).toNat / 256 ∧
      Frame s t [] [] [addr.toNat, (addr.toNat + 1) % 65536] ∧ t.flags = s.flags ∧ t.ip = s.ip) ∧
    (∃ t, exec (.movAccMem .byte addr) s = .next t ∧
      (t.mem.read addr.toNat).toNat = (s.getReg .ax).toNat % 256 ∧
      Frame s t [] [] [addr.toNat] ∧ t.flags = s.flags ∧ t.ip = s.ip)

/-- The segment-register moves (40_mov.md R177, R178): in register-direct mode they copy the word and change
nothing else; a memory form changes nothing under NoOp and is refused under Refuse. -/
def Obligations.SegmentRegisterMoves : Prop :=
  (∀ (g : SegReg) (n : BitVec 3) (s : State),
    (∃ t, exec (.movRmSreg g (.reg n)) s = .next t ∧ t.getSeg g = s.getReg (wordReg n) ∧
      Frame s t [] [g] [] ∧ t.flags = s.flags ∧ t.ip = s.ip) ∧
    (∃ t, exec (.movSregRm g (.reg n)) s = .next t ∧ t.getReg (wordReg n) = s.getSeg g ∧
      Frame s t [wordReg n] [] [] ∧ t.flags = s.flags ∧ t.ip = s.ip)) ∧
  (∀ (g : SegReg) (rm : Rm) (s : State), (∀ n, rm ≠ .reg n) →
    (s.params.unimpl = .noOp →
      exec (.movRmSreg g rm) s = .next s ∧ exec (.movSregRm g rm) s = .next s) ∧
    (s.params.unimpl = .refuse →
      exec (.movRmSreg g rm) s =
        .refused (.unimplemented (s.ip - BitVec.ofNat 16 (2 + rm.dispLen)) .mov) ∧
      exec (.movSregRm g rm) s =
        .refused (.unimplemented (s.ip - BitVec.ofNat 16 (2 + rm.dispLen)) .mov)))

/-! ### add, sub, cmp -/

/-- add and sub execute for every register and accumulator form (addRmReg, addImmRm, addImmAcc, subRmReg,
subImmRm, subImmAcc): the destination takes the sum or difference of the two patterns modulo 2^w, whatever
`OPERAND_READ`, and nothing but it and the flags changes (41_arith.md R192 to R198, R202; frame). The second
part names the operands of each form: RM is the destination for D = 0 and the register for D = 1
(30_encoding.md R150), and the immediate of S = 1 is its sign-extended byte (R128). -/
def Obligations.AddAndSubStoreTheWrappedResult : Prop :=
  (∀ (i : Instr) (op : AluOp) (w : Width) (dst : Loc) (src : Operand) (s : State),
    executedAlu i = some (op, w, dst, src) → op ≠ .cmp →
    ∃ t, exec i s = .next t ∧
      (t.readLoc w dst : Int) =
        (if op = .add then (s.readLoc w dst : Int) + s.readOp w src
          else (s.readLoc w dst : Int) - s.readOp w src) % 2 ^ widthBits w ∧
      WritesOnly s t w dst ∧ t.ip = s.ip) ∧
  ∀ (s : State) (reg n : BitVec 3) (b : Byte) (v : Word),
  ∀ row ∈ aluRows s reg n b v, row.op ≠ .cmp →
    ∃ t, exec row.instr s = .next t ∧
      (t.readLoc row.width row.dst : Int) =
        (if row.op = .add then (s.readLoc row.width row.dst : Int) + row.src
          else (s.readLoc row.width row.dst : Int) - row.src) % 2 ^ widthBits row.width ∧
      WritesOnly s t row.width row.dst ∧ t.ip = s.ip

/-- cmp executes for every register and accumulator form (cmpRmReg, cmpImmRm, cmpImmAcc) and changes the
six flags only (41_arith.md R192, R199 to R201; frame). -/
def Obligations.CmpChangesOnlyTheFlags : Prop :=
  ∀ (i : Instr) (w : Width) (dst : Loc) (src : Operand) (s : State),
    executedAlu i = some (.cmp, w, dst, src) →
    ∃ f : Flags, exec i s = .next { s with flags := f } ∧ f.DF = s.flags.DF ∧ f.IF = s.flags.IF ∧
      f.TF = s.flags.TF

/-- Every executed add, sub and cmp writes the flags that the flag unit gives for the exact intermediate
result of the operands as `OPERAND_READ` reads them (41_arith.md R191, R192; 43_flag_unit.md R241). The second
part names the operands of each form (30_encoding.md R128, R150), and cmp stores nothing. -/
def Obligations.AluFlagsComeFromTheUnit : Prop :=
  (∀ (i : Instr) (op : AluOp) (w : Width) (dst : Loc) (src : Operand) (s : State),
    executedAlu i = some (op, w, dst, src) →
    ∃ t, exec i s = .next t ∧
      ∃ a b : Int,
        a = (if s.params.operandRead = .signed ∧ 2 ^ (widthBits w - 1) ≤ s.readLoc w dst
          then (s.readLoc w dst : Int) - 2 ^ widthBits w else s.readLoc w dst) ∧
        b = (if s.params.operandRead = .signed ∧ 2 ^ (widthBits w - 1) ≤ s.readOp w src
          then (s.readOp w src : Int) - 2 ^ widthBits w else s.readOp w src) ∧
        t.flags = flagUnit s.params.afRule op (if op = .add then a + b else a - b) b w s.flags) ∧
  ∀ (s : State) (reg n : BitVec 3) (imm : Byte) (v : Word),
  ∀ row ∈ aluRows s reg n imm v,
    ∃ t, exec row.instr s = .next t ∧
      ∃ a b : Int,
        a = (if s.params.operandRead = .signed ∧ 2 ^ (widthBits row.width - 1) ≤ s.readLoc row.width row.dst
          then (s.readLoc row.width row.dst : Int) - 2 ^ widthBits row.width else s.readLoc row.width row.dst) ∧
        b = (if s.params.operandRead = .signed ∧ 2 ^ (widthBits row.width - 1) ≤ row.src
          then (row.src : Int) - 2 ^ widthBits row.width else row.src) ∧
        t.flags =
          flagUnit s.params.afRule row.op (if row.op = .add then a + b else a - b) b row.width s.flags ∧
        (row.op = .cmp → t = { s with flags := t.flags })

/-- The flag unit's six outputs in integer arithmetic (43_flag_unit.md R242 to R248; AF under the opaque rule
is that rule's value, about which nothing is assumed), and that it leaves DF, IF and TF alone (R250). -/
def Obligations.FlagUnitFormulas : Prop :=
  ∀ (rule : AfRule) (op : AluOp) (r src : Int) (w : Width) (f : Flags),
    ((flagUnit rule op r src w f).PF = true ↔
      ((List.range 8).map fun k => r / 2 ^ k % 2).sum % 2 = 0) ∧
    ((flagUnit rule op r src w f).ZF = true ↔ r = 0) ∧
    ((flagUnit rule op r src w f).SF = true ↔ r / 2 ^ (widthBits w - 1) % 2 = 1) ∧
    ((flagUnit rule op r src w f).CF = true ↔ if op = .add then 255 < r else r < 0) ∧
    ((flagUnit rule op r src w f).OF = true ↔
      if w = .word then r < -32768 ∨ 65535 < r else r < -127 ∨ 255 < r) ∧
    (rule = .nibbleCarry → ((flagUnit rule op r src w f).AF = true ↔
      if op = .add then 15 < src % 16 + (r - src) % 16 else (r + src) % 16 < src % 16)) ∧
    (rule = .opaqueRule → (flagUnit rule op r src w f).AF = Config.afRule op r src w) ∧
    (flagUnit rule op r src w f).DF = f.DF ∧ (flagUnit rule op r src w f).IF = f.IF ∧
    (flagUnit rule op r src w f).TF = f.TF

/-- AF of every executed add, sub and cmp under NibbleCarry (43_flag_unit.md R247): the carry or borrow out of
the low nibbles of the two patterns, whatever `OPERAND_READ`. -/
def Obligations.AuxiliaryCarryOfTheOperands : Prop :=
  ∀ (i : Instr) (op : AluOp) (w : Width) (dst : Loc) (src : Operand) (s : State),
    executedAlu i = some (op, w, dst, src) → s.params.afRule = .nibbleCarry →
    ∃ t, exec i s = .next t ∧
      (t.flags.AF = true ↔
        if op = .add then 15 < s.readLoc w dst % 16 + s.readOp w src % 16
        else s.readLoc w dst % 16 < s.readOp w src % 16)

/-- Register mode only (41_arith.md R190): add, sub and cmp execute with MOD = 0b11 and on the accumulator; a
form with a memory operand, source or destination, changes nothing under NoOp and is refused under Refuse. -/
def Obligations.AluExecutesInRegisterModeOnly : Prop :=
  (∀ (d : Dir) (w : Width) (reg n : BitVec 3),
    (executedAlu (.addRmReg d w reg (.reg n))).isSome ∧ (executedAlu (.subRmReg d w reg (.reg n))).isSome ∧
    (executedAlu (.cmpRmReg d w reg (.reg n))).isSome) ∧
  (∀ (n : BitVec 3) (imm : AluImm),
    (executedAlu (.addImmRm (.reg n) imm)).isSome ∧ (executedAlu (.subImmRm (.reg n) imm)).isSome ∧
    (executedAlu (.cmpImmRm (.reg n) imm)).isSome) ∧
  (∀ imm : Imm, (executedAlu (.addImmAcc imm)).isSome ∧ (executedAlu (.subImmAcc imm)).isSome ∧
    (executedAlu (.cmpImmAcc imm)).isSome) ∧
  (∀ (i : Instr) (s : State), (executedAlu i).isSome → ∃ t, exec i s = .next t) ∧
  ∀ (rm : Rm), (∀ n, rm ≠ .reg n) → ∀ (d : Dir) (w : Width) (reg : BitVec 3) (imm : AluImm) (s : State),
    ∀ i ∈ [Instr.addRmReg d w reg rm, .subRmReg d w reg rm, .cmpRmReg d w reg rm, .addImmRm rm imm,
      .subImmRm rm imm, .cmpImmRm rm imm],
      (s.params.unimpl = .noOp → exec i s = .next s) ∧
      (s.params.unimpl = .refuse →
        exec i s = .refused (.unimplemented (s.ip - BitVec.ofNat 16 i.length) i.mnemonic))

/-- The laws of the intermediate result (41_arith.md R202): its range under each `OPERAND_READ`, that it fits
32 bits, that the stored value is it modulo 2^w, and that both readings store the same. -/
def Obligations.IntermediateResultLaws : Prop :=
  ∀ (op : AluOp) (w : Width) (a b : Nat), a < 2 ^ widthBits w → b < 2 ^ widthBits w →
    (∀ read, -2 ^ 31 ≤ aluResult op (operandInt read w a) (operandInt read w b) ∧
      aluResult op (operandInt read w a) (operandInt read w b) < 2 ^ 31) ∧
    (op = .add → 0 ≤ aluResult op (operandInt .unsigned w a) (operandInt .unsigned w b) ∧
      aluResult op (operandInt .unsigned w a) (operandInt .unsigned w b) ≤ 131070 ∧
      -65536 ≤ aluResult op (operandInt .signed w a) (operandInt .signed w b) ∧
      aluResult op (operandInt .signed w a) (operandInt .signed w b) ≤ 65534) ∧
    (op ≠ .add → ∀ read, -65535 ≤ aluResult op (operandInt read w a) (operandInt read w b) ∧
      aluResult op (operandInt read w a) (operandInt read w b) ≤ 65535) ∧
    (∀ (s : State) (n : BitVec 3) (read : OperandRead),
      ((s.writeLoc w (regLoc w n)
          (aluResult op (operandInt read w a) (operandInt read w b))).readLoc w (regLoc w n) : Int) =
        aluResult op (operandInt .unsigned w a) (operandInt .unsigned w b) % 2 ^ widthBits w)

/-- Under NibbleCarry `OPERAND_READ` can change ZF, CF and OF only, and under the opaque AF rule AF beside
them (43_flag_unit.md R248, 41_arith.md R202): the next states under both values are the same in every other
flag and everything else. -/
def Obligations.OperandReadChangesThreeFlagsOnly : Prop :=
  ∀ (i : Instr) (s : State), (executedAlu i).isSome →
    ∃ t u, exec i { s with params := { s.params with operandRead := .unsigned } } = .next t ∧
      exec i { s with params := { s.params with operandRead := .signed } } = .next u ∧
      t = { u with params := t.params, flags := t.flags } ∧
      (s.params.afRule = .nibbleCarry →
        t.flags = { u.flags with ZF := t.flags.ZF, CF := t.flags.CF, OF := t.flags.OF }) ∧
      t.flags = { u.flags with ZF := t.flags.ZF, CF := t.flags.CF, OF := t.flags.OF, AF := t.flags.AF }

/-- One register as source and destination, and the two halves of one register (41_arith.md R203). -/
def Obligations.SameRegisterOperands : Prop :=
  (∀ (i : Instr) (op : AluOp) (w : Width) (n : BitVec 3) (s : State),
    executedAlu i = some (op, w, regLoc w n, .loc (regLoc w n)) →
    ∃ t, exec i s = .next t ∧
      (op = .add → t.readLoc w (regLoc w n) = 2 * s.readLoc w (regLoc w n) % 2 ^ widthBits w) ∧
      (op = .sub → t.readLoc w (regLoc w n) = 0) ∧
      (op = .cmp → t.readLoc w (regLoc w n) = s.readLoc w (regLoc w n)) ∧
      (op ≠ .add → t.flags.ZF = true ∧ t.flags.CF = false ∧ t.flags.OF = false ∧ t.flags.SF = false ∧
        t.flags.PF = true ∧ (s.params.afRule = .nibbleCarry → t.flags.AF = false))) ∧
  (∀ (i : Instr) (op : AluOp) (n m : BitVec 3) (s : State),
    executedAlu i = some (op, .byte, .reg8 n, .loc (.reg8 m)) → byteSlot n = byteSlot m → n ≠ m →
    ∃ t, exec i s = .next t ∧ t.r8 m = s.r8 m ∧
      t.r8 n = match op with
        | .add => s.r8 n + s.r8 m
        | .sub => s.r8 n - s.r8 m
        | .cmp => s.r8 n)

/-! ### Jumps and loops -/

/-- The four wired jumps (42_branch.md R214, R216, R217, R222) and the branch target (R210): each is two bytes
long, reads its one flag, and changes ip alone, to the target modulo 2^16 where the condition holds. -/
def Obligations.WiredJumpsBranchOnTheirFlag : Prop :=
  ∀ (p : Params) (latch : Option (Kind × Mnemonic)) (rel : Byte) (rest : List Byte) (s : State),
    (decode p latch (0x72 :: rel :: rest) = .ok ⟨0x72, .jcc, .jb rel, 2⟩ ∧
      decode p latch (0x74 :: rel :: rest) = .ok ⟨0x74, .jcc, .je rel, 2⟩ ∧
      decode p latch (0x75 :: rel :: rest) = .ok ⟨0x75, .jcc, .jne rel, 2⟩ ∧
      decode p latch (0x7A :: rel :: rest) = .ok ⟨0x7A, .jcc, .jp rel, 2⟩) ∧
    (∀ b0 ∈ [(0x72 : Byte), 0x74, 0x75, 0x7A], decode p latch [b0] = .error (.truncatedInstruction 1 2)) ∧
    ∃ target : Word, (target.toNat : Int) = (s.ip.toNat + rel.toInt) % 65536 ∧
      exec (.jb rel) s = .next { s with ip := if s.flags.CF = true then target else s.ip } ∧
      exec (.je rel) s = .next { s with ip := if s.flags.ZF = true then target else s.ip } ∧
      exec (.jne rel) s = .next { s with ip := if s.flags.ZF = false then target else s.ip } ∧
      exec (.jp rel) s = .next { s with ip := if s.flags.PF = true then target else s.ip }

/-- `loopnz` (42_branch.md R228): cx is decremented modulo 2^16 always; ip takes the target where the
decremented cx is not 0 and ZF = 0; nothing else changes. -/
def Obligations.LoopnzDecrementsAndBranches : Prop :=
  ∀ (p : Params) (latch : Option (Kind × Mnemonic)) (rel : Byte) (rest : List Byte) (s : State),
    decode p latch (0xE0 :: rel :: rest) = .ok ⟨0xE0, .jcc, .loopnz rel, 2⟩ ∧
    decode p latch [0xE0] = .error (.truncatedInstruction 1 2) ∧
    ∃ (target cx : Word), (target.toNat : Int) = (s.ip.toNat + rel.toInt) % 65536 ∧
      (cx.toNat : Int) = ((s.getReg .cx).toNat - 1) % 65536 ∧
      exec (.loopnz rel) s = .next { s with
        gpr := { s.gpr with cx := cx }
        ip := if cx ≠ 0 ∧ s.flags.ZF = false then target else s.ip }

/-- The twelve unwired jumps (42_branch.md R212, R213, R215, R218 to R221, R223 to R227): two bytes long; under
NoOp they change nothing, under Refuse they are refused at IP0 with their mnemonic. -/
def Obligations.UnwiredJumpsDoNothing : Prop :=
  ∀ x ∈ ([(0x70, .jo, .jo), (0x71, .jno, .jno), (0x73, .jnb, .jnb), (0x76, .jbe, .jbe), (0x77, .ja, .ja),
    (0x78, .js, .js), (0x79, .jns, .jns), (0x7B, .jnp, .jnp), (0x7C, .jl, .jl), (0x7D, .jnl, .jnl),
    (0x7E, .jle, .jle), (0x7F, .jg, .jg)] : List (Byte × (Byte → Instr) × Mnemonic)),
    ∀ (p : Params) (latch : Option (Kind × Mnemonic)) (rel : Byte) (rest : List Byte) (s : State),
      decode p latch (x.1 :: rel :: rest) = .ok ⟨x.1, .jcc, x.2.1 rel, 2⟩ ∧
      decode p latch [x.1] = .error (.truncatedInstruction 1 2) ∧
      (s.params.unimpl = .noOp → exec (x.2.1 rel) s = .next s) ∧
      (s.params.unimpl = .refuse →
        exec (x.2.1 rel) s = .refused (.unimplemented (s.ip - 2) x.2.2))

/-- loopz, loop and jcxz are unwired (42_branch.md R229, R230, R231): cx is not decremented. -/
def Obligations.UnwiredLoopsDoNothing : Prop :=
  ∀ x ∈ ([(0xE1, .loopz, .loopz), (0xE2, .loop, .loop), (0xE3, .jcxz, .jcxz)] :
      List (Byte × (Byte → Instr) × Mnemonic)),
    ∀ (p : Params) (latch : Option (Kind × Mnemonic)) (rel : Byte) (rest : List Byte) (s : State),
      decode p latch (x.1 :: rel :: rest) = .ok ⟨x.1, .jcc, x.2.1 rel, 2⟩ ∧
      decode p latch [x.1] = .error (.truncatedInstruction 1 2) ∧
      (s.params.unimpl = .noOp → exec (x.2.1 rel) s = .next s) ∧
      (s.params.unimpl = .refuse →
        exec (x.2.1 rel) s = .refused (.unimplemented (s.ip - 2) x.2.2))

/-- No K_JCC instruction writes a flag; loopnz writes cx and ip, the others no register but ip
(42_branch.md R233; frame). -/
def Obligations.JumpsWriteOnlyIpAndCx : Prop :=
  ∀ (i : Instr) (s t : State), i.kind = .jcc → exec i s = .next t →
    t.flags = s.flags ∧ Frame s t (if i.mnemonic = .loopnz then [.cx] else []) [] [] ∧ t.mem = s.mem

/-- A taken wired branch to itself never ends (70_reset_and_hazards.md R295): however many steps are run, the
machine is at the same instruction. -/
def Obligations.BranchToSelfNeverEnds : Prop :=
  ∀ (s : State) (rest : List Byte) (k : Nat),
    (s.fetch = 0x74 :: 0xFE :: rest → s.flags.ZF = true →
      Host.Core.run Sys2Proof.core (k + 1) s = .next { s with latch := some (.jcc, .je) }) ∧
    (s.fetch = 0x75 :: 0xFE :: rest → s.flags.ZF = false →
      Host.Core.run Sys2Proof.core (k + 1) s = .next { s with latch := some (.jcc, .jne) }) ∧
    (s.fetch = 0x72 :: 0xFE :: rest → s.flags.CF = true →
      Host.Core.run Sys2Proof.core (k + 1) s = .next { s with latch := some (.jcc, .jb) }) ∧
    (s.fetch = 0x7A :: 0xFE :: rest → s.flags.PF = true →
      Host.Core.run Sys2Proof.core (k + 1) s = .next { s with latch := some (.jcc, .jp) })

/-- loopnz to itself with ZF = 0 ends (70_reset_and_hazards.md R295): it runs once for each count of cx (65,536
times from 0) and falls through with cx = 0. -/
def Obligations.LoopnzToSelfEnds : Prop :=
  ∀ (s : State) (rest : List Byte), s.fetch = 0xE0 :: 0xFE :: rest → s.flags.ZF = false →
    Host.Core.run Sys2Proof.core (if s.getReg .cx = 0 then 65536 else (s.getReg .cx).toNat) s =
      .next { s with
        gpr := { s.gpr with cx := 0 }
        ip := s.ip + 2
        latch := some (.jcc, .loopnz) }

/-! ### Rules about the whole machine -/

/-- Every instruction completes: under NoOp every one, and under Refuse every one that is not Unimplemented,
whatever the state and the operands (40_mov.md R171). It covers all 36 constructors. -/
def Obligations.EveryInstructionCompletes : Prop :=
  ∀ (i : Instr) (s : State), (s.params.unimpl = .noOp ∨ isUnimplemented i = false) →
    ∃ t, exec i s = .next t

/-- The refused outcome (60_exceptions.md R278): a step is refused exactly when, under Refuse, it decodes an
Unimplemented form, and it records IP0 and the mnemonic. -/
def Obligations.RefusalsRecordIpAndMnemonic : Prop :=
  ∀ (s : State) (r : Refusal), step s = .refused r ↔
    s.params.unimpl = .refuse ∧ s.ip.toNat < s.code.length ∧
      ∃ d, decode s.params s.latch s.fetch = .ok d ∧ isUnimplemented d.instr = true ∧
        r = .unimplemented s.ip d.instr.mnemonic

/-- The writers of ip (42_branch.md R232): the sequential advance and the taken branches of jb, je, jne, jp and
loopnz. -/
def Obligations.OnlyTakenBranchesLeaveTheSequence : Prop :=
  ∀ (s t : State) (d : Decoded), s.ip.toNat < s.code.length →
    decode s.params s.latch s.fetch = .ok d → step s = .next t →
    t.ip = s.ip + BitVec.ofNat 16 d.len ∨
    ∃ rel : Byte, t.ip = s.ip + 2 + sext16 rel ∧
      ((d.instr = .jb rel ∧ s.flags.CF = true) ∨ (d.instr = .je rel ∧ s.flags.ZF = true) ∨
        (d.instr = .jne rel ∧ s.flags.ZF = false) ∨ (d.instr = .jp rel ∧ s.flags.PF = true) ∨
        (d.instr = .loopnz rel ∧ s.flags.ZF = false ∧ t.getReg .cx ≠ 0))

/-- The flag writers (10_state.md R44, 43_flag_unit.md R250): no step writes DF, IF or TF, and an instruction
that is no executed add, sub or cmp writes no flag. -/
def Obligations.OnlyExecutedAluWritesFlags : Prop :=
  (∀ s t : State, step s = .next t →
    t.flags.DF = s.flags.DF ∧ t.flags.IF = s.flags.IF ∧ t.flags.TF = s.flags.TF) ∧
  ∀ (i : Instr) (s t : State), exec i s = .next t → executedAlu i = none → t.flags = s.flags

/-- Stores are never seen by instruction fetch (20_memory.md R74, R92), and no step changes the parameters
(10_state.md R48). -/
def Obligations.StoresNeverReachTheCode : Prop :=
  (∀ s t : State, step s = .next t → t.code = s.code ∧ t.params = s.params) ∧
  ∀ (s : State) (m : Memory), traceRecord { s with mem := m } = traceRecord s

/-- Which instructions reach data memory (20_memory.md R73): only mov to a memory destination writes it, and
only mov from a memory source reads it. -/
def Obligations.OnlyMovReachesMemory : Prop :=
  ∀ (i : Instr) (s t : State), exec i s = .next t →
    (t.mem = s.mem ∨ (∃ w reg rm, i = .movRmReg .rmDst w reg rm ∧ isRegister rm = false) ∨
      (∃ rm imm, i = .movImmRm rm imm ∧ isRegister rm = false) ∨ (∃ w a, i = .movAccMem w a)) ∧
    ((∃ w reg rm, i = .movRmReg .regDst w reg rm ∧ isRegister rm = false) ∨ (∃ w a, i = .movMemAcc w a) ∨
      ∀ m : Memory, ∃ u, exec i { s with mem := m } = .next u ∧ u.gpr = t.gpr ∧ u.sreg = t.sreg ∧
        u.ip = t.ip ∧ u.flags = t.flags)

/-- Segment registers take no part in anything but their own moves in register-direct mode (10_state.md R39):
decoding never reads them, and an instruction other than `mov` from a segment register gives the same next
state, the segment registers apart, whatever they hold. -/
def Obligations.SegmentRegistersTakeNoPart : Prop :=
  (∀ (s : State) (x : Sregs), traceRecord { s with sreg := x } = traceRecord s) ∧
  ∀ (i : Instr) (s t : State) (x : Sregs), exec i s = .next t → (∀ g n, i ≠ .movSregRm g (.reg n)) →
    ∃ y, exec i { s with sreg := x } = .next { t with sreg := y } ∧
      ((∀ g n, i ≠ .movRmSreg g (.reg n)) → y = x ∧ t.sreg = s.sreg)

/-- The latch after a step is the decoded instruction's (kind, mnemonic), and a fault leaves the state, the
latch too, as it was (10_state.md R47). -/
def Obligations.LatchHoldsTheLastClassification : Prop :=
  (∀ s t : State, step s = .next t → s.ip.toNat < s.code.length →
    ∃ d, decode s.params s.latch s.fetch = .ok d ∧ t.latch = some (d.instr.kind, d.instr.mnemonic)) ∧
  ∀ (s : State) (r : Fault), step s = .fault r → runEnd s = some (.fault s r)

/-- Under `UNMAPPED_POLICY` = Fault the latch cannot be observed (10_state.md R46): a step answers the same
whatever it holds. -/
def Obligations.LatchIsHiddenUnderFault : Prop :=
  ∀ (s : State) (latch : Option (Kind × Mnemonic)), s.params.unmapped = .fault →
    s.ip.toNat < s.code.length → step { s with latch := latch } = step s
end

