-- ==== Sys2Proof/Laws/State.lean ====
section
/-! SUPPORT. What each update of the state does to each field, and the accessor laws of registers. -/

namespace Sys2Proof.Machine

/-! ### Register updates -/

section
variable (s : State) (r : Reg16) (g : SegReg) (v : Word)

@[simp] theorem setReg_sreg : (s.setReg r v).sreg = s.sreg := rfl
@[simp] theorem setReg_ip : (s.setReg r v).ip = s.ip := rfl
@[simp] theorem setReg_flags : (s.setReg r v).flags = s.flags := rfl
@[simp] theorem setReg_mem : (s.setReg r v).mem = s.mem := rfl
@[simp] theorem setReg_code : (s.setReg r v).code = s.code := rfl
@[simp] theorem setReg_latch : (s.setReg r v).latch = s.latch := rfl
@[simp] theorem setReg_params : (s.setReg r v).params = s.params := rfl
@[simp] theorem setReg_getSeg : (s.setReg r v).getSeg g = s.getSeg g := rfl

@[simp] theorem setSeg_gpr : (s.setSeg g v).gpr = s.gpr := rfl
@[simp] theorem setSeg_ip : (s.setSeg g v).ip = s.ip := rfl
@[simp] theorem setSeg_flags : (s.setSeg g v).flags = s.flags := rfl
@[simp] theorem setSeg_mem : (s.setSeg g v).mem = s.mem := rfl
@[simp] theorem setSeg_code : (s.setSeg g v).code = s.code := rfl
@[simp] theorem setSeg_latch : (s.setSeg g v).latch = s.latch := rfl
@[simp] theorem setSeg_params : (s.setSeg g v).params = s.params := rfl
@[simp] theorem setSeg_getReg : (s.setSeg g v).getReg r = s.getReg r := rfl
end

@[simp] theorem getReg_setReg_same (s : State) (r : Reg16) (v : Word) :
    (s.setReg r v).getReg r = v := by cases r <;> rfl

theorem getReg_setReg_other (s : State) {q r : Reg16} (v : Word) (h : q ≠ r) :
    (s.setReg r v).getReg q = s.getReg q := by
  cases r <;> cases q <;> first | rfl | exact absurd rfl h

@[simp] theorem getSeg_setSeg_same (s : State) (g : SegReg) (v : Word) :
    (s.setSeg g v).getSeg g = v := by cases g <;> rfl

theorem getSeg_setSeg_other (s : State) {f g : SegReg} (v : Word) (h : f ≠ g) :
    (s.setSeg g v).getSeg f = s.getSeg f := by
  cases g <;> cases f <;> first | rfl | exact absurd rfl h

@[simp] theorem setReg_getReg_self (s : State) (r : Reg16) : s.setReg r (s.getReg r) = s := by
  cases r <;> rfl

/-! ### Memory updates -/

section
variable (s : State) (a : Word) (r : Reg16) (g : SegReg) (b : Byte) (v : Word)

@[simp] theorem memWrite8_gpr : (s.memWrite8 a b).gpr = s.gpr := rfl
@[simp] theorem memWrite8_sreg : (s.memWrite8 a b).sreg = s.sreg := rfl
@[simp] theorem memWrite8_ip : (s.memWrite8 a b).ip = s.ip := rfl
@[simp] theorem memWrite8_flags : (s.memWrite8 a b).flags = s.flags := rfl
@[simp] theorem memWrite8_mem : (s.memWrite8 a b).mem = s.mem.write a.toNat b := rfl
@[simp] theorem memWrite8_code : (s.memWrite8 a b).code = s.code := rfl
@[simp] theorem memWrite8_latch : (s.memWrite8 a b).latch = s.latch := rfl
@[simp] theorem memWrite8_params : (s.memWrite8 a b).params = s.params := rfl
@[simp] theorem memWrite8_getReg : (s.memWrite8 a b).getReg r = s.getReg r := rfl
@[simp] theorem memWrite8_getSeg : (s.memWrite8 a b).getSeg g = s.getSeg g := rfl

@[simp] theorem memWrite16_gpr : (s.memWrite16 a v).gpr = s.gpr := rfl
@[simp] theorem memWrite16_sreg : (s.memWrite16 a v).sreg = s.sreg := rfl
@[simp] theorem memWrite16_ip : (s.memWrite16 a v).ip = s.ip := rfl
@[simp] theorem memWrite16_flags : (s.memWrite16 a v).flags = s.flags := rfl
@[simp] theorem memWrite16_mem : (s.memWrite16 a v).mem
    = (s.mem.write a.toNat (loByte v)).write (a + 1).toNat (hiByte v) := rfl
@[simp] theorem memWrite16_code : (s.memWrite16 a v).code = s.code := rfl
@[simp] theorem memWrite16_latch : (s.memWrite16 a v).latch = s.latch := rfl
@[simp] theorem memWrite16_params : (s.memWrite16 a v).params = s.params := rfl
@[simp] theorem memWrite16_getReg : (s.memWrite16 a v).getReg r = s.getReg r := rfl
@[simp] theorem memWrite16_getSeg : (s.memWrite16 a v).getSeg g = s.getSeg g := rfl
end

/-! ### The cycle's own updates -/

section
variable (s : State) (d : Decoded) (c : Bool) (rel : Byte)

@[simp] theorem advance_gpr : (s.advance d).gpr = s.gpr := rfl
@[simp] theorem advance_sreg : (s.advance d).sreg = s.sreg := rfl
@[simp] theorem advance_ip : (s.advance d).ip = s.ip + BitVec.ofNat 16 d.len := rfl
@[simp] theorem advance_flags : (s.advance d).flags = s.flags := rfl
@[simp] theorem advance_mem : (s.advance d).mem = s.mem := rfl
@[simp] theorem advance_code : (s.advance d).code = s.code := rfl
@[simp] theorem advance_latch :
    (s.advance d).latch = some (d.instr.kind, d.instr.mnemonic) := rfl
@[simp] theorem advance_params : (s.advance d).params = s.params := rfl

theorem branchIf_eq : s.branchIf c rel =
    { s with ip := if c then s.ip + sext16 rel else s.ip } := by
  cases c <;> rfl

@[simp] theorem branchIf_gpr : (s.branchIf c rel).gpr = s.gpr := by cases c <;> rfl
@[simp] theorem branchIf_sreg : (s.branchIf c rel).sreg = s.sreg := by cases c <;> rfl
@[simp] theorem branchIf_ip :
    (s.branchIf c rel).ip = if c then s.ip + sext16 rel else s.ip := by cases c <;> rfl
@[simp] theorem branchIf_flags : (s.branchIf c rel).flags = s.flags := by cases c <;> rfl
@[simp] theorem branchIf_mem : (s.branchIf c rel).mem = s.mem := by cases c <;> rfl
@[simp] theorem branchIf_code : (s.branchIf c rel).code = s.code := by cases c <;> rfl
@[simp] theorem branchIf_latch : (s.branchIf c rel).latch = s.latch := by cases c <;> rfl
@[simp] theorem branchIf_params : (s.branchIf c rel).params = s.params := by cases c <;> rfl
end

end Sys2Proof.Machine
end

