-- ==== Sys2Proof/Laws/Bytes.lean ====
section
/-! SUPPORT. Words as pairs of bytes, halves of registers, and narrowing an integer to a pattern. -/

namespace Sys2Proof

@[simp] theorem loByte_joinWord (lo hi : Byte) : loByte (joinWord lo hi) = lo := by
  apply BitVec.eq_of_getLsbD_eq
  intro i hi'
  simp only [joinWord, loByte, BitVec.getLsbD_append, BitVec.getLsbD_extractLsb']
  simp [hi']

@[simp] theorem hiByte_joinWord (lo hi : Byte) : hiByte (joinWord lo hi) = hi := by
  apply BitVec.eq_of_getLsbD_eq
  intro i hi'
  simp only [joinWord, hiByte, BitVec.getLsbD_append, BitVec.getLsbD_extractLsb']
  simp [hi']

@[simp] theorem joinWord_halves (v : Word) : joinWord (loByte v) (hiByte v) = v := by
  apply BitVec.eq_of_getLsbD_eq
  intro i hi
  simp only [joinWord, loByte, hiByte, BitVec.getLsbD_append, BitVec.getLsbD_extractLsb']
  by_cases h : i < 8
  · simp [h]
  · have : 8 + (i - 8) = i := by omega
    have h2 : i - 8 < 8 := by omega
    simp [h, this, h2]

/-- A word is its high byte times 256 plus its low byte. -/
theorem toNat_joinWord (lo hi : Byte) : (joinWord lo hi).toNat = hi.toNat * 256 + lo.toNat := by
  simp only [joinWord, BitVec.toNat_append]
  rw [← Nat.shiftLeft_add_eq_or_of_lt lo.isLt, Nat.shiftLeft_eq]

theorem toNat_loByte (v : Word) : (loByte v).toNat = v.toNat % 256 := by
  simp [loByte, BitVec.extractLsb'_toNat]

theorem toNat_hiByte (v : Word) : (hiByte v).toNat = v.toNat / 256 := by
  have := v.isLt
  simp [hiByte, BitVec.extractLsb'_toNat, Nat.shiftRight_eq_div_pow]
  omega

/-- Adding a sign-extended byte adds the byte's two's-complement value modulo 2^16. -/
theorem toNat_add_sext16 (v : Word) (d : Byte) :
    ((v + sext16 d).toNat : Int) = (v.toNat + d.toInt) % 65536 := by
  have h := BitVec.toInt_eq_toNat_cond (sext16 d)
  rw [show (sext16 d).toInt = d.toInt by rw [sext16, BitVec.toInt_signExtend_of_le (by omega)]] at h
  rw [BitVec.toNat_add]
  split at h <;> omega

namespace Machine

@[simp] theorem halfOf_withHalf (h : Half) (v : Word) (b : Byte) : halfOf h (withHalf h v b) = b := by
  cases h <;> simp [halfOf, withHalf]

@[simp] theorem halfOf_other_withHalf (h : Half) (v : Word) (b : Byte) :
    halfOf (otherHalf h) (withHalf h v b) = halfOf (otherHalf h) v := by
  cases h <;> simp [halfOf, withHalf, otherHalf]

@[simp] theorem withHalf_halfOf (h : Half) (v : Word) : withHalf h v (halfOf h v) = v := by
  cases h <;> simp [halfOf, withHalf]

/-- Narrowing takes the value modulo 2^8. -/
theorem toNat_ofInt8 (r : Int) : ((BitVec.ofInt 8 r).toNat : Int) = r % 2 ^ 8 := by
  simp [BitVec.toNat_ofInt]
  omega

/-- Narrowing takes the value modulo 2^16. -/
theorem toNat_ofInt16 (r : Int) : ((BitVec.ofInt 16 r).toNat : Int) = r % 2 ^ 16 := by
  simp [BitVec.toNat_ofInt]
  omega

end Machine
end Sys2Proof
end

