-- ==== Sys2Proof/Laws/Memory.lean ====
section
/-! SUPPORT. The memory laws: read after write, and that every write keeps the canonical form. -/

namespace Sys2Proof.Machine

@[simp] theorem Memory.read_nil (a : Nat) : Memory.read [] a = 0 := rfl

theorem Memory.read_insert_same (m : Memory) (a : Nat) (v : Byte) (h : ∀ c ∈ m, c.1 ≠ a) :
    (Memory.insert m a v).read a = v := by
  induction m with
  | nil => simp [Memory.insert, Memory.read]
  | cons c m ih =>
    obtain ⟨k, b⟩ := c
    have hk : k ≠ a := h _ (List.mem_cons_self ..)
    have ih := ih fun c hc => h c (List.mem_cons_of_mem _ hc)
    by_cases hlt : a < k <;> simp [Memory.insert, Memory.read, hlt, hk, ih]

theorem Memory.read_insert_other (m : Memory) {a k : Nat} (v : Byte) (h : k ≠ a) :
    (Memory.insert m a v).read k = m.read k := by
  induction m with
  | nil => simp [Memory.insert, Memory.read, h.symm]
  | cons c m ih =>
    obtain ⟨j, b⟩ := c
    by_cases hlt : a < j <;> simp [Memory.insert, Memory.read, hlt, h.symm, ih]

theorem Memory.read_filter_same (m : Memory) (a : Nat) :
    Memory.read (m.filter (fun c => c.1 != a)) a = 0 := by
  induction m with
  | nil => rfl
  | cons c m ih =>
    obtain ⟨j, b⟩ := c
    by_cases hj : j = a <;> simp [hj, Memory.read, ih]

theorem Memory.read_filter_other (m : Memory) {a k : Nat} (h : k ≠ a) :
    Memory.read (m.filter (fun c => c.1 != a)) k = m.read k := by
  induction m with
  | nil => rfl
  | cons c m ih =>
    obtain ⟨j, b⟩ := c
    by_cases hj : j = a
    · subst hj; simp [Memory.read, h.symm, ih]
    · simp [hj, Memory.read, ih]

/-- A read after a write to the same address gives the value written. -/
@[simp] theorem Memory.read_write_same (m : Memory) (a : Nat) (v : Byte) :
    (m.write a v).read a = v := by
  unfold Memory.write
  by_cases hv : v = 0
  · simp [hv, Memory.read_filter_same]
  · simp only [hv, if_false]
    exact Memory.read_insert_same _ _ _ (by simp)

/-- A write leaves every other address alone. -/
theorem Memory.read_write_other (m : Memory) {a k : Nat} (v : Byte) (h : k ≠ a) :
    (m.write a v).read k = m.read k := by
  unfold Memory.write
  by_cases hv : v = 0
  · simp [hv, Memory.read_filter_other _ h]
  · simp only [hv, if_false]
    rw [Memory.read_insert_other _ _ h, Memory.read_filter_other _ h]

theorem Memory.read_write (m : Memory) (a k : Nat) (v : Byte) :
    (m.write a v).read k = if k = a then v else m.read k := by
  by_cases h : k = a
  · simp [h]
  · simp [h, Memory.read_write_other]

/-- The canonical form as a proposition. -/
theorem Memory.wf_iff (m : Memory) :
    m.wf = true ↔ m.Pairwise (fun x y => x.1 < y.1) ∧ ∀ c ∈ m, c.1 < 65536 ∧ c.2 ≠ 0 := by
  simp [Memory.wf]

theorem Memory.mem_insert {m : Memory} {a : Nat} {v : Byte} {c : Host.Cell}
    (h : c ∈ Memory.insert m a v) : c = (a, v) ∨ c ∈ m := by
  induction m with
  | nil => simpa [Memory.insert] using h
  | cons x m ih =>
    by_cases hlt : a < x.1
    · simpa [Memory.insert, hlt] using h
    · rcases (by simpa [Memory.insert, hlt] using h : c = x ∨ c ∈ Memory.insert m a v) with h | h
      · exact .inr (h ▸ List.mem_cons_self ..)
      · exact (ih h).imp id (List.mem_cons_of_mem _)

theorem Memory.pairwise_insert {m : Memory} {a : Nat} {v : Byte}
    (h : m.Pairwise (fun x y => x.1 < y.1)) (hne : ∀ c ∈ m, c.1 ≠ a) :
    (Memory.insert m a v).Pairwise (fun x y => x.1 < y.1) := by
  induction m with
  | nil => simp [Memory.insert]
  | cons x m ih =>
    obtain ⟨hx, hm⟩ := List.pairwise_cons.1 h
    by_cases hlt : a < x.1
    · simp only [Memory.insert, hlt, if_true]
      refine List.pairwise_cons.2 ⟨fun c hc => ?_, h⟩
      rcases List.mem_cons.1 hc with rfl | hc
      · exact hlt
      · exact hlt.trans (hx c hc)
    · simp only [Memory.insert, hlt, if_false]
      refine List.pairwise_cons.2 ⟨fun c hc => ?_, ih hm fun c hc => hne c (List.mem_cons_of_mem _ hc)⟩
      have hxa : x.1 < a := by
        have := hne x (List.mem_cons_self ..)
        omega
      rcases Memory.mem_insert hc with rfl | hc
      · exact hxa
      · exact hx c hc

/-- Every write to an address of the block keeps the canonical form. -/
theorem Memory.wf_write {m : Memory} {a : Nat} {v : Byte} (h : m.wf = true) (ha : a < 65536) :
    (m.write a v).wf = true := by
  obtain ⟨hp, hc⟩ := (Memory.wf_iff m).1 h
  have hpf := hp.filter (fun c => c.1 != a)
  have hcf : ∀ c ∈ m.filter (fun c => c.1 != a), c.1 < 65536 ∧ c.2 ≠ 0 :=
    fun c hc' => hc c (List.mem_filter.1 hc').1
  rw [Memory.wf_iff]
  unfold Memory.write
  by_cases hv : v = 0
  · simpa only [hv, if_true] using ⟨hpf, hcf⟩
  · simp only [hv, if_false]
    refine ⟨Memory.pairwise_insert hpf (by simp), fun c hc' => ?_⟩
    rcases Memory.mem_insert hc' with rfl | hc'
    · exact ⟨ha, hv⟩
    · exact hcf c hc'

/-- Reset's memory is in canonical form. -/
theorem Memory.reset_wf : State.reset.mem.wf = true := by decide

theorem memWrite8_wf {s : State} (a : Word) (b : Byte) (h : s.mem.wf = true) :
    (s.memWrite8 a b).mem.wf = true := Memory.wf_write h a.isLt

theorem memWrite16_wf {s : State} (a : Word) (v : Word) (h : s.mem.wf = true) :
    (s.memWrite16 a v).mem.wf = true := memWrite8_wf _ _ (memWrite8_wf _ _ h)

/-! ### Word accesses (20_memory.md R80, R81) -/

theorem succ_ne (a : Word) : (a + 1).toNat ≠ a.toNat := by
  have := a.isLt
  rw [BitVec.toNat_add]
  simp
  omega

@[simp] theorem memRead8_memWrite8 (s : State) (a : Word) (b : Byte) :
    (s.memWrite8 a b).memRead8 a = b := by simp [State.memRead8]

theorem memRead8_memWrite8_other (s : State) {a k : Word} (b : Byte) (h : k ≠ a) :
    (s.memWrite8 a b).memRead8 k = s.memRead8 k := by
  simpa [State.memRead8] using Memory.read_write_other s.mem b (by simpa [BitVec.toNat_inj] using h)

theorem succ_ne' (a : Word) : a + 1 ≠ a := fun h => succ_ne a (by rw [h])

end Sys2Proof.Machine
end

