-- ==== Sys2Proof/Laws/Operands.lean ====
section
/-! SUPPORT. What WriteOp changes and what ReadOp reads after it; what the shared steps mov and ALU and
the Unimplemented outcome can do. -/

namespace Sys2Proof.Machine

/-! ### WriteOp changes its location and nothing else -/

section
variable (s : State) (w : Width) (l : Loc) (v : Int) (a : Word)

@[simp] theorem memWrite_ip : (s.memWrite w a v).ip = s.ip := by cases w <;> rfl
@[simp] theorem memWrite_flags : (s.memWrite w a v).flags = s.flags := by cases w <;> rfl
@[simp] theorem memWrite_code : (s.memWrite w a v).code = s.code := by cases w <;> rfl
@[simp] theorem memWrite_latch : (s.memWrite w a v).latch = s.latch := by cases w <;> rfl
@[simp] theorem memWrite_params : (s.memWrite w a v).params = s.params := by cases w <;> rfl
@[simp] theorem memWrite_gpr : (s.memWrite w a v).gpr = s.gpr := by cases w <;> rfl
@[simp] theorem memWrite_sreg : (s.memWrite w a v).sreg = s.sreg := by cases w <;> rfl

@[simp] theorem writeLoc_ip : (s.writeLoc w l v).ip = s.ip := by
  cases l <;> simp [State.writeLoc, State.setR8, State.setR16]
@[simp] theorem writeLoc_flags : (s.writeLoc w l v).flags = s.flags := by
  cases l <;> simp [State.writeLoc, State.setR8, State.setR16]
@[simp] theorem writeLoc_code : (s.writeLoc w l v).code = s.code := by
  cases l <;> simp [State.writeLoc, State.setR8, State.setR16]
@[simp] theorem writeLoc_latch : (s.writeLoc w l v).latch = s.latch := by
  cases l <;> simp [State.writeLoc, State.setR8, State.setR16]
@[simp] theorem writeLoc_params : (s.writeLoc w l v).params = s.params := by
  cases l <;> simp [State.writeLoc, State.setR8, State.setR16]
end

/-- A memory write leaves every byte outside its own alone. -/
theorem memWrite_read_other (s : State) (w : Width) (a : Word) (v : Int) {k : Nat}
    (h : k ∉ accessBytes w a) : (s.memWrite w a v).mem.read k = s.mem.read k := by
  cases w with
  | byte =>
    have hk : k ≠ a.toNat := by simpa [accessBytes] using h
    simp [State.memWrite, Memory.read_write, hk]
  | word =>
    obtain ⟨h1, h2⟩ : k ≠ a.toNat ∧ k ≠ (a + 1).toNat := by simpa [accessBytes] using h
    simp only [State.memWrite, memWrite16_mem, Memory.read_write, h1, h2, if_false]

/-- A memory write keeps the canonical form. -/
theorem memWrite_wf {s : State} (w : Width) (a : Word) (v : Int) (h : s.mem.wf = true) :
    (s.memWrite w a v).mem.wf = true := by
  cases w
  · exact memWrite8_wf _ _ h
  · exact memWrite16_wf _ _ h

/-- WriteOp keeps the canonical form. -/
theorem writeLoc_wf {s : State} (w : Width) (l : Loc) (v : Int) (h : s.mem.wf = true) :
    (s.writeLoc w l v).mem.wf = true := by
  cases l with
  | mem b d => exact memWrite_wf w _ v h
  | direct a => exact memWrite_wf w a v h
  | _ => simpa [State.writeLoc, State.setR8, State.setR16] using h

/-- Everything WriteOp can change: the location, and of a byte register only its half. -/
theorem writeLoc_writesOnly (s : State) (w : Width) (l : Loc) (v : Int) :
    WritesOnly s (s.writeLoc w l v) w l := by
  cases l with
  | reg8 n =>
    refine ⟨⟨fun r hr => ?_, fun _ _ => rfl, fun _ _ => rfl, rfl, rfl, rfl⟩, ?_⟩
    · exact getReg_setReg_other s _ (by simpa [locRegs] using hr)
    · simp [OtherHalfKept, State.writeLoc, State.setR8]
  | reg16 n =>
    refine ⟨⟨fun r hr => ?_, fun _ _ => rfl, fun _ _ => rfl, rfl, rfl, rfl⟩, trivial⟩
    exact getReg_setReg_other s _ (by simpa [locRegs] using hr)
  | sreg g =>
    refine ⟨⟨fun _ _ => rfl, fun f hf => ?_, fun _ _ => rfl, rfl, rfl, rfl⟩, trivial⟩
    exact getSeg_setSeg_other s _ (by simpa [locSegs] using hf)
  | mem b d =>
    refine ⟨⟨fun r _ => ?_, fun g _ => ?_, fun k hk => memWrite_read_other s w _ v hk, by simp, by simp,
      by simp⟩, trivial⟩
    · cases w <;> rfl
    · cases w <;> rfl
  | direct a =>
    refine ⟨⟨fun r _ => ?_, fun g _ => ?_, fun k hk => memWrite_read_other s w a v hk, by simp, by simp,
      by simp⟩, trivial⟩
    · cases w <;> rfl
    · cases w <;> rfl

/-! ### ReadOp after WriteOp -/

/-- The bits that a location holds at a width: a register its own, memory those of the width. -/
def locBits (w : Width) : Loc → Nat
  | .reg8 _  => 8
  | .reg16 _ | .sreg _ => 16
  | .mem _ _ | .direct _ => widthBits w

/-- A memory read after a write of the same width gives the value modulo the width. -/
theorem memRead_memWrite (s : State) (w : Width) (a : Word) (v : Int) :
    ((s.memWrite w a v).memRead w a : Int) = v % 2 ^ widthBits w := by
  cases w with
  | byte => simpa [State.memWrite, State.memRead, widthBits] using toNat_ofInt8 v
  | word =>
    have h : (s.memWrite16 a (BitVec.ofInt 16 v)).memRead16 a = BitVec.ofInt 16 v := by
      simp only [State.memWrite16, State.memRead16, memRead8_memWrite8,
        memRead8_memWrite8_other _ _ (succ_ne' a).symm, joinWord_halves]
    simp only [State.memWrite, State.memRead, h, widthBits]
    exact toNat_ofInt16 v

@[simp] theorem base_memWrite (s : State) (w : Width) (a : Word) (v : Int) (b : Base) :
    (s.memWrite w a v).base b = s.base b := by cases w <;> cases b <;> rfl

/-- ReadOp after WriteOp gives the value modulo the location's bits. -/
theorem readLoc_writeLoc (s : State) (w : Width) (l : Loc) (v : Int) :
    ((s.writeLoc w l v).readLoc w l : Int) = v % 2 ^ locBits w l := by
  cases l with
  | reg8 n => simpa [State.writeLoc, State.readLoc, State.setR8, State.r8, locBits] using toNat_ofInt8 v
  | reg16 n =>
    simpa [State.writeLoc, State.readLoc, State.setR16, State.r16, locBits] using toNat_ofInt16 v
  | sreg g => simpa [State.writeLoc, State.readLoc, locBits] using toNat_ofInt16 v
  | mem b d => simpa [State.writeLoc, State.readLoc, State.ea, locBits] using memRead_memWrite s w _ v
  | direct a => exact memRead_memWrite s w a v

/-- A location reads as a pattern of its own bits. -/
theorem readLoc_lt (s : State) (w : Width) (l : Loc) : s.readLoc w l < 2 ^ locBits w l := by
  cases l with
  | reg8 n => exact (s.r8 n).isLt
  | reg16 n => exact (s.r16 n).isLt
  | sreg g => exact (s.getSeg g).isLt
  | mem b d =>
    cases w
    · exact (s.memRead8 _).isLt
    · exact (s.memRead16 _).isLt
  | direct a =>
    cases w
    · exact (s.memRead8 a).isLt
    · exact (s.memRead16 a).isLt

@[simp] theorem locBits_regLoc (w : Width) (n : BitVec 3) : locBits w (regLoc w n) = widthBits w := by
  cases w <;> rfl

@[simp] theorem locBits_rmLoc (w : Width) (rm : Rm) : locBits w (rm.loc w) = widthBits w := by
  cases rm <;> cases w <;> rfl

@[simp] theorem locBits_rmRegDst (d : Dir) (w : Width) (reg : BitVec 3) (rm : Rm) :
    locBits w (rmRegDst d w reg rm) = widthBits w := by cases d <;> simp [rmRegDst]

@[simp] theorem locBits_rmRegSrc (d : Dir) (w : Width) (reg : BitVec 3) (rm : Rm) :
    locBits w (rmRegSrc d w reg rm) = widthBits w := by cases d <;> simp [rmRegSrc]

@[simp] theorem locBits_accLoc (w : Width) : locBits w (accLoc w) = widthBits w := by
  cases w <;> rfl

/-- An immediate is a pattern of its width. -/
theorem immValue_lt (imm : Imm) : immValue imm < 2 ^ widthBits imm.width := by
  cases imm with
  | byte v => exact v.isLt
  | word v => exact v.isLt

@[simp] theorem width_value (imm : AluImm) : imm.value.width = imm.width := by cases imm <;> rfl

/-! ### The shared steps -/

/-- What a mov does: its destination reads as the source read, and nothing else changes. -/
theorem move_spec (s : State) (w : Width) (dst : Loc) (src : Operand)
    (hfit : s.readOp w src < 2 ^ locBits w dst) :
    (move w dst src s).readLoc w dst = s.readOp w src ∧
      WritesOnly s (move w dst src s) w dst ∧
      (move w dst src s).flags = s.flags ∧ (move w dst src s).ip = s.ip := by
  refine ⟨?_, writeLoc_writesOnly .., by simp [move], by simp [move]⟩
  have h := readLoc_writeLoc s w dst (s.readOp w src)
  rw [Int.emod_eq_of_lt (by omega) (by exact_mod_cast hfit)] at h
  exact_mod_cast h

/-- The intermediate result of an ALU step (41_arith.md R192). -/
def aluIntermediate (op : AluOp) (w : Width) (dst : Loc) (src : Operand) (s : State) : Int :=
  aluResult op (operandInt s.params.operandRead w (s.readLoc w dst))
    (operandInt s.params.operandRead w (s.readOp w src))

/-- The flags after an ALU step. -/
@[simp] theorem alu_flags (op : AluOp) (w : Width) (dst : Loc) (src : Operand) (s : State) :
    (alu op w dst src s).flags = flagUnit s.params.afRule op (aluIntermediate op w dst src s)
      (operandInt s.params.operandRead w (s.readOp w src)) w s.flags := rfl

/-- add and sub store the intermediate; the flags apart, that is all they do. -/
theorem alu_stores {op : AluOp} (hop : op ≠ .cmp) (w : Width) (dst : Loc) (src : Operand) (s : State) :
    alu op w dst src s = { s.writeLoc w dst (aluIntermediate op w dst src s) with
      flags := (alu op w dst src s).flags } := by
  cases op <;> first | rfl | exact absurd rfl hop

/-- cmp changes the flags and nothing else. -/
theorem alu_cmp (w : Width) (dst : Loc) (src : Operand) (s : State) :
    alu .cmp w dst src s = { s with flags := (alu .cmp w dst src s).flags } := rfl

theorem unimplemented_noOp {s : State} (i : Instr) (h : s.params.unimpl = .noOp) :
    unimplemented i s = .next s := by simp [unimplemented, h]

theorem unimplemented_refuse {s : State} (i : Instr) (h : s.params.unimpl = .refuse) :
    unimplemented i s = .refused (.unimplemented (s.ip - BitVec.ofNat 16 i.length) i.mnemonic) := by
  simp [unimplemented, h]

/-- An Unimplemented form that answers a next state has changed nothing. -/
theorem unimplemented_next {i : Instr} {s t : State} (h : unimplemented i s = .next t) : t = s := by
  unfold unimplemented at h
  split at h <;> cases h
  rfl

end Sys2Proof.Machine
end

