-- ==== Sys2Proof/Laws/PerInstr.lean ====
section
/-! SUPPORT. Facts about each instruction as syntax: how many bytes its encoding has. -/

namespace Sys2Proof.Laws.EncodeShape

/-- The encoding of an instruction has the bytes that the decoder reads for it, and its length lies
between 2 and 6 (00_scope.md R14). -/
def Statement (i : Instr) : Prop :=
  (∀ p : Params, (encode p i).length = i.bytesRead p) ∧ 2 ≤ i.length ∧ i.length ≤ 6

@[simp] theorem dispBytes_length (rm : Rm) : rm.dispBytes.length = rm.dispLen := by cases rm <;> rfl
@[simp] theorem imm_length (imm : Imm) : imm.encode.length = imm.width.bytes := by cases imm <;> rfl
@[simp] theorem aluImm_length (imm : AluImm) : imm.encode.length = imm.bytes := by cases imm <;> rfl

theorem dispLen_le (rm : Rm) : rm.dispLen ≤ 2 := by cases rm <;> simp [Rm.dispLen]
theorem width_bytes_bounds (w : Width) : 1 ≤ w.bytes ∧ w.bytes ≤ 2 := by cases w <;> simp [Width.bytes]
theorem aluImm_bytes_bounds (imm : AluImm) : 1 ≤ imm.bytes ∧ imm.bytes ≤ 2 := by
  cases imm <;> simp [AluImm.bytes]

theorem encodeAcc_length (p : Params) (d : BitVec 1) (w : Width) (addr : Word) :
    (encodeAcc p d w addr).length = if w = .byte ∧ p.acc8 = .lo8 then 2 else 3 := by
  cases w <;> cases h : p.acc8 <;> simp [encodeAcc, h, wordBytes]

theorem rmRegShape (op : BitVec 6) (d : Dir) (w : Width) (reg : BitVec 3) (rm : Rm) :
    (encodeRmReg op d w reg rm).length = 2 + rm.dispLen := by
  simp [encodeRmReg]; omega

theorem sregShape (op : Byte) (g : SegReg) (rm : Rm) :
    (encodeSreg op g rm).length = 2 + rm.dispLen := by
  simp [encodeSreg]; omega

theorem aluImmRmShape (ext : BitVec 3) (rm : Rm) (imm : AluImm) :
    (encodeAluImmRm ext rm imm).length = 2 + rm.dispLen + imm.bytes := by
  simp [encodeAluImmRm]; omega

theorem aluImmAccShape (op : BitVec 7) (imm : Imm) :
    (encodeAluImmAcc op imm).length = 1 + imm.width.bytes := by
  simp [encodeAluImmAcc]; omega

theorem movRmReg (d : Dir) (w : Width) (reg : BitVec 3) (rm : Rm) : Statement (.movRmReg d w reg rm) :=
  ⟨fun _ => rmRegShape .., by simp [Instr.length], by have := dispLen_le rm; simp [Instr.length]; omega⟩

theorem movImmRm (rm : Rm) (imm : Imm) : Statement (.movImmRm rm imm) := by
  have := dispLen_le rm
  have := width_bytes_bounds imm.width
  exact ⟨fun p => by simp [encode, Instr.bytesRead, Instr.length]; omega,
    by simp [Instr.length]; omega, by simp [Instr.length]; omega⟩

theorem movImmReg (reg : BitVec 3) (imm : Imm) : Statement (.movImmReg reg imm) := by
  have := width_bytes_bounds imm.width
  exact ⟨fun p => by simp [encode, Instr.bytesRead, Instr.length]; omega,
    by simp [Instr.length]; omega, by simp [Instr.length]; omega⟩

theorem movMemAcc (w : Width) (addr : Word) : Statement (.movMemAcc w addr) := by
  refine ⟨fun p => (encodeAcc_length p 0 w addr).trans ?_, ?_, ?_⟩
  · cases w <;> cases h : p.acc8 <;> simp [Instr.bytesRead, Instr.length, Width.bytes, h]
  · cases w <;> simp [Instr.length, Width.bytes]
  · cases w <;> simp [Instr.length, Width.bytes]

theorem movAccMem (w : Width) (addr : Word) : Statement (.movAccMem w addr) := by
  refine ⟨fun p => (encodeAcc_length p 1 w addr).trans ?_, ?_, ?_⟩
  · cases w <;> cases h : p.acc8 <;> simp [Instr.bytesRead, Instr.length, Width.bytes, h]
  · cases w <;> simp [Instr.length, Width.bytes]
  · cases w <;> simp [Instr.length, Width.bytes]

theorem movRmSreg (g : SegReg) (rm : Rm) : Statement (.movRmSreg g rm) :=
  ⟨fun _ => sregShape .., by simp [Instr.length], by have := dispLen_le rm; simp [Instr.length]; omega⟩

theorem movSregRm (g : SegReg) (rm : Rm) : Statement (.movSregRm g rm) :=
  ⟨fun _ => sregShape .., by simp [Instr.length], by have := dispLen_le rm; simp [Instr.length]; omega⟩

theorem addRmReg (d : Dir) (w : Width) (reg : BitVec 3) (rm : Rm) : Statement (.addRmReg d w reg rm) :=
  ⟨fun _ => rmRegShape .., by simp [Instr.length], by have := dispLen_le rm; simp [Instr.length]; omega⟩

theorem addImmRm (rm : Rm) (imm : AluImm) : Statement (.addImmRm rm imm) := by
  have := dispLen_le rm
  have := aluImm_bytes_bounds imm
  exact ⟨fun _ => aluImmRmShape .., by simp [Instr.length]; omega, by simp [Instr.length]; omega⟩

theorem addImmAcc (imm : Imm) : Statement (.addImmAcc imm) := by
  have := width_bytes_bounds imm.width
  exact ⟨fun _ => aluImmAccShape .., by simp [Instr.length]; omega, by simp [Instr.length]; omega⟩

theorem subRmReg (d : Dir) (w : Width) (reg : BitVec 3) (rm : Rm) : Statement (.subRmReg d w reg rm) :=
  ⟨fun _ => rmRegShape .., by simp [Instr.length], by have := dispLen_le rm; simp [Instr.length]; omega⟩

theorem subImmRm (rm : Rm) (imm : AluImm) : Statement (.subImmRm rm imm) := by
  have := dispLen_le rm
  have := aluImm_bytes_bounds imm
  exact ⟨fun _ => aluImmRmShape .., by simp [Instr.length]; omega, by simp [Instr.length]; omega⟩

theorem subImmAcc (imm : Imm) : Statement (.subImmAcc imm) := by
  have := width_bytes_bounds imm.width
  exact ⟨fun _ => aluImmAccShape .., by simp [Instr.length]; omega, by simp [Instr.length]; omega⟩

theorem cmpRmReg (d : Dir) (w : Width) (reg : BitVec 3) (rm : Rm) : Statement (.cmpRmReg d w reg rm) :=
  ⟨fun _ => rmRegShape .., by simp [Instr.length], by have := dispLen_le rm; simp [Instr.length]; omega⟩

theorem cmpImmRm (rm : Rm) (imm : AluImm) : Statement (.cmpImmRm rm imm) := by
  have := dispLen_le rm
  have := aluImm_bytes_bounds imm
  exact ⟨fun _ => aluImmRmShape .., by simp [Instr.length]; omega, by simp [Instr.length]; omega⟩

theorem cmpImmAcc (imm : Imm) : Statement (.cmpImmAcc imm) := by
  have := width_bytes_bounds imm.width
  exact ⟨fun _ => aluImmAccShape .., by simp [Instr.length]; omega, by simp [Instr.length]; omega⟩

theorem jccShape {i : Instr} (h : ∀ p, (encode p i).length = 2) (hr : ∀ p, i.bytesRead p = 2)
    (hl : i.length = 2) : Statement i :=
  ⟨fun p => (h p).trans (hr p).symm, by omega, by omega⟩

theorem jo (rel : Byte) : Statement (.jo rel) := jccShape (fun _ => rfl) (fun _ => rfl) rfl
theorem jno (rel : Byte) : Statement (.jno rel) := jccShape (fun _ => rfl) (fun _ => rfl) rfl
theorem jb (rel : Byte) : Statement (.jb rel) := jccShape (fun _ => rfl) (fun _ => rfl) rfl
theorem jnb (rel : Byte) : Statement (.jnb rel) := jccShape (fun _ => rfl) (fun _ => rfl) rfl
theorem je (rel : Byte) : Statement (.je rel) := jccShape (fun _ => rfl) (fun _ => rfl) rfl
theorem jne (rel : Byte) : Statement (.jne rel) := jccShape (fun _ => rfl) (fun _ => rfl) rfl
theorem jbe (rel : Byte) : Statement (.jbe rel) := jccShape (fun _ => rfl) (fun _ => rfl) rfl
theorem ja (rel : Byte) : Statement (.ja rel) := jccShape (fun _ => rfl) (fun _ => rfl) rfl
theorem js (rel : Byte) : Statement (.js rel) := jccShape (fun _ => rfl) (fun _ => rfl) rfl
theorem jns (rel : Byte) : Statement (.jns rel) := jccShape (fun _ => rfl) (fun _ => rfl) rfl
theorem jp (rel : Byte) : Statement (.jp rel) := jccShape (fun _ => rfl) (fun _ => rfl) rfl
theorem jnp (rel : Byte) : Statement (.jnp rel) := jccShape (fun _ => rfl) (fun _ => rfl) rfl
theorem jl (rel : Byte) : Statement (.jl rel) := jccShape (fun _ => rfl) (fun _ => rfl) rfl
theorem jnl (rel : Byte) : Statement (.jnl rel) := jccShape (fun _ => rfl) (fun _ => rfl) rfl
theorem jle (rel : Byte) : Statement (.jle rel) := jccShape (fun _ => rfl) (fun _ => rfl) rfl
theorem jg (rel : Byte) : Statement (.jg rel) := jccShape (fun _ => rfl) (fun _ => rfl) rfl
theorem loopnz (rel : Byte) : Statement (.loopnz rel) := jccShape (fun _ => rfl) (fun _ => rfl) rfl
theorem loopz (rel : Byte) : Statement (.loopz rel) := jccShape (fun _ => rfl) (fun _ => rfl) rfl
theorem loop (rel : Byte) : Statement (.loop rel) := jccShape (fun _ => rfl) (fun _ => rfl) rfl
theorem jcxz (rel : Byte) : Statement (.jcxz rel) := jccShape (fun _ => rfl) (fun _ => rfl) rfl

end Sys2Proof.Laws.EncodeShape
end

