-- ==== Sys2Proof/Laws/Decode.lean ====
section
/-! SUPPORT. The decoder on encoded instructions: fields, operands, immediates and classification, one
lemma for each format. -/

namespace Sys2Proof

/-! ### Fields, operands and immediates -/
/-- The MOD field of a MOD/REG/RM byte. -/
@[simp] theorem modRmByte_mod (g : BitVec 3) (rm : Rm) : (modRmByte g rm).extractLsb' 6 2 = rm.modCode := by
  unfold modRmByte
  generalize rm.modCode = m; generalize rm.rmCode = r
  revert g m r; decide
/-- The REG field of a MOD/REG/RM byte. -/
@[simp] theorem modRmByte_reg (g : BitVec 3) (rm : Rm) : (modRmByte g rm).extractLsb' 3 3 = g := by
  unfold modRmByte
  generalize rm.modCode = m; generalize rm.rmCode = r
  revert g m r; decide
/-- The RM field of a MOD/REG/RM byte. -/
@[simp] theorem modRmByte_rm (g : BitVec 3) (rm : Rm) : (modRmByte g rm).extractLsb' 0 3 = rm.rmCode := by
  unfold modRmByte
  generalize rm.modCode = m; generalize rm.rmCode = r
  revert g m r; decide

@[simp] theorem byteAt_zero (b : Byte) (bs : List Byte) : byteAt (b :: bs) 0 = b := rfl
@[simp] theorem byteAt_succ (b : Byte) (bs : List Byte) (n : Nat) : byteAt (b :: bs) (n + 1) = byteAt bs n := rfl
@[simp] theorem wordAt_succ (b : Byte) (bs : List Byte) (n : Nat) : wordAt (b :: bs) (n + 1) = wordAt bs n := rfl
/-- A word written as two code bytes reads back. -/
@[simp] theorem wordAt_wordBytes (v : Word) (rest : List Byte) : wordAt (wordBytes v ++ rest) 0 = v := by
  simp [wordAt, wordBytes]
@[simp] theorem wordBytes_length (v : Word) : (wordBytes v).length = 2 := rfl

@[simp] theorem ofCode_code (b : Base) : Base.ofCode b.code = b := by cases b <;> rfl
@[simp] theorem segOfCode_code (g : SegReg) : SegReg.ofCode g.code = g := by cases g <;> rfl
@[simp] theorem ofBit_bit (w : Width) : Width.ofBit (w.bit[0]) = w := by cases w <;> rfl
@[simp] theorem dirOfBit_bit (d : Dir) : Dir.ofBit (d.bit[0]) = d := by cases d <;> rfl

theorem base_code_ne {b : Base} (h : b ≠ .bp) : ¬ b.code = 6#3 := by cases b <;> first | decide | exact absurd rfl h

/-- The displacement count of an operand's codes. -/
@[simp] theorem ndisp_codes {rm : Rm} (h : rm.wf = true) : ndisp rm.modCode rm.rmCode = rm.dispLen := by
  cases rm with
  | mem b =>
    have hb : b ≠ .bp := by rintro rfl; simp [Rm.wf] at h
    simp [ndisp, Rm.modCode, Rm.rmCode, Rm.dispLen, base_code_ne hb]
  | _ => simp [ndisp, Rm.modCode, Rm.rmCode, Rm.dispLen]

/-- Resolving an operand's codes and displacement bytes gives the operand. -/
@[simp] theorem resolveRm_codes {rm : Rm} (h : rm.wf = true) (b0 b1 : Byte) (rest : List Byte) :
    resolveRm rm.modCode rm.rmCode (b0 :: b1 :: (rm.dispBytes ++ rest)) = rm := by
  cases rm with
  | mem b =>
    have hb : b ≠ .bp := by rintro rfl; simp [Rm.wf] at h
    simp [resolveRm, Rm.modCode, Rm.rmCode, base_code_ne hb]
  | _ => simp [resolveRm, Rm.modCode, Rm.rmCode, Rm.dispBytes]

theorem byteAt_append {xs ys : List Byte} (n : Nat) : byteAt (xs ++ ys) (xs.length + n) = byteAt ys n := by
  simp [byteAt, List.getElem?_append_right]
theorem wordAt_append {xs ys : List Byte} (n : Nat) : wordAt (xs ++ ys) (xs.length + n) = wordAt ys n := by
  simp only [wordAt, Nat.add_assoc, byteAt_append]

/-- The immediate behind the displacement reads back. -/
@[simp] theorem immAt_codes {rm : Rm} (h : rm.wf = true) (imm : Imm) (b0 b1 : Byte) (rest : List Byte) :
    immAt imm.width (baseLen rm.modCode rm.rmCode) (b0 :: b1 :: (rm.dispBytes ++ (imm.encode ++ rest))) = imm := by
  have hl : baseLen rm.modCode rm.rmCode = (b0 :: b1 :: rm.dispBytes).length + 0 := by
    simp [baseLen, ndisp_codes h]; omega
  have happ : b0 :: b1 :: (rm.dispBytes ++ (imm.encode ++ rest)) = (b0 :: b1 :: rm.dispBytes) ++ (imm.encode ++ rest) := by simp
  rw [happ, hl]
  cases imm with
  | byte v => simp only [immAt, Imm.width, byteAt_append]; simp [Imm.encode]
  | word v => simp only [immAt, Imm.width, wordAt_append]; simp [Imm.encode]

/-- The immediate right after the opcode reads back. -/
@[simp] theorem immAt_one (imm : Imm) (b0 : Byte) (rest : List Byte) :
    immAt imm.width 1 (b0 :: (imm.encode ++ rest)) = imm := by
  cases imm <;> simp [immAt, Imm.width, Imm.encode]

/-- Whether the bit S of an arithmetic immediate is set (30_encoding.md R116). -/
def AluImm.s : AluImm → Bool
  | .sextByte _ => true
  | _ => false

/-- The arithmetic immediate behind the displacement reads back. -/
@[simp] theorem aluImmAt_codes {rm : Rm} (h : rm.wf = true) (imm : AluImm) (b0 b1 : Byte) (rest : List Byte) :
    aluImmAt imm.width imm.s (baseLen rm.modCode rm.rmCode) (b0 :: b1 :: (rm.dispBytes ++ (imm.encode ++ rest))) = imm := by
  have hl : baseLen rm.modCode rm.rmCode = (b0 :: b1 :: rm.dispBytes).length + 0 := by
    simp [baseLen, ndisp_codes h]; omega
  have happ : b0 :: b1 :: (rm.dispBytes ++ (imm.encode ++ rest)) = (b0 :: b1 :: rm.dispBytes) ++ (imm.encode ++ rest) := by simp
  rw [happ, hl]
  cases imm with
  | byte v => simp only [aluImmAt, AluImm.width, byteAt_append]; simp [AluImm.encode]
  | word v => simp only [aluImmAt, AluImm.width, AluImm.s, wordAt_append]; simp [AluImm.encode]
  | sextByte v => simp only [aluImmAt, AluImm.width, AluImm.s, byteAt_append]; simp [AluImm.encode]

/-! ### The classifier -/
/-- The classifier reads b1 through its ByteTwo field only. -/
theorem classifyTables_ext (b0 b1 : Byte) :
    classifyTables b0 b1 = classifyTables b0 (0#2 ++ b1.extractLsb' 3 3 ++ 0#3) := by
  have : (0#2 ++ b1.extractLsb' 3 3 ++ 0#3 : BitVec 8).extractLsb' 3 3 = b1.extractLsb' 3 3 := by
    generalize b1.extractLsb' 3 3 = e
    revert e; decide
  simp only [classifyTables, testT6, this]

/-- A mapped classification does not depend on the policy or the latch. -/
theorem classify_mapped {p : Params} {latch : Option (Kind × Mnemonic)} {b0 b1 : Byte} {k : Kind} {m : Mnemonic}
    (h : classifyTables b0 b1 = some (k, some m)) : classify p latch b0 b1 = .ok (k, m) := by
  simp [classify, h]


theorem class_movRmReg (d w : BitVec 1) (b1 : Byte) :
    classifyTables (0b100010#6 ++ d ++ w) b1 = some (.rmReg, some .mov) := by
  rw [classifyTables_ext]; generalize b1.extractLsb' 3 3 = e; revert d w e; decide
theorem class_addRmReg (d w : BitVec 1) (b1 : Byte) :
    classifyTables (0b000000#6 ++ d ++ w) b1 = some (.rmReg, some .add) := by
  rw [classifyTables_ext]; generalize b1.extractLsb' 3 3 = e; revert d w e; decide
theorem class_subRmReg (d w : BitVec 1) (b1 : Byte) :
    classifyTables (0b001010#6 ++ d ++ w) b1 = some (.rmReg, some .sub) := by
  rw [classifyTables_ext]; generalize b1.extractLsb' 3 3 = e; revert d w e; decide
theorem class_cmpRmReg (d w : BitVec 1) (b1 : Byte) :
    classifyTables (0b001110#6 ++ d ++ w) b1 = some (.rmReg, some .cmp) := by
  rw [classifyTables_ext]; generalize b1.extractLsb' 3 3 = e; revert d w e; decide

theorem opDW_d (op : BitVec 6) (d w : BitVec 1) : (op ++ d ++ w : BitVec 8)[1] = d[0] := by
  revert op d w; decide
theorem opDW_w (op : BitVec 6) (d w : BitVec 1) : (op ++ d ++ w : BitVec 8)[0] = w[0] := by
  revert op d w; decide

/-- The stages after the classifier succeed where the length, the bytes and the assembly do. -/
theorem decodeAs_ok {p : Params} {k : Kind} {m : Mnemonic} {b0 b1 : Byte} {bs : List Byte} {f : Fields} {len : Nat}
    {i : Instr} (hf : extractFields k m b0 b1 = f) (hl : lengthCalc m f = some len)
    (hn : bytesNeeded p f len ≤ bs.length) (ha : assemble p m f bs = some i) :
    decodeAs p k m b0 b1 bs = .ok ⟨b0, f, i, len⟩ := by
  subst hf
  simp [decodeAs, hl, Nat.not_lt.2 hn, ha]

/-- Decoding a mapped first byte is the stages after the classifier. -/
theorem decode_cons {p : Params} {latch : Option (Kind × Mnemonic)} {b0 b1 : Byte} {rest : List Byte} {k : Kind} {m : Mnemonic}
    (h : classifyTables b0 b1 = some (k, some m)) :
    decode p latch (b0 :: b1 :: rest) = decodeAs p k m b0 b1 (b0 :: b1 :: rest) := by
  simp [decode, classify_mapped h]

/-- Format F_RMREG decodes (30_encoding.md R134). -/
theorem decode_rmReg {p : Params} {latch : Option (Kind × Mnemonic)} {op : BitVec 6} {m : Mnemonic} {d : Dir} {w : Width} {reg : BitVec 3}
    {rm : Rm} {rest : List Byte} {mk : Dir → Width → BitVec 3 → Rm → Instr}
    (hc : ∀ b1, classifyTables (op ++ d.bit ++ w.bit) b1 = some (.rmReg, some m))
    (hm : m.isData = true)
    (ha : ∀ dd ww mod reg rm bs, assemble p m (.rmReg dd ww mod reg rm) bs = some (mk (.ofBit dd) ww reg (resolveRm mod rm bs)))
    (h : rm.wf = true) :
    decode p latch (encodeRmReg op d w reg rm ++ rest) =
      .ok ⟨op ++ d.bit ++ w.bit, .rmReg d.bit[0] w rm.modCode reg rm.rmCode, mk d w reg rm, 2 + rm.dispLen⟩ := by
  have he : extractFields .rmReg m (op ++ d.bit ++ w.bit) (modRmByte reg rm) =
      .rmReg d.bit[0] w rm.modCode reg rm.rmCode := by
    simp [extractFields, opDW_d, opDW_w]
  simp only [encodeRmReg, List.cons_append]
  rw [decode_cons (hc _)]
  apply decodeAs_ok he
  · simp [lengthCalc, hm, baseLen, ndisp_codes h]
  · simp [bytesNeeded]; omega
  · rw [ha]; simp [resolveRm_codes h]


theorem class_movImmRm (w : BitVec 1) (b1 : Byte) :
    classifyTables (0b1100011#7 ++ w) b1 = some (.immRm, some .mov) := by
  rw [classifyTables_ext]; generalize b1.extractLsb' 3 3 = e; revert w e; decide
theorem class_movImmReg (w : BitVec 1) (reg : BitVec 3) (b1 : Byte) :
    classifyTables (0b1011#4 ++ w ++ reg) b1 = some (.immReg, some .mov) := by
  rw [classifyTables_ext]; generalize b1.extractLsb' 3 3 = e; revert w reg e; decide
theorem class_acc (d w : BitVec 1) (b1 : Byte) :
    classifyTables (0b101000#6 ++ d ++ w) b1 = some (.acc, some .mov) := by
  rw [classifyTables_ext]; generalize b1.extractLsb' 3 3 = e; revert d w e; decide
theorem class_sreg (b1 : Byte) :
    classifyTables 0x8E b1 = some (.rmSreg, some .mov) ∧ classifyTables 0x8C b1 = some (.rmSreg, some .mov) := by
  rw [classifyTables_ext, classifyTables_ext 0x8C]; generalize b1.extractLsb' 3 3 = e; revert e; decide
theorem class_group (s w : BitVec 1) (b1 : Byte) :
    classifyTables (0b100000#6 ++ s ++ w) b1 = some (.immRm, byteTwo (b1.extractLsb' 3 3)) := by
  rw [classifyTables_ext]; generalize b1.extractLsb' 3 3 = e; revert s w e; decide
theorem class_aluAcc (w : BitVec 1) (b1 : Byte) :
    classifyTables (0b0000010#7 ++ w) b1 = some (.immReg, some .add) ∧
    classifyTables (0b0010110#7 ++ w) b1 = some (.immReg, some .sub) ∧
    classifyTables (0b0011110#7 ++ w) b1 = some (.immReg, some .cmp) := by
  rw [classifyTables_ext, classifyTables_ext (0b0010110#7 ++ w), classifyTables_ext (0b0011110#7 ++ w)]
  generalize b1.extractLsb' 3 3 = e; revert w e; decide

theorem op7_w (op : BitVec 7) (w : BitVec 1) : (op ++ w : BitVec 8)[0] = w[0] := by revert op w; decide
theorem op4_w (op : BitVec 4) (w : BitVec 1) (reg : BitVec 3) : (op ++ w ++ reg : BitVec 8)[3] = w[0] := by
  revert op w reg; decide
theorem op4_reg (op : BitVec 4) (w : BitVec 1) (reg : BitVec 3) : (op ++ w ++ reg : BitVec 8).extractLsb' 0 3 = reg := by
  revert op w reg; decide
theorem sr_bits (g : BitVec 2) (rm : Rm) : (modRmByte (0#1 ++ g) rm).extractLsb' 3 2 = g := by
  unfold modRmByte
  generalize rm.modCode = m; generalize rm.rmCode = r
  revert g m r; decide

theorem imm_cons (imm : Imm) (rest : List Byte) : ∃ b1 t, imm.encode ++ rest = b1 :: t := by
  cases imm <;> simp [Imm.encode, wordBytes]

/-- Format F_IMMREG, arithmetic, decodes (30_encoding.md R136). -/
theorem decode_aluAcc {p : Params} {latch : Option (Kind × Mnemonic)} {op : BitVec 7} {m : Mnemonic} {imm : Imm} {rest : List Byte} {mk : Imm → Instr}
    (hc : ∀ b1, classifyTables (op ++ imm.width.bit) b1 = some (.immReg, some m))
    (hm : m.isAlu = true) (hm' : m ≠ .mov)
    (ha : ∀ w reg bs, assemble p m (.immReg w reg) bs = some (mk (immAt w 1 bs))) :
    decode p latch (encodeAluImmAcc op imm ++ rest) = 
      .ok ⟨op ++ imm.width.bit, .immReg imm.width 0, mk imm, 1 + imm.width.bytes⟩ := by
  have he : ∀ b1, extractFields .immReg m (op ++ imm.width.bit) b1 = .immReg imm.width 0 := by
    intro b1; simp [extractFields, op7_w, hm']
  obtain ⟨b1, t, ht⟩ := imm_cons imm rest
  have hlen : (imm.encode ++ rest).length = t.length + 1 := by simp [ht]
  simp only [encodeAluImmAcc, List.cons_append, ht]
  rw [decode_cons (hc _)]
  apply decodeAs_ok (he _)
  · simp [lengthCalc, Mnemonic.isData, hm]
  · simp at hlen; simp [bytesNeeded]; omega
  · rw [← ht, ha]; simp

/-- Format F_IMMRM, arithmetic, decodes (30_encoding.md R135). -/
theorem decode_aluImmRm {p : Params} {latch : Option (Kind × Mnemonic)} {ext : BitVec 3} {m : Mnemonic} {rm : Rm} {imm : AluImm} {rest : List Byte}
    {mk : Rm → AluImm → Instr}
    (hx : byteTwo ext = some m) (hm : m.isAlu = true)
    (ha : ∀ w s mod reg r bs, assemble p m (.immRm w s mod reg r) bs =
      some (mk (resolveRm mod r bs) (aluImmAt w s (baseLen mod r) bs)))
    (h : rm.wf = true) :
    decode p latch (encodeAluImmRm ext rm imm ++ rest) = 
      .ok ⟨0b100000#6 ++ imm.sBit ++ imm.width.bit, .immRm imm.width imm.s rm.modCode ext rm.rmCode, mk rm imm,
        2 + rm.dispLen + imm.bytes⟩ := by
  have he : extractFields .immRm m (0b100000#6 ++ imm.sBit ++ imm.width.bit) (modRmByte ext rm) =
      .immRm imm.width imm.s rm.modCode ext rm.rmCode := by
    cases imm <;> simp [extractFields, signBitS, hm, AluImm.sBit, AluImm.width, Width.bit, AluImm.s, Width.ofBit]
  simp only [encodeAluImmRm, List.cons_append, List.append_assoc]
  rw [decode_cons ((class_group _ _ _).trans (by rw [modRmByte_reg, hx]))]
  apply decodeAs_ok he
  · simp only [lengthCalc, hm, if_true]; simp only [baseLen, ndisp_codes h]
    cases imm <;> simp [AluImm.s, AluImm.width, AluImm.bytes]
  · simp [bytesNeeded]; omega
  · rw [ha, resolveRm_codes h, aluImmAt_codes h]

theorem sregWf_wf {rm : Rm} (h : rm.sregWf = true) : rm.wf = true := by cases rm <;> first | rfl | simp [Rm.sregWf] at h
theorem sregWf_codes {rm : Rm} (h : rm.sregWf = true) : ¬ (rm.modCode = 0#2 ∧ ¬ rm.rmCode = 6#3) := by
  cases rm <;> simp_all [Rm.sregWf, Rm.modCode, Rm.rmCode]

theorem bit_cases (d : BitVec 1) : d = 0 ∨ d = 1 := by revert d; decide

/-- Format F_ACC decodes (30_encoding.md R137). -/
theorem decode_acc {p : Params} {latch : Option (Kind × Mnemonic)} {d : BitVec 1} {w : Width} {addr : Word} {rest : List Byte} (h : accAddrWf p w addr = true) :
    decode p latch (encodeAcc p d w addr ++ rest) = 
      .ok ⟨0b101000#6 ++ d ++ w.bit, .acc d[0] w, if d = 0 then .movMemAcc w addr else .movAccMem w addr,
        1 + w.bytes⟩ := by
  have he : ∀ b1, extractFields .acc .mov (0b101000#6 ++ d ++ w.bit) b1 = .acc d[0] w := by
    intro b1; simp [extractFields, opDW_d, opDW_w]
  have ha : ∀ bs, accAddrAt p w bs = addr → assemble p .mov (.acc d[0] w) bs = some (if d = 0 then .movMemAcc w addr else .movAccMem w addr) := by
    intro bs hb
    rcases bit_cases d with rfl | rfl <;> simp [assemble, hb]
  have hz : w = .byte → p.acc8 = .lo8 → zext16 (loByte addr) = addr := by
    intro h1 h2
    simp [accAddrWf, h1, h2] at h
    apply BitVec.eq_of_toNat_eq
    simp [zext16, loByte, BitVec.extractLsb'_toNat]
    omega
  cases w <;> cases hp : p.acc8 <;> simp only [encodeAcc, hp, List.cons_append, wordBytes, List.nil_append] <;>
    rw [decode_cons (class_acc _ _ _)] <;> apply decodeAs_ok (he _) <;>
    first
    | (simp [lengthCalc]; done)
    | (simp [bytesNeeded, hp, Width.bytes]; done)
    | (apply ha; simp [accAddrAt, hp, wordAt]; done)
    | (apply ha; simp [accAddrAt, hp]; exact hz rfl hp)

/-- Format F_SREG decodes (30_encoding.md R138). -/
theorem decode_sreg {p : Params} {latch : Option (Kind × Mnemonic)} {g : SegReg} {rm : Rm} {rest : List Byte} (op : Byte) (d : Bool)
    (hc : ∀ b1, classifyTables op b1 = some (.rmSreg, some .mov)) (hd : op.getLsbD 1 = d) (h : rm.sregWf = true) :
    decode p latch (encodeSreg op g rm ++ rest) = 
      .ok ⟨op, .rmSreg d rm.modCode g.code rm.rmCode, if d then .movRmSreg g rm else .movSregRm g rm,
        2 + rm.dispLen⟩ := by
  have he : extractFields .rmSreg .mov op (modRmByte (0b0#1 ++ g.code) rm) = .rmSreg d rm.modCode g.code rm.rmCode := by
    simp only [extractFields, hd, sr_bits, modRmByte_mod, modRmByte_rm]
  simp only [encodeSreg, List.cons_append]
  rw [decode_cons (hc _)]
  apply decodeAs_ok he
  · simp [lengthCalc, sregWf_codes h, baseLen, ndisp_codes (sregWf_wf h)]
  · simp [bytesNeeded]; omega
  · cases d <;> simp [assemble, resolveRm_codes (sregWf_wf h)]

/-- Format F_JCC decodes (30_encoding.md R139). -/
theorem decode_jcc {p : Params} {latch : Option (Kind × Mnemonic)} {op rel : Byte} {m : Mnemonic} {rest : List Byte} {i : Instr}
    (hc : ∀ b1, classifyTables op b1 = some (.jcc, some m)) (hm : m.isData = false)
    (ha : assemble p m .jcc (op :: rel :: rest) = some i) :
    decode p latch (op :: rel :: rest) = .ok ⟨op, .jcc, i, 2⟩ := by
  rw [decode_cons (hc _)]
  exact decodeAs_ok rfl (by simp [lengthCalc, hm]) (by simp [bytesNeeded]) ha

/-- The jumps and loops are found by the full-byte test alone. -/
theorem class_jcc (b0 b1 : Byte) (h : 0x70 ≤ b0.toNat ∧ b0.toNat ≤ 0x7F ∨ 0xE0 ≤ b0.toNat ∧ b0.toNat ≤ 0xE3) :
    classifyTables b0 b1 = testFB b0 := by
  rw [classifyTables_ext]; generalize b1.extractLsb' 3 3 = e; revert b0 e; decide

/-! ### What a decode that succeeds has met -/

/-- Everything a successful decode says of the stages. -/
theorem decode_ok {p : Params} {latch : Option (Kind × Mnemonic)} {bs : List Byte} {d : Decoded}
    (h : decode p latch bs = .ok d) : ∃ b0 b1 rest k m, bs = b0 :: b1 :: rest ∧ classify p latch b0 b1 = .ok (k, m) ∧
      lengthCalc m (extractFields k m b0 b1) = some d.len ∧
      bytesNeeded p (extractFields k m b0 b1) d.len ≤ bs.length ∧
      assemble p m (extractFields k m b0 b1) bs = some d.instr ∧
      d.opcode = b0 ∧ d.fields = extractFields k m b0 b1 := by
  unfold decode at h
  split at h
  · rename_i b0 b1 rest
    split at h
    · cases h
    · rename_i k m hk
      refine ⟨b0, b1, rest, k, m, rfl, hk, ?_⟩
      simp only [decodeAs] at h
      split at h
      · cases h
      · split at h
        · cases h
        · split at h
          · cases h
          · cases h
            exact ⟨‹_›, Nat.le_of_not_lt ‹_›, ‹_›, rfl, rfl⟩
  · cases h

theorem mod_cases (mod : BitVec 2) : mod = 0#2 ∨ mod = 1#2 ∨ mod = 2#2 ∨ mod = 3#2 := by revert mod; decide

theorem baseLen_resolveRm (mod : BitVec 2) (rm : BitVec 3) (bs : List Byte) : baseLen mod rm = 2 + (resolveRm mod rm bs).dispLen := by
  rcases mod_cases mod with rfl | rfl | rfl | rfl <;> simp [baseLen, ndisp, resolveRm, Rm.dispLen] <;> split <;> rfl

theorem resolveRm_wf (mod : BitVec 2) (rm : BitVec 3) (bs : List Byte) : (resolveRm mod rm bs).wf = true := by
  rcases mod_cases mod with rfl | rfl | rfl | rfl <;> simp [resolveRm, Rm.wf]
  have : ∀ rm : BitVec 3, rm = 6#3 ∨ Base.ofCode rm ≠ .bp := by decide
  rcases this rm with rfl | h
  · simp
  · by_cases h6 : rm = 6#3
    · simp [h6]
    · simp [h6]
      cases hb : Base.ofCode rm <;> simp_all

theorem resolveRm_sregWf {mod : BitVec 2} {rm : BitVec 3} (bs : List Byte) (h : ¬ (mod = 0#2 ∧ ¬ rm = 6#3)) : (resolveRm mod rm bs).sregWf = true := by
  rcases mod_cases mod with rfl | rfl | rfl | rfl <;> simp_all [resolveRm, Rm.sregWf]

@[simp] theorem immAt_width (w : Width) (q : Nat) (bs : List Byte) : (immAt w q bs).width = w := by cases w <;> rfl

theorem aluImmAt_bytes (w : Width) (s : Bool) (q : Nat) (bs : List Byte) : (aluImmAt w s q bs).bytes = if s = false ∧ w = .word then 2 else 1 := by
  cases w <;> cases s <;> rfl

/-- The decoder reads at least the length. -/
theorem le_bytesNeeded {p : Params} {m : Mnemonic} {f : Fields} {n : Nat} (h : lengthCalc m f = some n) : n ≤ bytesNeeded p f n := by
  cases f with
  | acc d w => 
    cases w <;> cases hp : p.acc8 <;> simp_all [bytesNeeded, lengthCalc, Width.bytes]
    omega
  | _ => simp [bytesNeeded]

theorem baseLen_le (mod : BitVec 2) (rm : BitVec 3) : baseLen mod rm ≤ 4 := by revert mod rm; decide

/-- Operand resolution reads no byte beyond those the decoder needs. -/
theorem assemble_congr {p : Params} {m : Mnemonic} {f : Fields} {n : Nat} {bs bs' : List Byte} (h : lengthCalc m f = some n)
   (hb : ∀ i < bytesNeeded p f n, byteAt bs i = byteAt bs' i) : assemble p m f bs = assemble p m f bs' := by
  have hres : ∀ mod rm, baseLen mod rm ≤ bytesNeeded p f n → resolveRm mod rm bs = resolveRm mod rm bs' := by
    intro mod rm hl
    rcases mod_cases mod with rfl | rfl | rfl | rfl <;> simp [resolveRm, wordAt] 
    · by_cases hr : rm = 6#3
      · subst hr
        simp [baseLen, ndisp] at hl
        simp; rw [hb 2 (by omega), hb 3 (by omega)]
      · simp [hr]
    · simp [baseLen, ndisp] at hl
      rw [hb 2 (by omega)]
    · simp [baseLen, ndisp] at hl
      rw [hb 2 (by omega), hb 3 (by omega)]
  have hw : ∀ q, q + 1 < bytesNeeded p f n → wordAt bs q = wordAt bs' q := by
    intro q hq
    simp [wordAt]; rw [hb q (by omega), hb _ hq]
  cases f with
  | rmReg dd w mod reg rm =>
    have hl : baseLen mod rm ≤ bytesNeeded p (.rmReg dd w mod reg rm) n := by
      have := le_bytesNeeded (p := p) h
      simp [lengthCalc] at h; omega
    simp [assemble, hres _ _ hl]
  | immRm w s mod reg rm =>
    have hl := le_bytesNeeded (p := p) h
    have hr : baseLen mod rm ≤ n := by
      cases m <;> simp [lengthCalc, Mnemonic.isAlu] at h <;> omega
    simp only [assemble, hres _ _ (hr.trans hl)]
    cases m <;> simp only [lengthCalc, Mnemonic.isAlu] at h <;> first | rfl | skip
    all_goals
      simp at h
      cases w <;> cases s <;> simp [Width.bytes, immAt, aluImmAt] at * <;> first | (apply hb; omega) | (apply hw; omega)
  | immReg w reg =>
    have hl := le_bytesNeeded (p := p) h
    simp [lengthCalc] at h
    obtain ⟨_, rfl⟩ := h
    cases m <;> simp [assemble] <;> cases w <;> simp [immAt, Width.bytes] at * <;> first | (apply hb; omega) | (apply hw; omega)
  | acc dd w =>
    simp [lengthCalc] at h
    obtain ⟨rfl, rfl⟩ := h
    cases dd <;> cases w <;> cases hp : p.acc8 <;> simp [assemble, accAddrAt, hp, bytesNeeded, Width.bytes] at * <;> first | (apply hw; omega) | (rw [hb]; omega)
  | rmSreg dd mod sr rm =>
    have hl := le_bytesNeeded (p := p) h
    have hr : baseLen mod rm ≤ n := by
      simp only [lengthCalc] at h
      split at h
      · cases h
      · split at h
        · cases h
        · cases h; simp
    simp only [assemble, hres _ _ (hr.trans hl)]
  | jcc =>
    have hl := le_bytesNeeded (p := p) h
    have : n = 2 := by simp [lengthCalc] at h; omega
    simp only [assemble]
    rw [hb 1 (by omega)]

/-- The bytes the length calculator asks for are those of the assembled instruction. -/
theorem bytesNeeded_eq {p : Params} {m : Mnemonic} {f : Fields} {n : Nat} {bs : List Byte} {i : Instr} (hl : lengthCalc m f = some n)
   (ha : assemble p m f bs = some i) : bytesNeeded p f n = i.bytesRead p := by
  cases f with
  | rmReg dd w mod reg rm =>
    cases m <;> simp [lengthCalc, Mnemonic.isData, Mnemonic.isAlu] at hl <;> simp [assemble] at ha <;> subst ha hl <;>
      simp_all [Instr.length, Instr.bytesRead, baseLen_resolveRm mod rm bs, bytesNeeded]
  | immRm w s mod reg rm =>
    cases m <;> simp [lengthCalc, Mnemonic.isAlu] at hl <;> simp [assemble] at ha <;> subst ha hl <;>
      simp_all [Instr.length, Instr.bytesRead, baseLen_resolveRm mod rm bs, bytesNeeded, aluImmAt_bytes]
  | immReg w reg =>
    cases m <;> simp [lengthCalc, Mnemonic.isData, Mnemonic.isAlu] at hl <;> simp [assemble] at ha <;> subst ha hl <;>
      simp_all [Instr.length, Instr.bytesRead, bytesNeeded]
  | acc dd w =>
    cases m <;> simp [lengthCalc] at hl; subst hl
    cases dd <;> simp [assemble] at ha <;> subst ha <;> cases w <;> cases hp : p.acc8 <;>
      simp_all [Instr.length, Instr.bytesRead, bytesNeeded]
  | rmSreg dd mod sr rm =>
    cases m <;> simp [lengthCalc] at hl
    obtain ⟨h1, hl⟩ := hl
    subst hl
    cases dd <;> simp [assemble] at ha <;> subst ha <;> 
      simp_all [Instr.length, Instr.bytesRead,  bytesNeeded, baseLen_resolveRm mod rm bs]
  | jcc =>
    cases m <;> simp [lengthCalc, Mnemonic.isData, Mnemonic.isAlu] at hl <;> simp [assemble] at ha <;> subst ha hl <;>
      simp_all [Instr.length, Instr.bytesRead, bytesNeeded]

end Sys2Proof
end

