-- ==== Sys2Proof/Laws/Exec.lean ====
section
/-! SUPPORT. What an instruction can do when it answers a next state, said once for all of them, and what a
step can do. -/

namespace Sys2Proof.Machine

/-- The width, destination and source of a mov that executes (40_mov.md R172 to R178). -/
def executedMov : Instr → Option (Width × Loc × Operand)
  | .movRmReg d w reg rm => some (w, rmRegDst d w reg rm, .loc (rmRegSrc d w reg rm))
  | .movImmRm rm imm => some (imm.width, rm.loc imm.width, .imm imm)
  | .movImmReg reg imm => some (imm.width, regLoc imm.width reg, .imm imm)
  | .movMemAcc w addr => some (w, accLoc w, .loc (.direct addr))
  | .movAccMem w addr => some (w, .direct addr, .loc (accLoc w))
  | .movRmSreg g (.reg n) => some (.word, .sreg g, .loc (.reg16 n))
  | .movSregRm g (.reg n) => some (.word, .reg16 n, .loc (.sreg g))
  | _ => none

/-- The condition and displacement of a wired jump (42_branch.md R214, R216, R217, R222). -/
def wiredJump (s : State) : Instr → Option (Bool × Byte)
  | .jb rel  => some (s.flags.CF, rel)
  | .je rel  => some (s.flags.ZF, rel)
  | .jne rel => some (!s.flags.ZF, rel)
  | .jp rel  => some (s.flags.PF, rel)
  | _ => none

/-- The next state of loopnz (42_branch.md R228). -/
def afterLoopnz (rel : Byte) (s : State) : State :=
  (s.setReg .cx (s.getReg .cx - 1)).branchIf (s.getReg .cx - 1 != 0 && !s.flags.ZF) rel

/-- An executed mov answers its copy. -/
theorem exec_mov {i : Instr} {w : Width} {dst : Loc} {src : Operand} (s : State)
    (h : executedMov i = some (w, dst, src)) : exec i s = .next (move w dst src s) := by
  cases i with
  | movRmSreg g rm | movSregRm g rm => cases rm <;> simp [executedMov] at h; obtain ⟨rfl, rfl, rfl⟩ := h; rfl
  | movRmReg | movImmRm | movImmReg | movMemAcc | movAccMem =>
    simp [executedMov] at h; obtain ⟨rfl, rfl, rfl⟩ := h; rfl
  | _ => simp [executedMov] at h

/-- An executed add, sub or cmp answers the ALU step. -/
theorem exec_alu {i : Instr} {op : AluOp} {w : Width} {dst : Loc} {src : Operand} (s : State)
    (h : executedAlu i = some (op, w, dst, src)) : exec i s = .next (alu op w dst src s) := by
  cases i with
  | addRmReg d w' reg rm | subRmReg d w' reg rm | cmpRmReg d w' reg rm =>
    cases rm <;> simp [executedAlu] at h; obtain ⟨rfl, rfl, rfl, rfl⟩ := h; rfl
  | addImmRm rm imm | subImmRm rm imm | cmpImmRm rm imm =>
    cases rm <;> simp [executedAlu] at h; obtain ⟨rfl, rfl, rfl, rfl⟩ := h; rfl
  | addImmAcc imm | subImmAcc imm | cmpImmAcc imm =>
    simp [executedAlu] at h; obtain ⟨rfl, rfl, rfl, rfl⟩ := h; rfl
  | _ => simp [executedAlu] at h

/-- A wired jump answers its branch. -/
theorem exec_jump {i : Instr} {c : Bool} {rel : Byte} (s : State) (h : wiredJump s i = some (c, rel)) :
    exec i s = .next (s.branchIf c rel) := by
  cases i <;> simp only [wiredJump, Option.some.injEq, Prod.mk.injEq, reduceCtorEq] at h <;>
    (obtain ⟨hc, rfl⟩ := h; subst hc; rfl)

theorem exec_loopnz (rel : Byte) (s : State) : exec (.loopnz rel) s = .next (afterLoopnz rel s) := rfl

/-- An Unimplemented form answers the Unimplemented outcome. -/
theorem exec_unimplemented {i : Instr} (s : State) (h : isUnimplemented i = true) :
    exec i s = unimplemented i s := by
  cases i with
  | movRmSreg g rm | movSregRm g rm => cases rm <;> first | rfl | simp [isUnimplemented, isRegister] at h
  | addRmReg d w reg rm | subRmReg d w reg rm | cmpRmReg d w reg rm =>
    cases rm <;> first | rfl | simp [isUnimplemented, isRegister] at h
  | addImmRm rm imm | subImmRm rm imm | cmpImmRm rm imm =>
    cases rm <;> first | rfl | simp [isUnimplemented, isRegister] at h
  | _ => first | rfl | simp [isUnimplemented] at h

/-- Every instruction is of one of the five shapes. -/
theorem instr_shape (i : Instr) (s : State) :
    (∃ w dst src, executedMov i = some (w, dst, src)) ∨
    (∃ op w dst src, executedAlu i = some (op, w, dst, src)) ∨
    (∃ c rel, wiredJump s i = some (c, rel)) ∨
    (∃ rel, i = .loopnz rel) ∨
    isUnimplemented i = true := by
  cases i with
  | movRmSreg g rm | movSregRm g rm => cases rm <;> simp [executedMov, isUnimplemented, isRegister]
  | addRmReg d w reg rm | subRmReg d w reg rm | cmpRmReg d w reg rm =>
    cases rm <;> simp [executedAlu, isUnimplemented, isRegister]
  | addImmRm rm imm | subImmRm rm imm | cmpImmRm rm imm =>
    cases rm <;> simp [executedAlu, isUnimplemented, isRegister]
  | _ => simp [executedMov, executedAlu, wiredJump, isUnimplemented]

/-- Everything an instruction can do when it answers a next state. -/
theorem exec_next {i : Instr} {s t : State} (h : exec i s = .next t) :
    (∃ w dst src, executedMov i = some (w, dst, src) ∧ t = move w dst src s) ∨
    (∃ op w dst src, executedAlu i = some (op, w, dst, src) ∧ t = alu op w dst src s) ∨
    (∃ c rel, wiredJump s i = some (c, rel) ∧ t = s.branchIf c rel) ∨
    (∃ rel, i = .loopnz rel ∧ t = afterLoopnz rel s) ∨
    (isUnimplemented i = true ∧ s.params.unimpl = .noOp ∧ t = s) := by
  rcases instr_shape i s with ⟨w, dst, src, hi⟩ | ⟨op, w, dst, src, hi⟩ | ⟨c, rel, hi⟩ | ⟨rel, rfl⟩ | hi
  · rw [exec_mov s hi] at h; cases h
    exact .inl ⟨w, dst, src, hi, rfl⟩
  · rw [exec_alu s hi] at h; cases h
    exact .inr (.inl ⟨op, w, dst, src, hi, rfl⟩)
  · rw [exec_jump s hi] at h; cases h
    exact .inr (.inr (.inl ⟨c, rel, hi, rfl⟩))
  · cases h
    exact .inr (.inr (.inr (.inl ⟨rel, rfl, rfl⟩)))
  · rw [exec_unimplemented s hi] at h
    cases hu : s.params.unimpl with
    | noOp => exact .inr (.inr (.inr (.inr ⟨hi, rfl, unimplemented_next h⟩)))
    | refuse => rw [unimplemented_refuse i hu] at h; cases h

/-- An instruction is refused only as an Unimplemented form under Refuse. -/
theorem exec_refused {i : Instr} {s : State} {r : Refusal} (h : exec i s = .refused r) :
    isUnimplemented i = true ∧ s.params.unimpl = .refuse ∧
      r = .unimplemented (s.ip - BitVec.ofNat 16 i.length) i.mnemonic := by
  rcases instr_shape i s with ⟨w, dst, src, hi⟩ | ⟨op, w, dst, src, hi⟩ | ⟨c, rel, hi⟩ | ⟨rel, rfl⟩ | hi
  · rw [exec_mov s hi] at h; cases h
  · rw [exec_alu s hi] at h; cases h
  · rw [exec_jump s hi] at h; cases h
  · cases h
  · rw [exec_unimplemented s hi] at h
    cases hu : s.params.unimpl with
    | noOp => rw [unimplemented_noOp i hu] at h; cases h
    | refuse => rw [unimplemented_refuse i hu] at h; cases h; exact ⟨hi, rfl, rfl⟩

/-! ### What the shared steps keep -/

section
variable (op : AluOp) (w : Width) (dst : Loc) (src : Operand) (s : State) (rel : Byte)

@[simp] theorem move_code : (move w dst src s).code = s.code := by simp [move]
@[simp] theorem move_latch : (move w dst src s).latch = s.latch := by simp [move]
@[simp] theorem move_params : (move w dst src s).params = s.params := by simp [move]
@[simp] theorem move_ip : (move w dst src s).ip = s.ip := by simp [move]
@[simp] theorem move_flags : (move w dst src s).flags = s.flags := by simp [move]
@[simp] theorem alu_code : (alu op w dst src s).code = s.code := by cases op <;> simp [alu]
@[simp] theorem alu_latch : (alu op w dst src s).latch = s.latch := by cases op <;> simp [alu]
@[simp] theorem alu_params : (alu op w dst src s).params = s.params := by cases op <;> simp [alu]
@[simp] theorem alu_ip : (alu op w dst src s).ip = s.ip := by cases op <;> simp [alu]
@[simp] theorem afterLoopnz_code : (afterLoopnz rel s).code = s.code := by simp [afterLoopnz]
@[simp] theorem afterLoopnz_latch : (afterLoopnz rel s).latch = s.latch := by simp [afterLoopnz]
@[simp] theorem afterLoopnz_params : (afterLoopnz rel s).params = s.params := by simp [afterLoopnz]
@[simp] theorem afterLoopnz_mem : (afterLoopnz rel s).mem = s.mem := by simp [afterLoopnz]
@[simp] theorem afterLoopnz_flags : (afterLoopnz rel s).flags = s.flags := by simp [afterLoopnz]
@[simp] theorem afterLoopnz_sreg : (afterLoopnz rel s).sreg = s.sreg := by simp [afterLoopnz]

theorem move_wf {s : State} (h : s.mem.wf = true) : (move w dst src s).mem.wf = true :=
  writeLoc_wf w dst _ h

theorem alu_wf {s : State} (h : s.mem.wf = true) : (alu op w dst src s).mem.wf = true := by
  cases op <;> first | exact writeLoc_wf w dst _ h | exact h
end

/-- An instruction keeps the code buffer, the latch, the parameters and the canonical form of memory. -/
theorem exec_keeps {i : Instr} {s t : State} (h : exec i s = .next t) :
    t.code = s.code ∧ t.latch = s.latch ∧ t.params = s.params ∧ (s.mem.wf = true → t.mem.wf = true) := by
  rcases exec_next h with ⟨w, dst, src, _, rfl⟩ | ⟨op, w, dst, src, _, rfl⟩ | ⟨c, rel, _, rfl⟩ |
    ⟨rel, rfl, rfl⟩ | ⟨_, _, rfl⟩
  · simpa using move_wf w dst src
  · simpa using alu_wf op w dst src
  · simp
  · simp
  · simp

/-- Everything a step can do: stay where the run has ended, raise a decode fault, or run the instruction. -/
theorem step_cases (s : State) :
    (s.halted = true ∧ step s = .next s) ∨
    (s.halted = false ∧ ∃ e, decode s.params s.latch s.fetch = .error e ∧ step s = raise s.ip e) ∨
    (s.halted = false ∧ ∃ d, decode s.params s.latch s.fetch = .ok d ∧
      step s = exec d.instr (s.advance d)) := by
  cases hh : s.halted with
  | true => exact .inl ⟨rfl, by simp [step, hh]⟩
  | false =>
    cases hd : decode s.params s.latch s.fetch with
    | error e => exact .inr (.inl ⟨rfl, e, rfl, by simp [step, hh, hd]⟩)
    | ok d => exact .inr (.inr ⟨rfl, d, rfl, by simp [step, hh, hd]⟩)

/-- Raising a fault answers a fault. -/
theorem raise_fault (ip0 : Word) (e : DecodeFault) : ∃ r, raise ip0 e = .fault r := by
  cases e <;> exact ⟨_, rfl⟩

/-! ### Runs and their end -/

theorem halted_iff (s : State) : s.halted = true ↔ s.code.length ≤ s.ip.toNat := decide_eq_true_iff

theorem not_halted_iff (s : State) : s.halted = false ↔ s.ip.toNat < s.code.length :=
  decide_eq_false_iff_not.trans Nat.not_le

/-- A run goes on from the next state. -/
theorem run_succ {s t : State} (h : step s = .next t) (k : Nat) :
    Host.Core.run Sys2Proof.core (k + 1) s = Host.Core.run Sys2Proof.core k t := by
  have h' : Sys2Proof.core.step s = .next t := h
  simp only [Host.Core.run, h']

/-! ### Operands as integers -/

/-- The width of an executed ALU form is that of its destination and bounds its source. -/
theorem executedAlu_fits {i op w dst src} (h : executedAlu i = some (op, w, dst, src)) : locBits w dst = widthBits w ∧ ∀ s : State, s.readOp w src < 2 ^ widthBits w := by
  cases i with
  | addRmReg d w' reg rm | subRmReg d w' reg rm | cmpRmReg d w' reg rm =>
    cases rm <;> simp [executedAlu] at h; obtain ⟨rfl, rfl, rfl, rfl⟩ := h
    refine ⟨by simp, fun s => ?_⟩
    have := readLoc_lt s w' (rmRegSrc d w' reg (.reg ‹_›)); rwa [locBits_rmRegSrc] at this
  | addImmRm rm imm | subImmRm rm imm | cmpImmRm rm imm =>
    cases rm <;> simp [executedAlu] at h; obtain ⟨rfl, rfl, rfl, rfl⟩ := h
    refine ⟨by simp, fun s => ?_⟩
    have := immValue_lt imm.value
    rwa [width_value] at this
  | addImmAcc imm | subImmAcc imm | cmpImmAcc imm =>
    simp [executedAlu] at h; obtain ⟨rfl, rfl, rfl, rfl⟩ := h
    exact ⟨by simp, fun s => immValue_lt imm⟩
  | _ => simp [executedAlu] at h

/-- The two readings of an operand (41_arith.md R191). -/
theorem operandInt_eq (w : Width) (v : Nat) (hv : v < 2 ^ widthBits w) (read) : operandInt read w v = if read = .signed ∧ 2 ^ (widthBits w - 1) ≤ v then (v : Int) - 2 ^ widthBits w else v := by
  cases w <;> cases read <;> simp [operandInt, widthBits, BitVec.toInt_eq_toNat_cond] at * <;> split <;> split <;> omega

/-- Both readings agree modulo the width. -/
theorem operandInt_mod (w : Width) (v : Nat) (hv : v < 2 ^ widthBits w) (read) : ∃ k : Int, operandInt read w v = v + k * 2 ^ widthBits w := by
  rw [operandInt_eq w v hv]
  split
  · exact ⟨-1, by ring⟩
  · exact ⟨0, by ring⟩

/-- The bits of the intermediate that the flag unit reads. -/
theorem pattern32_bit (r : Int) (i : Nat) (hi : i < 16) : (pattern32 r).getLsbD i = decide (r / 2 ^ i % 2 = 1) := by
  have : (pattern32 r).getLsbD i = (pattern32 r).toNat.testBit i := rfl
  rw [this, Nat.testBit_eq_decide_div_mod_eq]
  have h2 : (pattern32 r).toNat = (r % 4294967296).toNat := by simp [pattern32, BitVec.toNat_ofInt]
  rw [h2]
  congr 1
  apply propext
  rcases (by omega : i = 0 ∨ i = 1 ∨ i = 2 ∨ i = 3 ∨ i = 4 ∨ i = 5 ∨ i = 6 ∨ i = 7 ∨ i = 8 ∨ i = 9 ∨ i = 10 ∨ i = 11 ∨ i = 12 ∨ i = 13 ∨ i = 14 ∨ i = 15) with rfl|rfl|rfl|rfl|rfl|rfl|rfl|rfl|rfl|rfl|rfl|rfl|rfl|rfl|rfl|rfl <;> norm_num <;> omega

end Sys2Proof.Machine
end

