-- ==== Sys2Proof/Tests/Slice0.lean ====
section
/-! SUPPORT. Tests. Expected results come from 95_test_vectors.md (its section is named) or from the rules
named beside a test. Then, for every obligation with hypotheses, a state and operands that meet them. -/

namespace Sys2Proof.Tests

open Sys2Proof Sys2Proof.Machine

set_option maxRecDepth 4000

/-! ### Helpers -/

/-- The reset state with some code. -/
def coded (bs : List Byte) : State := { State.reset with code := bs }

/-- The next state of a step, if it answers one. -/
def after (s : State) : Option State :=
  match step s with
  | .next t => some t
  | _ => none

/-- The fault of a step, if it answers one. -/
def faultOf (s : State) : Option Fault :=
  match step s with
  | .fault r => some r
  | _ => none

/-- The refusal of a step, if it answers one. -/
def refusalOf (s : State) : Option Refusal :=
  match step s with
  | .refused r => some r
  | _ => none

/-- The instruction and the length that some bytes decode to. -/
def decoded (p : Params) (latch : Option (Kind × Mnemonic)) (bs : List Byte) : Option (Instr × Nat) :=
  match decode p latch bs with
  | .ok d => some (d.instr, d.len)
  | .error _ => none

theorem next_of_after {s t : State} (h : after s = some t) : step s = .next t := by
  unfold after at h
  split at h
  · cases h; assumption
  · cases h

theorem fault_of {s : State} {r : Fault} (h : faultOf s = some r) : step s = .fault r := by
  unfold faultOf at h
  split at h
  · cases h; assumption
  · cases h

theorem refused_of {s : State} {r : Refusal} (h : refusalOf s = some r) : step s = .refused r := by
  unfold refusalOf at h
  split at h
  · cases h; assumption
  · cases h

/-- Default parameters but for one. -/
def stale : Params := { Params.default with unmapped := .stale }
def lo16 : Params := { Params.default with acc8 := .lo16 }
def refusing : Params := { Params.default with unimpl := .refuse }
def signed : Params := { Params.default with operandRead := .signed }

/-- The six flags in the order ZF SF PF CF OF AF of 95_test_vectors.md. -/
def six (f : Flags) : List Bool := [f.ZF, f.SF, f.PF, f.CF, f.OF, f.AF]

/-- A register file with ax and bx. -/
def axBx (a b : Word) : Gpr := { Gpr.zero with ax := a, bx := b }

/-! ### WellFormed: one ill-formed term for each check -/

/-- R123, R124: `[bp]` without displacement has no encoding. -/
theorem test_wf_mem_bp : Instr.wf .default (.movRmReg .regDst .word 0 (.mem .bp)) = false := by decide
theorem test_wf_alu_mem_bp : Instr.wf .default (.addImmRm (.mem .bp) (.byte 1)) = false := by decide
/-- R146: a segment-register form with MOD = 0b00 and RM ≠ 0b110 has no length. -/
theorem test_wf_sreg_mem : Instr.wf .default (.movRmSreg .ds (.mem .bx)) = false := by decide
/-- R130: a byte accumulator form under Lo8 has one address byte. -/
theorem test_wf_acc_byte : Instr.wf .default (.movMemAcc .byte 256) = false := by decide
/-- The neighbours that an encoding does stand for. -/
theorem test_wf_neighbours :
    Instr.wf .default (.movRmReg .regDst .word 0 (.mem8 .bp 0)) = true ∧
    Instr.wf .default (.movRmSreg .ds (.direct 0)) = true ∧
    Instr.wf .default (.movMemAcc .byte 255) = true ∧ Instr.wf lo16 (.movMemAcc .byte 256) = true := by decide

/-! ### Decoding: every constructor from a written-out word (95_test_vectors.md 2.2, else the encoding line
of the instruction's rule) -/

theorem test_decode_movRmReg : decoded .default none [0x89, 0xD9] = some (.movRmReg .rmDst .word 3 (.reg 1), 2) := by decide
theorem test_decode_movRmReg_d : decoded .default none [0x8B, 0xCB] = some (.movRmReg .regDst .word 1 (.reg 3), 2) := by decide
theorem test_decode_movRmReg_disp8 : decoded .default none [0x8B, 0x56, 0x00] = some (.movRmReg .regDst .word 2 (.mem8 .bp 0), 3) := by decide
theorem test_decode_movRmReg_disp16 : decoded .default none [0x8A, 0x80, 0x87, 0x13] = some (.movRmReg .regDst .byte 0 (.mem16 .bxSi 0x1387), 4) := by decide
theorem test_decode_movRmReg_direct : decoded .default none [0x8B, 0x1E, 0x82, 0x0D] = some (.movRmReg .regDst .word 3 (.direct 3458), 4) := by decide
theorem test_decode_movImmRm : decoded .default none [0xC7, 0x85, 0x85, 0x03, 0x5B, 0x01] = some (.movImmRm (.mem16 .di 901) (.word 347), 6) := by decide
theorem test_decode_movImmRm_ignored : decoded .default none [0xC6, 0x3F, 0x22] = some (.movImmRm (.mem .bx) (.byte 34), 3) := by decide
theorem test_decode_movImmReg : decoded .default none [0xBA, 0x6C, 0x0F] = some (.movImmReg 2 (.word 3948), 3) := by decide
theorem test_decode_movMemAcc : decoded .default none [0xA1, 0xFB, 0x09] = some (.movMemAcc .word 2555, 3) := by decide
theorem test_decode_movMemAcc_byte : decoded .default none [0xA0, 0x10] = some (.movMemAcc .byte 16, 2) := by decide
theorem test_decode_movAccMem : decoded .default none [0xA3, 0x02, 0x02] = some (.movAccMem .word 514, 3) := by decide
theorem test_decode_movRmSreg : decoded .default none [0x8E, 0x46, 0xFE] = some (.movRmSreg .es (.mem8 .bp 0xFE), 3) := by decide
theorem test_decode_movRmSreg_reg : decoded .default none [0x8E, 0xD8] = some (.movRmSreg .ds (.reg 0), 2) := by decide
theorem test_decode_movSregRm : decoded .default none [0x8C, 0xE3] = some (.movSregRm .es (.reg 3), 2) := by decide
theorem test_decode_addRmReg : decoded .default none [0x00, 0xE0] = some (.addRmReg .rmDst .byte 4 (.reg 0), 2) := by decide
theorem test_decode_addImmRm : decoded .default none [0x83, 0xC0, 0xFF] = some (.addImmRm (.reg 0) (.sextByte 0xFF), 3) := by decide
theorem test_decode_addImmRm_word : decoded .default none [0x81, 0x06, 0x00, 0x01, 0x05, 0x00] = some (.addImmRm (.direct 256) (.word 5), 6) := by decide
theorem test_decode_addImmRm_alias : decoded .default none [0x82, 0xC0, 0x01] = some (.addImmRm (.reg 0) (.byte 1), 3) := by decide
theorem test_decode_addImmAcc : decoded .default none [0x05, 0xE8, 0x03] = some (.addImmAcc (.word 1000), 3) := by decide
/-- R196: `001010dw mmgggbbb`, 0x2B is D = 1, W = 1, 0x47 is MOD = 0b01, REG = 0b000, RM = 0b111. -/
theorem test_decode_subRmReg : decoded .default none [0x2B, 0x47, 0xFE] = some (.subRmReg .regDst .word 0 (.mem8 .bx 0xFE), 3) := by decide
theorem test_decode_subImmRm : decoded .default none [0x83, 0xE8, 0xFF] = some (.subImmRm (.reg 0) (.sextByte 0xFF), 3) := by decide
theorem test_decode_subImmAcc : decoded .default none [0x2C, 0x80] = some (.subImmAcc (.byte 128), 2) := by decide
theorem test_decode_cmpRmReg : decoded .default none [0x39, 0xD8] = some (.cmpRmReg .rmDst .word 3 (.reg 0), 2) := by decide
theorem test_decode_cmpImmRm : decoded .default none [0x83, 0x3E, 0xE2, 0x12, 0x1D] = some (.cmpImmRm (.direct 4834) (.sextByte 29), 5) := by decide
theorem test_decode_cmpImmAcc : decoded .default none [0x3D, 0xFF, 0xFF] = some (.cmpImmAcc (.word 0xFFFF), 3) := by decide
/-- R104 (table FB), the displacement at an end of its range. -/
theorem test_decode_jo : decoded .default none [0x70, 0x80] = some (.jo 0x80, 2) := by decide
theorem test_decode_jno : decoded .default none [0x71, 0x7F] = some (.jno 0x7F, 2) := by decide
theorem test_decode_jb : decoded .default none [0x72, 0x80] = some (.jb 0x80, 2) := by decide
theorem test_decode_jnb : decoded .default none [0x73, 0x7F] = some (.jnb 0x7F, 2) := by decide
theorem test_decode_je : decoded .default none [0x74, 0x80] = some (.je 0x80, 2) := by decide
theorem test_decode_jne : decoded .default none [0x75, 0x7F] = some (.jne 0x7F, 2) := by decide
theorem test_decode_jbe : decoded .default none [0x76, 0x80] = some (.jbe 0x80, 2) := by decide
theorem test_decode_ja : decoded .default none [0x77, 0x7F] = some (.ja 0x7F, 2) := by decide
theorem test_decode_js : decoded .default none [0x78, 0x80] = some (.js 0x80, 2) := by decide
theorem test_decode_jns : decoded .default none [0x79, 0x7F] = some (.jns 0x7F, 2) := by decide
theorem test_decode_jp : decoded .default none [0x7A, 0x80] = some (.jp 0x80, 2) := by decide
theorem test_decode_jnp : decoded .default none [0x7B, 0x7F] = some (.jnp 0x7F, 2) := by decide
theorem test_decode_jl : decoded .default none [0x7C, 0x80] = some (.jl 0x80, 2) := by decide
theorem test_decode_jnl : decoded .default none [0x7D, 0x7F] = some (.jnl 0x7F, 2) := by decide
theorem test_decode_jle : decoded .default none [0x7E, 0x80] = some (.jle 0x80, 2) := by decide
theorem test_decode_jg : decoded .default none [0x7F, 0x7F] = some (.jg 0x7F, 2) := by decide
theorem test_decode_loopnz : decoded .default none [0xE0, 0xF9] = some (.loopnz 0xF9, 2) := by decide
theorem test_decode_loopz : decoded .default none [0xE1, 0xFE] = some (.loopz 0xFE, 2) := by decide
theorem test_decode_loop : decoded .default none [0xE2, 0xFE] = some (.loop 0xFE, 2) := by decide
theorem test_decode_jcxz : decoded .default none [0xE3, 0xFE] = some (.jcxz 0xFE, 2) := by decide

/-- 2.2: under Lo16 the byte form reads a third byte, and its length stays 2. -/
theorem test_decode_lo16 : decoded lo16 none [0xA0, 0x10, 0x20] = some (.movMemAcc .byte 0x2010, 2) := by decide

/-- R101: the record keeps the raw opcode byte and the REG field of `C6 3F 22`, and those of `82 C0 01`. -/
theorem test_record :
    decode .default none [0xC6, 0x3F, 0x22] =
      .ok ⟨0xC6, .immRm .byte false 0b00 0b111 0b111, .movImmRm (.mem .bx) (.byte 34), 3⟩ ∧
    decode .default none [0x82, 0xC0, 0x01] =
      .ok ⟨0x82, .immRm .byte false 0b11 0b000 0b000, .addImmRm (.reg 0) (.byte 1), 3⟩ := by decide

/-- R150, R121: the roles and the displacement marker of `8A 6C FF` (mov ch, [si - 1]). -/
theorem test_roles :
    (Instr.movRmReg .regDst .byte 5 (.mem8 .si 0xFF)).dst = some (.loc (.reg8 5)) ∧
    (Instr.movRmReg .regDst .byte 5 (.mem8 .si 0xFF)).src = .loc (.mem .si 0xFFFF) ∧
    (Instr.movRmReg .regDst .byte 5 (.mem8 .si 0xFF)).dispPresent = true := by decide

/-- The opcode table's words (b0 in bits 15..8): a few rows with all operand bits 0, and R146's DecodeError. -/
theorem test_table_words :
    decodeTableWord 16 0x8800 = some (.movRmReg .rmDst .byte 0 (.mem .bxSi)) ∧
    decodeTableWord 16 0xB000 = some (.movImmReg 0 (.byte 0)) ∧
    decodeTableWord 16 0x8038 = some (.cmpImmRm (.mem .bxSi) (.byte 0)) ∧
    decodeTableWord 16 0x2C00 = some (.subImmAcc (.byte 0)) ∧
    decodeTableWord 16 0xE300 = some (.jcxz 0) ∧ decodeTableWord 16 0x8E00 = none := by decide

/-! ### Faults and policies (95_test_vectors.md 2.9) -/

theorem test_fault_unmapped : faultOf (coded [0x0F, 0x00]) = some (.unmappedOpcode 0 0x0F none) := by decide
theorem test_fault_group :
    faultOf (coded [0x80, 0xC8, 0x01]) = some (.unmappedOpcode 0 0x80 (some 0xC8)) := by decide
theorem test_fault_decode : faultOf (coded [0x8C, 0x00]) = some (.decodeError 0 0x8C 0x00 .rmSreg .mov) := by
  decide
theorem test_fault_truncated : faultOf (coded [0x8B, 0x0E]) = some (.truncatedInstruction 0 2 4) := by decide
theorem test_fault_one_byte : faultOf (coded [0x0F]) = some (.truncatedInstruction 0 1 2) := by decide
theorem test_fault_lo16 :
    faultOf { coded [0xA0, 0x10] with params := lo16 } = some (.truncatedInstruction 0 2 3) := by decide
theorem test_stale_without_latch :
    faultOf { coded [0x90, 0x07] with params := stale } = some (.unmappedOpcode 0 0x90 none) := by decide
/-- `B8 05 00 90 07` under Stale: the second step is mov al, 7. -/
theorem test_stale_with_latch :
    (after { coded [0xB8, 0x05, 0x00, 0x90, 0x07] with
      params := stale, ip := 3, latch := some (.immReg, .mov), gpr := axBx 5 0 }).map
      (fun t => (t.gpr.ax, t.ip)) = some (7, 5) := by decide
theorem test_refused :
    refusalOf { coded [0x03, 0x07] with params := refusing } = some (.unimplemented 0 .add) := by decide
theorem test_halt : after State.reset = some State.reset := by decide

/-- The host's placement: the word of `mov ax, imm` at reset runs as the first instruction. -/
theorem test_fetch_word :
    (after (State.reset.withFetchWord 16 0xB405)).map (fun t => (t.gpr.ax, t.ip)) = some (0x0500, 2) := by decide

/-! ### Execution: mov (95_test_vectors.md 2.4) -/

theorem test_mov_copies : (after { coded [0x89, 0xD8] with gpr := axBx 0 0x1234 }).map (fun t => t.gpr.ax) =
    some 0x1234 := by decide
theorem test_mov_read_wraps :
    (after { coded [0x8B, 0x07] with gpr := axBx 0 0xFFFF, mem := [(0, 0x12), (0xFFFF, 0x34)] }).map
      (fun t => t.gpr.ax) = some 0x1234 := by decide
theorem test_movImmRm_wraps :
    (after { coded [0xC7, 0x46, 0xFE, 0x34, 0x12] with gpr := { Gpr.zero with bp := 1 } }).map
      (fun t => t.mem) = some [(0, 0x12), (0xFFFF, 0x34)] := by decide
theorem test_movImmRm_address :
    (after { coded [0xC6, 0x03, 0x07] with gpr := { Gpr.zero with bp := 0x10, di := 0x20 } }).map
      (fun t => t.mem) = some [(0x30, 7)] := by decide
theorem test_movImmReg_half : (after { coded [0xB4, 0x56] with gpr := axBx 0x1234 0 }).map (fun t => t.gpr.ax) =
    some 0x5634 := by decide
theorem test_movMemAcc_byte :
    (after { coded [0xA0, 0x10] with gpr := axBx 0x1200 0, mem := [(0x10, 0x99)] }).map (fun t => t.gpr.ax) =
      some 0x1299 := by decide
theorem test_movAccMem_wraps :
    (after { coded [0xA3, 0xFF, 0xFF] with gpr := axBx 0xBEEF 0 }).map (fun t => t.mem) =
      some [(0, 0xBE), (0xFFFF, 0xEF)] := by decide
theorem test_movRmSreg : (after { coded [0x8E, 0xD8] with gpr := axBx 0x1000 0 }).map (fun t => t.sreg.ds) =
    some 0x1000 := by decide
theorem test_movRmSreg_memory :
    (after { coded [0x8E, 0x06, 0x00, 0x01] with mem := [(0x100, 0x55)] }).map
      (fun t => (t.sreg, t.mem, t.ip)) = some (Sregs.zero, [(0x100, 0x55)], 4) := by decide
theorem test_movSregRm :
    (after { coded [0x8C, 0xC3] with sreg := { Sregs.zero with es := 0x2222 } }).map (fun t => t.gpr.bx) =
      some 0x2222 := by decide
theorem test_movSregRm_memory :
    (after { coded [0x8C, 0x06, 0x00, 0x01] with sreg := { Sregs.zero with es := 0x2222 } }).map
      (fun t => t.mem) = some [] := by decide
/-- A store of 0 takes the entry out, so that equal memories are equal lists. -/
theorem test_store_zero :
    (after { coded [0xA2, 0x10] with mem := [(0x10, 0x99), (0x20, 1)] }).map (fun t => t.mem) =
      some [(0x20, 1)] := by decide

/-! ### Execution: add, sub, cmp (95_test_vectors.md 2.5 and 2.7; flags ZF SF PF CF OF AF) -/


theorem test_addRmReg :
    (after { coded [0x03, 0xC3] with gpr := axBx 2 3 }).map (fun t => (t.gpr.ax, six t.flags)) =
      some (5, [false, false, true, false, false, false]) := by decide
theorem test_addRmReg_byte :
    (after { coded [0x00, 0xD8] with gpr := axBx 0x00FF 1 }).map (fun t => (t.gpr.ax, six t.flags)) =
      some (0, [false, false, true, true, true, true]) := by decide
theorem test_addImmRm :
    (after { coded [0x83, 0xC6, 0x02] with gpr := { Gpr.zero with si := 0x00FE } }).map (fun t => (t.gpr.si, six t.flags)) =
      some (0x0100, [false, false, true, true, false, true]) := by decide
theorem test_addImmRm_sext :
    (after { coded [0x83, 0xC0, 0xFF] with gpr := axBx 1 0 }).map (fun t => (t.gpr.ax, six t.flags)) =
      some (0, [false, false, true, true, true, true]) := by decide
theorem test_addImmAcc :
    (after { coded [0x04, 0x01] with gpr := axBx 0x12FF 0 }).map (fun t => (t.gpr.ax, six t.flags)) =
      some (0x1200, [false, false, true, true, true, true]) := by decide
theorem test_subRmReg :
    (after { coded [0x29, 0xD8] with gpr := axBx 0 1 }).map (fun t => (t.gpr.ax, six t.flags)) =
      some (0xFFFF, [false, true, true, true, false, true]) := by decide
theorem test_subRmReg_self :
    (after { coded [0x29, 0xC0] with gpr := axBx 0x1234 0 }).map (fun t => (t.gpr.ax, six t.flags)) =
      some (0, [true, false, true, false, false, false]) := by decide
theorem test_subImmRm :
    (after { coded [0x83, 0xE8, 0xFF] with gpr := axBx 0 0 }).map (fun t => (t.gpr.ax, six t.flags)) =
      some (1, [false, false, false, true, true, true]) := by decide
theorem test_subImmRm_signed :
    (after { coded [0x83, 0xE8, 0xFF] with gpr := axBx 0 0, params := signed }).map (fun t => (t.gpr.ax, six t.flags)) =
      some (1, [false, false, false, false, false, true]) := by decide
theorem test_subImmAcc :
    (after { coded [0x2C, 0x80] with gpr := axBx 0 0 }).map (fun t => (t.gpr.ax, six t.flags)) =
      some (0x80, [false, true, false, true, true, false]) := by decide
theorem test_cmpRmReg :
    (after { coded [0x39, 0xD8] with gpr := axBx 3 5 }).map (fun t => (t.gpr.ax, six t.flags)) =
      some (3, [false, true, false, true, false, true]) := by decide
theorem test_cmpImmRm :
    (after { coded [0x80, 0xFB, 0x05] with gpr := axBx 0 5 }).map (fun t => (t.gpr.bx, six t.flags)) =
      some (5, [true, false, true, false, false, false]) := by decide
theorem test_cmpImmAcc :
    (after { coded [0x3D, 0xFF, 0xFF] with gpr := axBx 0xFFFF 0 }).map (fun t => (t.gpr.ax, six t.flags)) =
      some (0xFFFF, [true, false, true, false, false, false]) := by decide
theorem test_addRmReg_memory :
    (after { coded [0x03, 0x07] with gpr := axBx 1 0, mem := [(0, 5)] }).map (fun t => (t.gpr.ax, six t.flags)) =
      some (1, [false, false, false, false, false, false]) := by decide
theorem test_cmpImmRm_memory :
    (after { coded [0x80, 0x3F, 0x22] with gpr := axBx 0 0 }).map (fun t => (t.gpr.bx, six t.flags)) =
      some (0, [false, false, false, false, false, false]) := by decide

/-- 2.6: sub, word, 0x0000 - 0x8001. -/
theorem test_flagUnit :
    six (flagUnit .nibbleCarry .sub (-32769) 0x8001 .word Flags.clear) =
      [false, false, true, true, true, true] := by decide

/-! ### Execution: jumps and loops (95_test_vectors.md 2.8) -/

theorem test_jb : (after { coded ([0x72, 0x80]) with flags := { Flags.clear with CF := true } }).map (fun t => t.ip) =
    some 0xFF82 := by decide
theorem test_jb_not : (after { coded ([0x72, 0x80]) with flags := Flags.clear }).map (fun t => t.ip) =
    some 2 := by decide
theorem test_je : (after { coded ([0x74, 0xFE]) with flags := { Flags.clear with ZF := true } }).map (fun t => t.ip) =
    some 0 := by decide
theorem test_je_not : (after { coded ([0x74, 0xFE]) with flags := Flags.clear }).map (fun t => t.ip) =
    some 2 := by decide
theorem test_jne : (after { coded (List.replicate 13 0 ++ [0x75, 0x02]) with ip := 13 }).map (fun t => t.ip) =
    some 17 := by decide
theorem test_jne_not : (after { coded (List.replicate 13 0 ++ [0x75, 0x02]) with ip := 13, flags := { Flags.clear with ZF := true } }).map (fun t => t.ip) =
    some 15 := by decide
theorem test_jp : (after { coded (List.replicate 10 0 ++ [0x7A, 0xFC]) with ip := 10, flags := { Flags.clear with PF := true } }).map (fun t => t.ip) =
    some 8 := by decide
theorem test_jp_not : (after { coded (List.replicate 10 0 ++ [0x7A, 0xFC]) with ip := 10 }).map (fun t => t.ip) =
    some 12 := by decide
theorem test_loopnz : (after { coded ([0xE0, 0xFE]) with gpr := { Gpr.zero with cx := 1 } }).map (fun t => (t.gpr.cx, t.ip)) =
    some (0, 2) := by decide
theorem test_loopnz_zero : (after { coded ([0xE0, 0xFE]) with gpr := Gpr.zero }).map (fun t => (t.gpr.cx, t.ip)) =
    some (0xFFFF, 0) := by decide
theorem test_loopnz_zf : (after { coded ([0xE0, 0xFE]) with gpr := { Gpr.zero with cx := 5 }, flags := { Flags.clear with ZF := true } }).map (fun t => (t.gpr.cx, t.ip)) =
    some (4, 2) := by decide

/-- All flags set: the condition of no unwired jump is read (2.8, R211). -/
def allFlags : Flags := ⟨true, true, true, true, true, true, true, true, true⟩

/-- The unwired jumps and loops, with all flags set and with none: ip goes on by 2 and nothing else changes. -/
theorem test_unwired :
    ∀ b0 ∈ [(0x70 : Byte), 0x71, 0x73, 0x76, 0x77, 0x78, 0x79, 0x7B, 0x7C, 0x7D, 0x7E, 0x7F, 0xE1, 0xE2, 0xE3],
      ∀ f ∈ [Flags.clear, allFlags],
        (after { coded [b0, 0x10] with flags := f, gpr := { Gpr.zero with cx := 5 } }).map
          (fun t => (t.ip, t.gpr, t.flags)) = some (2, { Gpr.zero with cx := 5 }, f) := by decide

/-! ### Outputs -/

/-- 70_reset_and_hazards.md R297: the flags of P1's end state are listed as O, A and C. -/
theorem test_dump :
    (State.dump { State.reset with flags := { Flags.clear with OF := true, CF := true, AF := true } }).flags =
      [.OF, .AF, .CF] := by decide

/-- 95_test_vectors.md P4 under Refuse: the end state has ip past the jump. -/
theorem test_refused_end :
    runEnd { coded [0x7C, 0xFE] with params := refusing } =
      some (.refused { coded [0x7C, 0xFE] with params := refusing, ip := 2, latch := some (.jcc, .jl) }
        (.unimplemented 0 .jl)) := by decide

/-! ### Witnesses: the hypotheses of the obligations can be met -/

theorem witness_StartSequenceLoadsTheInput :
    65535 < (List.replicate 65536 (0 : Byte)).length ∧ (List.replicate 65535 (0 : Byte)).length ≤ 65535 ∧
    ([] : List Byte).length ≤ 65535 :=
  ⟨by rw [List.length_replicate]; decide, by rw [List.length_replicate], by decide⟩

theorem witness_LaunchMeetsTheInvariant :
    launch .default ⟨axBx 2 3, .zero, .clear⟩ (some [0x03, 0xC3]) =
      .next (started .default ⟨axBx 2 3, .zero, .clear⟩ [0x03, 0xC3]) := rfl

/-- A state with memory, code and a latch, at `je -2` with ZF set. -/
def busy : State where
  gpr    := axBx 0x1234 0xFFFF
  sreg   := { Sregs.zero with ds := 7 }
  ip     := 0
  flags  := { Flags.clear with ZF := true }
  mem    := [(0, 0x12), (0xFFFF, 0x34)]
  code   := [0x74, 0xFE]
  latch  := some (.rmReg, .add)
  params := .default

theorem busy_inv : Inv busy := ⟨by decide, by decide, by decide⟩

theorem busy_step : step busy = .next { busy with latch := some (.jcc, .je) } := next_of_after (by decide)

theorem witness_StepKeepsTheInvariant : ∃ t, Inv busy ∧ step busy = .next t := ⟨_, busy_inv, busy_step⟩

theorem witness_StepRunsTheDecodedInstruction :
    busy.halted = false ∧ decode busy.params busy.latch busy.fetch = .ok ⟨0x74, .jcc, .je 0xFE, 2⟩ := by decide

theorem witness_EndedRunStaysAsItIs :
    State.reset.code.length ≤ State.reset.ip.toNat ∧
    ({ busy with ip := 2 } : State).code.length ≤ ({ busy with ip := 2 } : State).ip.toNat ∧
    ({ busy with ip := 0xFFFF } : State).code.length ≤ ({ busy with ip := 0xFFFF } : State).ip.toNat := by decide

/-- `add ax, [bx]` under Refuse. -/
def refusedAdd : State := { coded [0x03, 0x07] with params := refusing }

theorem refusedAdd_step : step refusedAdd = .refused (.unimplemented 0 .add) := refused_of (by decide)

theorem witness_RunEndsInThreeWays :
    (∃ final, runEnd refusedAdd = some (.refused final (.unimplemented 0 .add))) ∧
    step refusedAdd = .refused (.unimplemented 0 .add) ∧
    step (coded [0x0F, 0x00]) = .fault (.unmappedOpcode 0 0x0F none) :=
  ⟨⟨{ refusedAdd with ip := 2, latch := some (.rmReg, .add) }, by decide⟩, refusedAdd_step,
    fault_of (by decide)⟩

theorem witness_FaultsComeFromTheDecoder :
    step (coded [0x8C, 0x00]) = .fault (.decodeError 0 0x8C 0x00 .rmSreg .mov) := fault_of (by decide)

theorem witness_DecodeFaultPriority :
    ([] : List Byte).length < 2 ∧ ([0x0F] : List Byte).length < 2 ∧
    classify .default none 0x0F 0 = .error (.unmappedOpcode 0x0F none) ∧
    classify .default none 0x80 0xC8 = .error (.unmappedOpcode 0x80 (some 0xC8)) ∧
    classify .default none 0x8C 0 = .ok (.rmSreg, .mov) ∧
    lengthCalc .mov (extractFields .rmSreg .mov 0x8C 0) = none ∧
    classify .default none 0x8B 0x0E = .ok (.rmReg, .mov) ∧
    lengthCalc .mov (extractFields .rmReg .mov 0x8B 0x0E) = some 4 ∧
    ([0x8B, 0x0E, 0x00] : List Byte).length < bytesNeeded .default (extractFields .rmReg .mov 0x8B 0x0E) 4 := by
  decide

/-- A six-byte instruction cut after its fifth byte, and after its first. -/
theorem witness_CutInstructionFaults :
    Instr.wf .default (.movImmRm (.direct 512) (.word 42)) = true ∧
    (5 : Nat) < (Instr.movImmRm (.direct 512) (.word 42)).bytesRead .default ∧
    (coded [0xC7, 0x06, 0x00, 0x02, 0x2A]).fetch =
      (encode .default (.movImmRm (.direct 512) (.word 42))).take 5 ∧
    (coded [0xC7]).fetch = (encode .default (.movImmRm (.direct 512) (.word 42))).take 1 ∧
    Instr.wf lo16 (.movMemAcc .byte 0x2010) = true ∧
    ({ coded [0xA0, 0x10] with params := lo16 } : State).fetch =
      (encode lo16 (.movMemAcc .byte 0x2010)).take 2 ∧
    (2 : Nat) < (Instr.movMemAcc .byte 0x2010).bytesRead lo16 := by decide

theorem witness_TraceRecordPerDecode :
    busy.ip.toNat < busy.code.length ∧ decode busy.params busy.latch busy.fetch = .ok ⟨0x74, .jcc, .je 0xFE, 2⟩ ∧
    (coded [0x0F, 0x00]).ip.toNat < (coded [0x0F, 0x00]).code.length ∧
    faultOf (coded [0x0F, 0x00]) = some (.unmappedOpcode 0 0x0F none) := by decide

theorem witness_DumpListsSlotsAndSetFlags : State.reset.code.length ≤ State.reset.ip.toNat := by decide

/-- An unmapped first byte and an unmapped group code, by each policy. -/
theorem witness_UnmappedBytesFollowThePolicy :
    (coded [0x90, 0x07]).fetch = [0x90, 0x07] ∧ isMapped 0x90 = false ∧ isMapped 0x06 = false ∧
    (coded [0x90, 0x07]).params.unmapped = .fault ∧
    ({ coded [0x90, 0x07] with params := stale } : State).latch = none ∧
    ({ coded [0x90, 0x07] with params := stale, latch := some (.immReg, .mov) } : State).latch =
      some (.immReg, .mov) ∧
    (coded [0x80, 0xC8]).fetch = [0x80, 0xC8] ∧ isGroup 0x80 = true ∧ isGroup 0x83 = true ∧
    isUnmappedExt 0xC8 = true ∧ isUnmappedExt 0xF0 = true ∧
    Mnemonic.je ≠ .mov ∧ Mnemonic.je ≠ .add ∧ Mnemonic.je ≠ .sub ∧ Mnemonic.je ≠ .cmp := by decide

theorem witness_DecodeErrorExactly :
    latchOk (some (.jcc, .je)) = true ∧
    decode stale (some (.jcc, .je)) [0x80, 0xC8] = .error (.decodeError 0x80 0xC8 .immRm .je) ∧
    classify .default none 0x80 0xC0 = .ok (.immRm, .add) ∧
    decode .default none [0x8E, 0x07] = .error (.decodeError 0x8E 0x07 .rmSreg .mov) := by decide

theorem witness_LengthTable :
    Mnemonic.jcxz ≠ .mov ∧ Mnemonic.jcxz ≠ .add ∧ Mnemonic.jcxz ≠ .sub ∧ Mnemonic.jcxz ≠ .cmp := by decide

theorem witness_DecodeOfEncodeIsTheInstruction :
    Instr.wf .default (.addImmRm (.mem16 .bp 0xFFFF) (.sextByte 0x80)) = true ∧
    Instr.wf .default (.movAccMem .byte 255) = true ∧ Instr.wf lo16 (.movAccMem .byte 0xFFFF) = true ∧
    Instr.wf .default (.movSregRm .cs (.direct 0)) = true := by decide

/-- Each ignored bit set: REG of 0xC6, b1[5] of 0x8C, and 0x82. -/
theorem witness_OnlyIgnoredBitsAreDropped :
    decoded .default none [0xC6, 0x3F, 0x22] = some (.movImmRm (.mem .bx) (.byte 34), 3) ∧
    decoded .default none [0x8C, 0xE3] = some (.movSregRm .es (.reg 3), 2) ∧
    decoded .default none [0x82, 0xC0, 0x01] = some (.addImmRm (.reg 0) (.byte 1), 3) ∧
    Params.default.unmapped = .fault ∧
    decoded stale (some (.jcc, .je)) [0x82, 0xC0, 0x01] = some (.addImmRm (.reg 0) (.byte 1), 3) ∧
    classifyTables 0x82 0xC0 = some (.immRm, some .add) := by decide

theorem witness_DecodedInstructionsAreWellFormed :
    decoded stale (some (.immReg, .mov)) [0x90, 0x07] = some (.movImmReg 0 (.byte 7), 2) := by decide

theorem witness_FetchWindowIsSixBytes :
    decoded .default none [0xC7, 0x06, 0x00, 0x01, 0x05, 0x00, 0x90] =
      some (.movImmRm (.direct 256) (.word 5), 6) := by decide

theorem witness_FirstTwoBytesFixTheLength :
    decoded .default none [0xC7, 0x06, 0x00, 0x01, 0x05, 0x00] = some (.movImmRm (.direct 256) (.word 5), 6) ∧
    decoded .default (some (.jcc, .je)) [0xC7, 0x06, 0xFF, 0xFF, 0xFF, 0xFF, 0x74] =
      some (.movImmRm (.direct 0xFFFF) (.word 0xFFFF), 6) ∧ Params.default.unmapped = .fault ∧
    decoded stale none [0x83, 0xC0, 0xFF] = some (.addImmRm (.reg 0) (.sextByte 0xFF), 3) ∧
    decoded stale (some (.immRm, .mov)) [0x83, 0xC0, 0x00] = some (.addImmRm (.reg 0) (.sextByte 0), 3) ∧
    isMapped 0x83 = true ∧ isGroup 0x83 = true ∧ isUnmappedExt 0xC0 = false := by decide

/-- P1 of 95_test_vectors.md as chunks. -/
def p1 : List (List Byte) :=
  [[0xB8, 0x05, 0x00], [0xBB, 0x03, 0x00], [0x01, 0xD8], [0x29, 0xC3], [0x39, 0xD8]]

theorem witness_LengthSumLaw :
    (∀ (k : Nat) (h : k < p1.length), ∃ d, decode .default none p1[k] = .ok d ∧ d.len = p1[k].length) ∧
    p1.flatten.length = 12 :=
  ⟨fun
    | 0, _ | 1, _ | 2, _ | 3, _ | 4, _ => ⟨_, rfl, rfl⟩
    | _ + 5, h => absurd h (by simp [p1]), rfl⟩

/-- Under Lo16 the byte form at offset 0 reads its third byte from the instruction behind it. -/
theorem witness_LengthSumLaw_inPlace :
    decoded lo16 none ([0xA0, 0x10, 0x74, 0xFE].drop 0) = some (.movMemAcc .byte 0x7410, 2) ∧
    decoded lo16 none ([0xA0, 0x10, 0x74, 0xFE].drop 2) = some (.je 0xFE, 2) ∧
    ((List.range 1).map fun _ => 2).sum = 2 ∧ ((List.range 2).map fun _ => 2).sum = 4 ∧
    ([0xA0, 0x10, 0x74, 0xFE] : List Byte).length = 4 := by decide

theorem witness_WordWriteReplacesTheSlot : (.bx : Reg16) ≠ wordReg 0 := by decide

theorem witness_HalfRegisterAliasing :
    byteHalf 0 = .low ∧ byteHalf 3 = .low ∧ byteHalf 4 = .high ∧ byteHalf 7 = .high ∧
    (.cx : Reg16) ≠ byteSlot 4 := by decide

theorem witness_MixedWidthMemoryView :
    (5 : Nat) ≠ (0xFFFF : Word).toNat ∧ 5 ≠ ((0xFFFF : Word).toNat + 1) % 65536 := by decide

theorem witness_CanonicalMemoriesThatReadAlikeAreEqual :
    Memory.wf [(0, 0x12), (0xFFFF, 0x34)] = true := by decide

/-- Each form of the address at an end of its range: `[bx + di]` past 65535, `[bp - 128]` from 0, a word
displacement of 0xFFFF, and the direct address 0xFFFF; and the instructions' code bytes. -/
theorem witness_MemoryOperandsLieAtTheTableAddress :
    (((0xFFFE : Word).toNat : Int) = ((0xFFFF : Word).toNat + (0xFFFF : Word).toNat : Int) % 65536) ∧
    (((0xFF80 : Word).toNat : Int) = ((0 : Word).toNat + (0x80 : Byte).toInt) % 65536) ∧
    (((0xFFFE : Word).toNat : Int) = ((0xFFFF : Word).toNat + (0xFF * 256 + 0xFF)) % 65536) ∧
    (((0xFFFF : Word).toNat : Int) = (0xFF * 256 + 0xFF) % 65536) ∧
    (coded [0x8A, 0x46, 0x80]).fetch = 0x8A :: (0b01#2 ++ 0#3 ++ 0b110#3) :: ([0x80] ++ []) ∧
    (coded [0x8B, 0x01]).fetch = 0x8B :: (0b00#2 ++ 0#3 ++ 0b001#3) :: ([] ++ []) ∧
    (coded [0x88, 0x06, 0xFF, 0xFF]).fetch = 0x88 :: (0b00#2 ++ 0#3 ++ 0b110#3) :: ([0xFF, 0xFF] ++ []) ∧
    (coded [0x89, 0xBF, 0xFF, 0xFF]).fetch = 0x89 :: (0b10#2 ++ 7#3 ++ 0b111#3) :: ([0xFF, 0xFF] ++ []) ∧
    (coded [0xC6, 0x46, 0x80, 0x22]).fetch = 0xC6 :: (0b01#2 ++ 0#3 ++ 0b110#3) :: ([0x80] ++ 0x22 :: []) ∧
    (coded [0xC7, 0x46, 0x80, 0x22, 0x11]).fetch =
      0xC7 :: (0b01#2 ++ 0#3 ++ 0b110#3) :: ([0x80] ++ 0x22 :: 0x11 :: []) := by decide

theorem witness_SegmentRegisterMoves :
    (∀ n, Rm.direct 256 ≠ .reg n) ∧ Params.default.unimpl = .noOp ∧ refusing.unimpl = .refuse :=
  ⟨fun _ h => Rm.noConfusion h, rfl, rfl⟩

/-- Every executed ALU constructor, register and accumulator. -/
theorem witness_AddAndSubStoreTheWrappedResult :
    executedAlu (.addRmReg .regDst .word 0 (.reg 3)) = some (.add, .word, .reg16 0, .loc (.reg16 3)) ∧
    executedAlu (.addImmRm (.reg 4) (.byte 0xFF)) = some (.add, .byte, .reg8 4, .imm (.byte 0xFF)) ∧
    executedAlu (.addImmAcc (.byte 1)) = some (.add, .byte, .reg8 0, .imm (.byte 1)) ∧
    executedAlu (.subRmReg .rmDst .byte 4 (.reg 0)) = some (.sub, .byte, .reg8 0, .loc (.reg8 4)) ∧
    executedAlu (.subImmRm (.reg 0) (.sextByte 0x80)) = some (.sub, .word, .reg16 0, .imm (.word 0xFF80)) ∧
    executedAlu (.subImmAcc (.word 0xFFFF)) = some (.sub, .word, .reg16 0, .imm (.word 0xFFFF)) ∧
    AluOp.add ≠ .cmp ∧ AluOp.sub ≠ .cmp ∧
    ⟨.subImmRm (.reg 0) (.sextByte 0x80), .sub, .word, .reg16 0, 65408⟩ ∈ aluRows (coded []) 0 0 0x80 0 :=
  ⟨rfl, rfl, rfl, rfl, rfl, rfl, by decide, by decide, by decide⟩

theorem witness_CmpChangesOnlyTheFlags :
    executedAlu (.cmpRmReg .rmDst .word 3 (.reg 0)) = some (.cmp, .word, .reg16 0, .loc (.reg16 3)) ∧
    executedAlu (.cmpImmRm (.reg 3) (.byte 5)) = some (.cmp, .byte, .reg8 3, .imm (.byte 5)) ∧
    executedAlu (.cmpImmAcc (.word 0xFFFF)) = some (.cmp, .word, .reg16 0, .imm (.word 0xFFFF)) := by decide

theorem witness_AluFlagsComeFromTheUnit :
    executedAlu (.subImmAcc (.byte 0x80)) = some (.sub, .byte, .reg8 0, .imm (.byte 0x80)) ∧
    signed.operandRead = .signed ∧
    2 ^ (widthBits .byte - 1) ≤ (coded []).readOp .byte (.imm (.byte 0x80)) ∧
    ⟨.cmpRmReg .regDst .byte 4 (.reg 0), .cmp, .byte, .reg8 4, 0⟩ ∈ aluRows (coded []) 4 0 0 0 := by decide

theorem witness_FlagUnitFormulas :
    Params.default.afRule = .nibbleCarry ∧
    ({ Params.default with afRule := .opaqueRule } : Params).afRule = .opaqueRule := by decide

theorem witness_AuxiliaryCarryOfTheOperands :
    executedAlu (.addImmAcc (.byte 1)) = some (.add, .byte, .reg8 0, .imm (.byte 1)) ∧
    (coded []).params.afRule = .nibbleCarry := by decide

theorem witness_AluExecutesInRegisterModeOnly :
    (executedAlu (.addImmAcc (.byte 1))).isSome = true ∧ (∀ n, Rm.mem .bx ≠ .reg n) ∧
    Params.default.unimpl = .noOp ∧ refusing.unimpl = .refuse :=
  ⟨rfl, fun _ h => Rm.noConfusion h, rfl, rfl⟩

theorem witness_IntermediateResultLaws :
    (65535 : Nat) < 2 ^ widthBits .word ∧ (32768 : Nat) < 2 ^ widthBits .word ∧
    (0 : Nat) < 2 ^ widthBits .byte ∧ (255 : Nat) < 2 ^ widthBits .byte ∧ AluOp.sub ≠ .add := by decide

theorem witness_OperandReadChangesThreeFlagsOnly :
    (executedAlu (.addRmReg .rmDst .byte 0 (.reg 0))).isSome = true ∧
    Params.default.afRule = .nibbleCarry := by decide

theorem witness_SameRegisterOperands :
    executedAlu (.addRmReg .rmDst .word 0 (.reg 0)) = some (.add, .word, regLoc .word 0, .loc (regLoc .word 0)) ∧
    executedAlu (.subRmReg .rmDst .byte 7 (.reg 7)) = some (.sub, .byte, regLoc .byte 7, .loc (regLoc .byte 7)) ∧
    executedAlu (.cmpRmReg .regDst .word 5 (.reg 5)) = some (.cmp, .word, regLoc .word 5, .loc (regLoc .word 5)) ∧
    executedAlu (.addRmReg .rmDst .byte 4 (.reg 0)) = some (.add, .byte, .reg8 0, .loc (.reg8 4)) ∧
    byteSlot 0 = byteSlot 4 ∧ (0 : BitVec 3) ≠ 4 := by decide

theorem witness_UnwiredJumpsDoNothing :
    Params.default.unimpl = .noOp ∧ refusing.unimpl = .refuse := by decide

theorem witness_UnwiredLoopsDoNothing :
    Params.default.unimpl = .noOp ∧ refusing.unimpl = .refuse := by decide

theorem witness_JumpsWriteOnlyIpAndCx :
    (Instr.loopnz 0xFE).kind = .jcc ∧ (∃ t, exec (.loopnz 0xFE) busy = .next t) ∧
    (Instr.jl 0xFE).kind = .jcc ∧ exec (.jl 0xFE) busy = .next busy :=
  ⟨rfl, ⟨_, rfl⟩, rfl, rfl⟩

theorem witness_BranchToSelfNeverEnds :
    (busy.fetch = 0x74 :: 0xFE :: [] ∧ busy.flags.ZF = true) ∧
    ((coded [0x75, 0xFE]).fetch = 0x75 :: 0xFE :: [] ∧ (coded [0x75, 0xFE]).flags.ZF = false) ∧
    (({ coded [0x72, 0xFE] with flags := allFlags } : State).fetch = 0x72 :: 0xFE :: [] ∧ allFlags.CF = true) ∧
    (({ coded [0x7A, 0xFE] with flags := allFlags } : State).fetch = 0x7A :: 0xFE :: [] ∧
      allFlags.PF = true) := by decide

/-- From cx = 0 and from cx = 1. -/
theorem witness_LoopnzToSelfEnds :
    (coded [0xE0, 0xFE]).fetch = 0xE0 :: 0xFE :: [] ∧ (coded [0xE0, 0xFE]).flags.ZF = false ∧
    (coded [0xE0, 0xFE]).getReg .cx = 0 ∧
    ({ coded [0xE0, 0xFE] with gpr := { Gpr.zero with cx := 1 } } : State).getReg .cx = 1 := by decide

theorem witness_EveryInstructionCompletes :
    busy.params.unimpl = .noOp ∧ refusedAdd.params.unimpl = .refuse ∧
    isUnimplemented (.addRmReg .regDst .word 0 (.reg 3)) = false := by decide

theorem witness_RefusalsRecordIpAndMnemonic :
    step refusedAdd = .refused (.unimplemented 0 .add) ∧ refusedAdd.params.unimpl = .refuse ∧
    refusedAdd.ip.toNat < refusedAdd.code.length ∧
    decoded refusedAdd.params refusedAdd.latch refusedAdd.fetch =
      some (.addRmReg .regDst .word 0 (.mem .bx), 2) ∧
    isUnimplemented (.addRmReg .regDst .word 0 (.mem .bx)) = true :=
  ⟨refusedAdd_step, by decide⟩

theorem witness_OnlyTakenBranchesLeaveTheSequence :
    busy.ip.toNat < busy.code.length ∧ decode busy.params busy.latch busy.fetch = .ok ⟨0x74, .jcc, .je 0xFE, 2⟩ ∧
    ∃ t, step busy = .next t := ⟨by decide, by decide, _, busy_step⟩

theorem witness_OnlyExecutedAluWritesFlags :
    (∃ t, step busy = .next t) ∧ (∃ t, exec (.movAccMem .word 0xFFFF) busy = .next t) ∧
    executedAlu (.movAccMem .word 0xFFFF) = none := ⟨⟨_, busy_step⟩, ⟨_, rfl⟩, rfl⟩

theorem witness_StoresNeverReachTheCode : ∃ t, step busy = .next t := ⟨_, busy_step⟩

theorem witness_OnlyMovReachesMemory :
    (∃ t, exec (.movAccMem .word 0xFFFF) busy = .next t) ∧ (∃ t, exec (.subImmAcc (.byte 1)) busy = .next t) :=
  ⟨⟨_, rfl⟩, ⟨_, rfl⟩⟩

theorem witness_SegmentRegistersTakeNoPart :
    (∃ t, exec (.movRmSreg .es (.reg 3)) busy = .next t) ∧ (∃ t, exec (.movMemAcc .word 0) busy = .next t) ∧
    (∀ g n, Instr.movMemAcc .word 0 ≠ .movSregRm g (.reg n)) ∧
    (∀ g n, Instr.movMemAcc .word 0 ≠ .movRmSreg g (.reg n)) ∧
    (∀ g n, Instr.movRmSreg .es (.reg 3) ≠ .movSregRm g (.reg n)) :=
  ⟨⟨_, rfl⟩, ⟨_, rfl⟩, fun _ _ h => Instr.noConfusion h, fun _ _ h => Instr.noConfusion h,
    fun _ _ h => Instr.noConfusion h⟩

theorem witness_LatchHoldsTheLastClassification :
    (∃ t, step busy = .next t) ∧ busy.ip.toNat < busy.code.length ∧
    step (coded [0x0F, 0x00]) = .fault (.unmappedOpcode 0 0x0F none) :=
  ⟨⟨_, busy_step⟩, by decide, fault_of (by decide)⟩

theorem witness_LatchIsHiddenUnderFault :
    busy.params.unmapped = .fault ∧ busy.ip.toNat < busy.code.length := by decide

end Sys2Proof.Tests
end

section
/-! PROOFS of family 00_scope.md: the fetch window (R14). -/

namespace Sys2Proof

/-- A prefix keeps the code bytes that lie in it. -/
theorem byteAt_take {bs : List Byte} {n i : Nat} (h : i < n) : byteAt (bs.take n) i = byteAt bs i := by
  simp [byteAt, h]

theorem two_le_baseLen (mod : BitVec 2) (rm : BitVec 3) : 2 ≤ baseLen mod rm :=
  Nat.le_add_right 2 _

/-- Two to four bytes before an immediate, one or two in it (30_encoding.md R140 to R148). -/
theorem lengthCalc_bounds {m : Mnemonic} {f : Fields} {n : Nat} (h : lengthCalc m f = some n) :
    2 ≤ n ∧ n ≤ 6 := by
  cases f with
  | rmReg d w mod reg rm | rmSreg d mod sr rm =>
    have hmin := two_le_baseLen mod rm
    have hmax := baseLen_le mod rm
    simp [lengthCalc] at h
    omega
  | immRm w s mod reg rm =>
    have hmin := two_le_baseLen mod rm
    have hmax := baseLen_le mod rm
    have himm := Laws.EncodeShape.width_bytes_bounds w
    simp only [lengthCalc] at h
    split at h
    · simp only [Option.some.injEq] at h
      split at h <;> omega
    · simp at h
      omega
  | immReg w reg | acc d w =>
    have himm := Laws.EncodeShape.width_bytes_bounds w
    simp [lengthCalc] at h
    omega
  | jcc =>
    simp [lengthCalc] at h
    omega

/-- The byte accumulator forms that read past their length read three bytes (30_encoding.md R130). -/
theorem bytesNeeded_le_max (p : Params) (f : Fields) (len : Nat) : bytesNeeded p f len ≤ max len 3 := by
  unfold bytesNeeded
  split <;> omega

theorem bytesNeeded_le_six {p : Params} {m : Mnemonic} {f : Fields} {n : Nat} (h : lengthCalc m f = some n) :
    bytesNeeded p f n ≤ 6 := by
  have := (lengthCalc_bounds h).2
  have := bytesNeeded_le_max p f n
  omega

/-- The stages after the classifier read no byte beyond the sixth; where bytes are missing, fewer than
six are there, so the fault reports the same count. -/
theorem decodeAs_take_six (p : Params) (k : Kind) (m : Mnemonic) (b0 b1 : Byte) (bs : List Byte) :
    decodeAs p k m b0 b1 (bs.take 6) = decodeAs p k m b0 b1 bs := by
  by_cases hshort : bs.length ≤ 6
  · rw [List.take_of_length_le hshort]
  cases hlen : lengthCalc m (extractFields k m b0 b1) with
  | none => simp [decodeAs, hlen]
  | some n =>
    have hneed : bytesNeeded p (extractFields k m b0 b1) n ≤ 6 := bytesNeeded_le_six hlen
    have hasm : assemble p m (extractFields k m b0 b1) (bs.take 6) = assemble p m (extractFields k m b0 b1) bs :=
      assemble_congr hlen fun i hi => byteAt_take (by omega)
    have hfull : ¬ (bs.take 6).length < bytesNeeded p (extractFields k m b0 b1) n := by
      rw [List.length_take]; omega
    have hall : ¬ bs.length < bytesNeeded p (extractFields k m b0 b1) n := by omega
    simp only [decodeAs, hlen, hasm, if_neg hfull, if_neg hall]

theorem decode_take_six (p : Params) (latch : Option (Kind × Mnemonic)) (bs : List Byte) :
    decode p latch (bs.take 6) = decode p latch bs := by
  match bs with
  | [] | [_] => rfl
  | b0 :: b1 :: rest =>
    have hstages := fun k m => decodeAs_take_six p k m b0 b1 (b0 :: b1 :: rest)
    simp only [List.take_succ_cons] at hstages
    simp only [List.take_succ_cons, decode, hstages]

/-- Settles O22: the length calculator answers 2 to 6, the needed bytes lie among the first six, and
assembling reads only needed bytes. -/
theorem fetchWindowIsSixBytes : Obligations.FetchWindowIsSixBytes := by
  refine ⟨fun p latch bs => (decode_take_six p latch bs).symm, fun p latch bs d h => ?_,
    fun _ _ _ _ => ⟨rfl, rfl⟩, fun _ => rfl⟩
  obtain ⟨_, _, _, _, _, _, _, hlen, _⟩ := decode_ok h
  exact lengthCalc_bounds hlen

end Sys2Proof
end

section
/-! PROOFS of family 10_state.md: registers and their aliasing (R32 to R39), the start state (R53), and the
latch, the cycle and the trace record (R46 to R52). -/

namespace Sys2Proof.Machine

/-! ### Register writes (10_state.md R32 to R35, R38, R53) -/

theorem getLsbD_joinWord (lo hi : Byte) (k : Nat) :
    (joinWord lo hi).getLsbD k = if k < 8 then lo.getLsbD k else hi.getLsbD (k - 8) :=
  BitVec.getLsbD_append

/-- Replacing a half keeps each bit outside it. -/
theorem getLsbD_withHalf_outside (h : Half) (v : Word) (b : Byte) {k : Nat} (hlow : h = .low → 8 ≤ k)
    (hhigh : h = .high → k < 8) : (withHalf h v b).getLsbD k = v.getLsbD k := by
  conv_rhs => rw [← joinWord_halves v]
  cases h with
  | low => simp only [withHalf, getLsbD_joinWord, if_neg (Nat.not_lt.2 (hlow rfl))]
  | high => simp only [withHalf, getLsbD_joinWord, if_pos (hhigh rfl)]

@[simp] theorem getReg_writeLoc_reg8 (s : State) (w : Width) (n : BitVec 3) (v : Int) :
    (s.writeLoc w (.reg8 n) v).getReg (byteSlot n) =
      withHalf (byteHalf n) (s.getReg (byteSlot n)) (BitVec.ofInt 8 v) :=
  getReg_setReg_same ..

@[simp] theorem getReg_writeLoc_reg16 (s : State) (w : Width) (n : BitVec 3) (v : Int) :
    (s.writeLoc w (.reg16 n) v).getReg (wordReg n) = BitVec.ofInt 16 v :=
  getReg_setReg_same ..

/-- Settles O27: the register written reads the value narrowed, and its other bits are those of the other
half, which the masked write keeps. -/
theorem halfRegisterAliasing : Obligations.HalfRegisterAliasing := by
  intro s w n v
  refine ⟨readLoc_writeLoc s w (.reg8 n) v, fun r hr => getReg_setReg_other s _ hr,
    fun k _ hlow hhigh => ?_, fun _ => rfl, rfl, rfl⟩
  rw [getReg_writeLoc_reg8]
  exact getLsbD_withHalf_outside _ _ _ hlow hhigh

/-- Settles O26: a word register's slot holds the value narrowed to 16 bits. -/
theorem wordWriteReplacesTheSlot : Obligations.WordWriteReplacesTheSlot := by
  intro s w n v
  refine ⟨?_, rfl, fun r hr => getReg_setReg_other s _ hr, rfl⟩
  rw [getReg_writeLoc_reg16]
  exact toNat_ofInt16 v

/-- Settles O25: the three tables, code by code. -/
theorem registerCodesNameTheRegisters : Obligations.RegisterCodesNameTheRegisters := by
  unfold Obligations.RegisterCodesNameTheRegisters
  decide

/-- Settles O2: each register of the reset state is one of the named zeros. -/
theorem resetIsTheReferenceStart : Obligations.ResetIsTheReferenceStart := by
  refine ⟨rfl, rfl, rfl, Memory.read_nil, fun r => ?_, fun g => ?_, rfl⟩
  · cases r <;> rfl
  · cases g <;> rfl

/-! ### Segment registers (10_state.md R39) -/

/-- The segment register that an operand reads. -/
def operandSegs : Operand → List SegReg
  | .loc l => locSegs l
  | .imm _ | .rel8 _ => []

section
variable (w : Width) (n : BitVec 3) (rm : Rm) (d : Dir) (a : Word)

@[simp] theorem locSegs_regLoc : locSegs (regLoc w n) = [] := by cases w <;> rfl
@[simp] theorem locSegs_direct : locSegs (.direct a) = [] := rfl
@[simp] theorem locSegs_accLoc : locSegs (accLoc w) = [] := locSegs_regLoc w 0
@[simp] theorem locSegs_rmLoc : locSegs (rm.loc w) = [] := by
  cases rm with
  | reg n => exact locSegs_regLoc w n
  | mem | direct | mem8 | mem16 => rfl
@[simp] theorem locSegs_rmRegDst : locSegs (rmRegDst d w n rm) = [] := by cases d <;> simp [rmRegDst]
@[simp] theorem locSegs_rmRegSrc : locSegs (rmRegSrc d w n rm) = [] := by cases d <;> simp [rmRegSrc]
end

/-- The only mov that writes a segment register is the register-direct one to it. -/
theorem executedMov_dst_segs {i w dst src} (h : executedMov i = some (w, dst, src))
    (hi : ∀ g n, i ≠ .movRmSreg g (.reg n)) : locSegs dst = [] := by
  cases i with
  | movRmSreg g rm => cases rm <;> simp [executedMov] at h hi
  | movSregRm g rm => cases rm <;> simp [executedMov] at h; obtain ⟨rfl, rfl, rfl⟩ := h; rfl
  | movRmReg | movImmRm | movImmReg | movMemAcc | movAccMem =>
    simp [executedMov] at h; obtain ⟨rfl, rfl, rfl⟩ := h; simp
  | _ => simp [executedMov] at h

/-- The only mov that reads a segment register is the register-direct one from it. -/
theorem executedMov_src_segs {i w dst src} (h : executedMov i = some (w, dst, src))
    (hi : ∀ g n, i ≠ .movSregRm g (.reg n)) : operandSegs src = [] := by
  cases i with
  | movSregRm g rm => cases rm <;> simp [executedMov] at h hi
  | movRmSreg g rm => cases rm <;> simp [executedMov] at h; obtain ⟨rfl, rfl, rfl⟩ := h; rfl
  | movRmReg | movImmRm | movImmReg | movMemAcc | movAccMem =>
    simp [executedMov] at h; obtain ⟨rfl, rfl, rfl⟩ := h; simp [operandSegs]
  | _ => simp [executedMov] at h

/-- No add, sub or cmp has a segment register operand. -/
theorem executedAlu_segs {i op w dst src} (h : executedAlu i = some (op, w, dst, src)) :
    locSegs dst = [] ∧ operandSegs src = [] := by
  cases i with
  | addRmReg d w' reg rm | subRmReg d w' reg rm | cmpRmReg d w' reg rm =>
    cases rm <;> simp [executedAlu] at h; obtain ⟨rfl, rfl, rfl, rfl⟩ := h; simp [operandSegs]
  | addImmRm rm imm | subImmRm rm imm | cmpImmRm rm imm =>
    cases rm <;> simp [executedAlu] at h; obtain ⟨rfl, rfl, rfl, rfl⟩ := h; simp [operandSegs]
  | addImmAcc imm | subImmAcc imm | cmpImmAcc imm =>
    simp [executedAlu] at h; obtain ⟨rfl, rfl, rfl, rfl⟩ := h; simp [operandSegs]
  | _ => simp [executedAlu] at h

section
variable (s : State) (x : Sregs) (w : Width)

theorem readLoc_ignores_sregs {l : Loc} (hl : locSegs l = []) :
    ({ s with sreg := x } : State).readLoc w l = s.readLoc w l := by
  cases l with
  | sreg g => simp [locSegs] at hl
  | mem b d => cases b <;> rfl
  | reg8 | reg16 | direct => rfl

theorem readOp_ignores_sregs {src : Operand} (hsrc : operandSegs src = []) :
    ({ s with sreg := x } : State).readOp w src = s.readOp w src := by
  cases src with
  | loc l => exact readLoc_ignores_sregs s x w hsrc
  | imm | rel8 => rfl

/-- WriteOp does the same to everything but the segment registers, whatever they hold. -/
theorem writeLoc_with_sregs (l : Loc) (v : Int) :
    ({ s with sreg := x } : State).writeLoc w l v =
      { s.writeLoc w l v with sreg := (({ s with sreg := x } : State).writeLoc w l v).sreg } := by
  cases l with
  | reg8 | reg16 | sreg => rfl
  | mem b d => cases w <;> cases b <;> rfl
  | direct a => cases w <;> rfl

theorem writeLoc_sreg {l : Loc} (hl : locSegs l = []) (v : Int) : (s.writeLoc w l v).sreg = s.sreg := by
  cases l with
  | sreg g => simp [locSegs] at hl
  | mem | direct => exact memWrite_sreg ..
  | reg8 | reg16 => rfl

theorem move_with_sregs (dst : Loc) {src : Operand} (hsrc : operandSegs src = []) :
    move w dst src { s with sreg := x } =
      { move w dst src s with sreg := (move w dst src { s with sreg := x }).sreg } := by
  simp only [move, readOp_ignores_sregs s x w hsrc]
  exact writeLoc_with_sregs s x w dst _

theorem alu_sreg (op : AluOp) {dst : Loc} (src : Operand) (hdst : locSegs dst = []) :
    (alu op w dst src s).sreg = s.sreg := by
  cases op with
  | cmp => rfl
  | add | sub => exact writeLoc_sreg s w hdst _

theorem alu_with_sregs (op : AluOp) {dst : Loc} {src : Operand} (hdst : locSegs dst = [])
    (hsrc : operandSegs src = []) :
    alu op w dst src { s with sreg := x } = { alu op w dst src s with sreg := x } := by
  have hwrite (v : Int) : ({ s with sreg := x } : State).writeLoc w dst v =
      { s.writeLoc w dst v with sreg := x } := by
    rw [writeLoc_with_sregs, writeLoc_sreg _ w hdst]
  cases op <;> simp only [alu, readLoc_ignores_sregs s x w hdst, readOp_ignores_sregs s x w hsrc, hwrite]
end

/-- An instruction other than the register-direct mov from a segment register answers the same next state
but for the segment registers; these it keeps unless it is the register-direct mov to one. -/
theorem exec_ignores_sregs {i : Instr} {s t : State} (x : Sregs) (h : exec i s = .next t)
    (hread : ∀ g n, i ≠ .movSregRm g (.reg n)) :
    ∃ y, exec i { s with sreg := x } = .next { t with sreg := y } ∧
      ((∀ g n, i ≠ .movRmSreg g (.reg n)) → y = x ∧ t.sreg = s.sreg) := by
  rcases exec_next h with ⟨w, dst, src, hi, rfl⟩ | ⟨op, w, dst, src, hi, rfl⟩ | ⟨c, rel, hi, rfl⟩ |
    ⟨rel, rfl, rfl⟩ | ⟨hi, hu, rfl⟩
  · refine ⟨_, (exec_mov _ hi).trans (congrArg _ (move_with_sregs s x w dst (executedMov_src_segs hi hread))),
      fun hwrite => ?_⟩
    have hdst : locSegs dst = [] := executedMov_dst_segs hi hwrite
    exact ⟨writeLoc_sreg _ w hdst _, writeLoc_sreg _ w hdst _⟩
  · obtain ⟨hdst, hsrc⟩ := executedAlu_segs hi
    exact ⟨x, (exec_alu _ hi).trans (congrArg _ (alu_with_sregs s x w op hdst hsrc)),
      fun _ => ⟨rfl, alu_sreg s w op src hdst⟩⟩
  · have hi' : wiredJump { s with sreg := x } i = some (c, rel) := by cases i <;> exact hi
    refine ⟨x, (exec_jump _ hi').trans ?_, fun _ => ⟨rfl, branchIf_sreg ..⟩⟩
    cases c <;> rfl
  · refine ⟨x, ?_, fun _ => ⟨rfl, afterLoopnz_sreg ..⟩⟩
    simp only [exec_loopnz, afterLoopnz, branchIf_eq]
    rfl
  · exact ⟨x, (exec_unimplemented _ hi).trans (unimplemented_noOp i hu), fun _ => ⟨rfl, rfl⟩⟩

/-- Settles O58: neither fetch nor decode reads a segment register, and no operand of another instruction
is one. -/
theorem segmentRegistersTakeNoPart : Obligations.SegmentRegistersTakeNoPart :=
  ⟨fun _ _ => rfl, fun _ _ _ x h hread => exec_ignores_sregs x h hread⟩

/-! ### The latch, the cycle and the trace record (10_state.md R46 to R52) -/

/-- No instruction faults: all faults come from the decoder (60_exceptions.md R265). -/
theorem exec_ne_fault (i : Instr) (s : State) (r : Fault) : exec i s ≠ .fault r := by
  intro h
  rcases instr_shape i s with ⟨w, dst, src, hi⟩ | ⟨op, w, dst, src, hi⟩ | ⟨c, rel, hi⟩ | ⟨rel, rfl⟩ | hi
  · rw [exec_mov s hi] at h; cases h
  · rw [exec_alu s hi] at h; cases h
  · rw [exec_jump s hi] at h; cases h
  · rw [exec_loopnz] at h; cases h
  · rw [exec_unimplemented s hi] at h
    cases hu : s.params.unimpl with
    | noOp => rw [unimplemented_noOp i hu] at h; cases h
    | refuse => rw [unimplemented_refuse i hu] at h; cases h

/-- A step faults only where the decoder does. -/
theorem step_fault {s : State} {r : Fault} (h : step s = .fault r) :
    s.halted = false ∧ ∃ e, decode s.params s.latch s.fetch = .error e := by
  rcases step_cases s with ⟨_, hstep⟩ | ⟨hrun, e, hdec, _⟩ | ⟨_, d, _, hstep⟩
  · rw [hstep] at h; cases h
  · exact ⟨hrun, e, hdec⟩
  · exact absurd (hstep.symm.trans h) (exec_ne_fault _ _ _)

/-- A step that goes on from ip < N has decoded an instruction and run it. -/
theorem step_next {s t : State} (hrun : s.halted = false) (h : step s = .next t) :
    ∃ d, decode s.params s.latch s.fetch = .ok d ∧ exec d.instr (s.advance d) = .next t := by
  rcases step_cases s with ⟨hhalt, _⟩ | ⟨_, e, _, hstep⟩ | ⟨_, d, hdec, hstep⟩
  · simp [hrun] at hhalt
  · obtain ⟨r, hr⟩ := raise_fault s.ip e
    rw [hstep, hr] at h; cases h
  · exact ⟨d, hdec, hstep.symm.trans h⟩

theorem step_of_decode_ok {s : State} {d : Decoded} (hrun : s.halted = false)
    (hdec : decode s.params s.latch s.fetch = .ok d) : step s = exec d.instr (s.advance d) := by
  simp [step, hrun, hdec]

theorem step_of_decode_error {s : State} {e : DecodeFault} (hrun : s.halted = false)
    (hdec : decode s.params s.latch s.fetch = .error e) : step s = raise s.ip e := by
  simp [step, hrun, hdec]

/-- Under `UNMAPPED_POLICY` = Fault the decoder reads no latch: only unmapped bytes ask for it. -/
theorem decode_ignores_latch {p : Params} (hp : p.unmapped = .fault) (l l' : Option (Kind × Mnemonic))
    (bs : List Byte) : decode p l bs = decode p l' bs := by
  have hclass (b0 b1 : Byte) : classify p l b0 b1 = classify p l' b0 b1 := by
    simp only [classify, unmappedVerdict, unmappedGroupVerdict, hp]
  match bs with
  | [] | [_] => rfl
  | b0 :: b1 :: rest => simp only [decode, hclass b0 b1]

/-- Settles O59: executing keeps the latch that the advance set, and only the decoder faults. -/
theorem latchHoldsTheLastClassification : Obligations.LatchHoldsTheLastClassification := by
  refine ⟨fun s t h hip => ?_, fun s r h => ?_⟩
  · obtain ⟨d, hdec, hexec⟩ := step_next ((not_halted_iff s).2 hip) h
    obtain ⟨-, hlatch, -, -⟩ := exec_keeps hexec
    exact ⟨d, hdec, hlatch⟩
  · obtain ⟨hrun, e, hdec⟩ := step_fault h
    simp [runEnd, hrun, h]

/-- Settles O60: the decode is the same, and the advance replaces the latch. -/
theorem latchIsHiddenUnderFault : Obligations.LatchIsHiddenUnderFault := by
  intro s latch hp hip
  have hrun : s.halted = false := (not_halted_iff s).2 hip
  have hrun' : ({ s with latch := latch } : State).halted = false := hrun
  have hsame : decode s.params latch s.fetch = decode s.params s.latch s.fetch :=
    decode_ignores_latch hp latch s.latch s.fetch
  cases hdec : decode s.params s.latch s.fetch with
  | error e => rw [step_of_decode_error hrun hdec, step_of_decode_error hrun' (hsame.trans hdec)]
  | ok d =>
    rw [step_of_decode_ok hrun hdec, step_of_decode_ok hrun' (hsame.trans hdec)]
    rfl

/-- Settles O5: the advance is the latch update and the ip increase. -/
theorem stepRunsTheDecodedInstruction : Obligations.StepRunsTheDecodedInstruction :=
  fun _ _ hrun hdec => step_of_decode_ok hrun hdec

/-- Settles O11: the record is made from the decode, and a step that faults has none. -/
theorem traceRecordPerDecode : Obligations.TraceRecordPerDecode := by
  intro s hip
  have hrun : s.halted = false := (not_halted_iff s).2 hip
  refine ⟨fun d hdec => by simp [traceRecord, hrun, hdec], fun r h => ?_⟩
  obtain ⟨_, e, hdec⟩ := step_fault h
  simp [traceRecord, hrun, hdec]

end Sys2Proof.Machine
end

section
/-! PROOFS of family 20_memory.md: the bytes of a word (R80 to R83), what reaches data memory (R73), and what
every step keeps (R71, R74, R92). -/

namespace Sys2Proof.Machine

/-! ### Words in memory (20_memory.md R80 to R83) -/

theorem toNat_succ (a : Word) : (a + 1).toNat = (a.toNat + 1) % 65536 := BitVec.toNat_add a 1

theorem loByte_ofInt (v : Int) : loByte (BitVec.ofInt 16 v) = BitVec.ofInt 8 v := by
  have hword := toNat_ofInt16 v
  have hbyte := toNat_ofInt8 v
  apply BitVec.eq_of_toNat_eq
  rw [toNat_loByte]
  omega

theorem hiByte_ofInt (v : Int) : hiByte (BitVec.ofInt 16 v) = BitVec.ofInt 8 (v / 256) := by
  have hword := toNat_ofInt16 v
  have hbyte := toNat_ofInt8 (v / 256)
  apply BitVec.eq_of_toNat_eq
  rw [toNat_hiByte]
  omega

section
variable (s : State) (a : Word)

@[simp] theorem memRead8_memWrite16 (v : Word) : (s.memWrite16 a v).memRead8 a = loByte v := by
  rw [State.memWrite16, memRead8_memWrite8_other _ _ (succ_ne' a).symm, memRead8_memWrite8]

@[simp] theorem memRead8_succ_memWrite16 (v : Word) : (s.memWrite16 a v).memRead8 (a + 1) = hiByte v :=
  memRead8_memWrite8 ..

/-- A word read joins the byte at the next address, which is 0 after 0xFFFF, to the byte at a. -/
theorem memRead_word : s.memRead .word a =
    (s.mem.read ((a.toNat + 1) % 65536)).toNat * 256 + (s.mem.read a.toNat).toNat := by
  rw [← toNat_succ]
  exact toNat_joinWord ..

/-- A word write puts the value's low byte at a. -/
theorem memRead_byte_memWrite_word (v : Int) : ((s.memWrite .word a v).memRead .byte a : Int) = v % 256 := by
  simp only [State.memWrite, State.memRead, memRead8_memWrite16, loByte_ofInt]
  exact toNat_ofInt8 v

/-- A word write puts the value's second byte at the next address. -/
theorem memRead_succ_memWrite_word (v : Int) :
    ((s.memWrite .word a v).memRead .byte (a + 1) : Int) = v / 256 % 256 := by
  simp only [State.memWrite, State.memRead, memRead8_succ_memWrite16, hiByte_ofInt]
  exact toNat_ofInt8 (v / 256)

/-- Two byte writes at neighbouring addresses are read back as one word. -/
theorem memRead_word_two_memWrites (x y : Byte) :
    ((s.memWrite .byte a x.toNat).memWrite .byte (a + 1) y.toNat).memRead .word a =
      y.toNat * 256 + x.toNat := by
  simp only [State.memWrite, State.memRead, State.memRead16, memRead8_memWrite8,
    memRead8_memWrite8_other _ _ (succ_ne' a).symm, toNat_joinWord]
  simp
end

/-- Settles O28: a word is read and written as its two bytes, and a write leaves the bytes outside its access
alone. -/
theorem mixedWidthMemoryView : Obligations.MixedWidthMemoryView := by
  intro s a v x y
  refine ⟨rfl, memRead_word s a, memRead_byte_memWrite_word s a v, memRead_succ_memWrite_word s a v,
    memRead_memWrite s .word a v, memRead_word_two_memWrites s a x y, ?_, fun k hlow hhigh => ?_,
    fun k hk => ?_⟩
  · rintro rfl
    exact (memRead8_succ_memWrite16 s 0xFFFF _).trans (hiByte_ofInt v)
  · exact memWrite_read_other s .word a v (by simp [accessBytes, hlow, hhigh])
  · exact memWrite_read_other s .byte a v (by simpa [accessBytes] using hk)

/-! ### Who reaches data memory (20_memory.md R73) -/

/-- The location lies in data memory. -/
def locInMem : Loc → Bool
  | .mem _ _ | .direct _ => true
  | .reg8 _ | .reg16 _ | .sreg _ => false

/-- The operand is read from data memory. -/
def operandInMem : Operand → Bool
  | .loc l => locInMem l
  | .imm _ | .rel8 _ => false

section
variable (w : Width) (n : BitVec 3) (rm : Rm)

@[simp] theorem locInMem_regLoc : locInMem (regLoc w n) = false := by cases w <;> rfl
@[simp] theorem locInMem_accLoc : locInMem (accLoc w) = false := locInMem_regLoc w 0
@[simp] theorem locInMem_rmLoc : locInMem (rm.loc w) = !isRegister rm := by
  cases rm with
  | reg n => exact locInMem_regLoc w n
  | mem | direct | mem8 | mem16 => rfl
end

/-- The movs whose destination is in memory. -/
theorem executedMov_dst_inMem {i w dst src} (h : executedMov i = some (w, dst, src))
    (hdst : locInMem dst = true) :
    (∃ w reg rm, i = .movRmReg .rmDst w reg rm ∧ isRegister rm = false) ∨
      (∃ rm imm, i = .movImmRm rm imm ∧ isRegister rm = false) ∨ ∃ w a, i = .movAccMem w a := by
  cases i with
  | movRmReg d w' reg rm =>
    simp [executedMov] at h; obtain ⟨rfl, rfl, rfl⟩ := h
    cases d with
    | rmDst => exact .inl ⟨w', reg, rm, rfl, by simpa [rmRegDst] using hdst⟩
    | regDst => simp [rmRegDst] at hdst
  | movImmRm rm imm =>
    simp [executedMov] at h; obtain ⟨rfl, rfl, rfl⟩ := h
    exact .inr (.inl ⟨rm, imm, rfl, by simpa using hdst⟩)
  | movAccMem w' a => exact .inr (.inr ⟨w', a, rfl⟩)
  | movImmReg | movMemAcc =>
    simp [executedMov] at h; obtain ⟨rfl, rfl, rfl⟩ := h; simp at hdst
  | movRmSreg g rm | movSregRm g rm =>
    cases rm <;> simp [executedMov] at h; obtain ⟨rfl, rfl, rfl⟩ := h; simp [locInMem] at hdst
  | _ => simp [executedMov] at h

/-- The movs whose source is in memory. -/
theorem executedMov_src_inMem {i w dst src} (h : executedMov i = some (w, dst, src))
    (hsrc : operandInMem src = true) :
    (∃ w reg rm, i = .movRmReg .regDst w reg rm ∧ isRegister rm = false) ∨ ∃ w a, i = .movMemAcc w a := by
  cases i with
  | movRmReg d w' reg rm =>
    simp [executedMov] at h; obtain ⟨rfl, rfl, rfl⟩ := h
    cases d with
    | rmDst => simp [operandInMem, rmRegSrc] at hsrc
    | regDst => exact .inl ⟨w', reg, rm, rfl, by simpa [operandInMem, rmRegSrc] using hsrc⟩
  | movMemAcc w' a => exact .inr ⟨w', a, rfl⟩
  | movImmRm | movImmReg | movAccMem =>
    simp [executedMov] at h; obtain ⟨rfl, rfl, rfl⟩ := h; simp [operandInMem] at hsrc
  | movRmSreg g rm | movSregRm g rm =>
    cases rm <;> simp [executedMov] at h; obtain ⟨rfl, rfl, rfl⟩ := h; simp [operandInMem, locInMem] at hsrc
  | _ => simp [executedMov] at h

/-- No executed add, sub or cmp has an operand in memory (41_arith.md R190). -/
theorem executedAlu_not_inMem {i op w dst src} (h : executedAlu i = some (op, w, dst, src)) :
    locInMem dst = false ∧ operandInMem src = false := by
  cases i with
  | addRmReg d w' reg rm | subRmReg d w' reg rm | cmpRmReg d w' reg rm =>
    cases rm <;> simp [executedAlu] at h; obtain ⟨rfl, rfl, rfl, rfl⟩ := h
    cases d <;> simp [operandInMem, rmRegDst, rmRegSrc, isRegister]
  | addImmRm rm imm | subImmRm rm imm | cmpImmRm rm imm =>
    cases rm <;> simp [executedAlu] at h; obtain ⟨rfl, rfl, rfl, rfl⟩ := h; simp [operandInMem]
  | addImmAcc imm | subImmAcc imm | cmpImmAcc imm =>
    simp [executedAlu] at h; obtain ⟨rfl, rfl, rfl, rfl⟩ := h; simp [operandInMem]
  | _ => simp [executedAlu] at h

section
variable (s : State) (m : Memory) (w : Width)

theorem readLoc_ignores_mem {l : Loc} (hl : locInMem l = false) :
    ({ s with mem := m } : State).readLoc w l = s.readLoc w l := by
  cases l with
  | mem | direct => simp [locInMem] at hl
  | reg8 | reg16 | sreg => rfl

theorem readOp_ignores_mem {src : Operand} (hsrc : operandInMem src = false) :
    ({ s with mem := m } : State).readOp w src = s.readOp w src := by
  cases src with
  | loc l => exact readLoc_ignores_mem s m w hsrc
  | imm | rel8 => rfl

theorem writeLoc_mem {l : Loc} (hl : locInMem l = false) (v : Int) : (s.writeLoc w l v).mem = s.mem := by
  cases l with
  | mem | direct => simp [locInMem] at hl
  | reg8 | reg16 | sreg => rfl

/-- WriteOp does the same to everything but memory, whatever memory holds. -/
theorem writeLoc_with_mem (l : Loc) (v : Int) :
    ({ s with mem := m } : State).writeLoc w l v =
      { s.writeLoc w l v with mem := (({ s with mem := m } : State).writeLoc w l v).mem } := by
  cases l with
  | reg8 | reg16 | sreg => rfl
  | mem | direct => cases w <;> rfl

theorem move_with_mem (dst : Loc) {src : Operand} (hsrc : operandInMem src = false) :
    move w dst src { s with mem := m } =
      { move w dst src s with mem := (move w dst src { s with mem := m }).mem } := by
  simp only [move, readOp_ignores_mem s m w hsrc]
  exact writeLoc_with_mem s m w dst _

theorem alu_mem (op : AluOp) {dst : Loc} (src : Operand) (hdst : locInMem dst = false) :
    (alu op w dst src s).mem = s.mem := by
  cases op with
  | cmp => rfl
  | add | sub => exact writeLoc_mem s w hdst _

theorem alu_with_mem (op : AluOp) {dst : Loc} {src : Operand} (hdst : locInMem dst = false)
    (hsrc : operandInMem src = false) :
    alu op w dst src { s with mem := m } = { alu op w dst src s with mem := m } := by
  have hwrite (v : Int) : ({ s with mem := m } : State).writeLoc w dst v =
      { s.writeLoc w dst v with mem := m } := by
    rw [writeLoc_with_mem, writeLoc_mem _ w hdst]
  cases op <;> simp only [alu, readLoc_ignores_mem s m w hdst, readOp_ignores_mem s m w hsrc, hwrite]
end

/-- An instruction that changes memory is a mov whose destination is there. -/
theorem exec_mem {i : Instr} {s t : State} (h : exec i s = .next t) :
    t.mem = s.mem ∨ ∃ w dst src, executedMov i = some (w, dst, src) ∧ locInMem dst = true := by
  rcases exec_next h with ⟨w, dst, src, hi, rfl⟩ | ⟨op, w, dst, src, hi, rfl⟩ | ⟨c, rel, _, rfl⟩ |
    ⟨rel, _, rfl⟩ | ⟨_, _, rfl⟩
  · cases hdst : locInMem dst with
    | true => exact .inr ⟨w, dst, src, hi, hdst⟩
    | false => exact .inl (writeLoc_mem s w hdst _)
  · obtain ⟨hdst, -⟩ := executedAlu_not_inMem hi
    exact .inl (alu_mem s w op src hdst)
  · exact .inl (branchIf_mem ..)
  · exact .inl (afterLoopnz_mem ..)
  · exact .inl rfl

/-- An instruction that is no mov from memory answers the same next state, memory apart, whatever memory
holds. -/
theorem exec_ignores_mem {i : Instr} {s t : State} (m : Memory) (h : exec i s = .next t)
    (hread : ∀ w dst src, executedMov i = some (w, dst, src) → operandInMem src = false) :
    ∃ m', exec i { s with mem := m } = .next { t with mem := m' } := by
  rcases exec_next h with ⟨w, dst, src, hi, rfl⟩ | ⟨op, w, dst, src, hi, rfl⟩ | ⟨c, rel, hi, rfl⟩ |
    ⟨rel, rfl, rfl⟩ | ⟨hi, hu, rfl⟩
  · exact ⟨_, (exec_mov _ hi).trans (congrArg _ (move_with_mem s m w dst (hread w dst src hi)))⟩
  · obtain ⟨hdst, hsrc⟩ := executedAlu_not_inMem hi
    exact ⟨m, (exec_alu _ hi).trans (congrArg _ (alu_with_mem s m w op hdst hsrc))⟩
  · have hi' : wiredJump { s with mem := m } i = some (c, rel) := by cases i <;> exact hi
    refine ⟨m, (exec_jump _ hi').trans ?_⟩
    cases c <;> rfl
  · refine ⟨m, ?_⟩
    simp only [exec_loopnz, afterLoopnz, branchIf_eq]
    rfl
  · exact ⟨m, (exec_unimplemented _ hi).trans (unimplemented_noOp i hu)⟩

/-- Settles O57: memory is an operand of executed movs only, and an instruction that does not read it there
does the same to the rest of the state whatever it holds. -/
theorem onlyMovReachesMemory : Obligations.OnlyMovReachesMemory := by
  intro i s t h
  refine ⟨(exec_mem h).imp_right fun ⟨_, _, _, hi, hdst⟩ => executedMov_dst_inMem hi hdst, ?_⟩
  by_cases hread : ∃ w dst src, executedMov i = some (w, dst, src) ∧ operandInMem src = true
  · obtain ⟨_, _, _, hi, hsrc⟩ := hread
    exact (executedMov_src_inMem hi hsrc).imp_right .inl
  · refine .inr (.inr fun m => ?_)
    obtain ⟨m', hexec⟩ := exec_ignores_mem m h fun w dst src hi =>
      Bool.eq_false_iff.2 fun hsrc => hread ⟨w, dst, src, hi, hsrc⟩
    exact ⟨_, hexec, rfl, rfl, rfl, rfl⟩

/-! ### What every step keeps (20_memory.md R71, R74, R92) -/

/-- Every instruction is of an admitted kind and mnemonic (30_encoding.md R133). -/
theorem admitted_instr (i : Instr) : admitted i.kind i.mnemonic = true := by cases i <;> rfl

theorem step_of_halted {s : State} (h : s.halted = true) : step s = .next s := by simp [step, h]

/-- A step keeps the code and the parameters, the canonical form of memory and the latch's admission: a
halted state stays, and otherwise the instruction keeps what the advance has set. -/
theorem step_keeps {s t : State} (h : step s = .next t) :
    t.code = s.code ∧ t.params = s.params ∧ (s.mem.wf = true → t.mem.wf = true) ∧
      (latchOk s.latch = true → latchOk t.latch = true) := by
  cases hrun : s.halted with
  | true =>
    cases (step_of_halted hrun).symm.trans h
    exact ⟨rfl, rfl, id, id⟩
  | false =>
    obtain ⟨d, _, hexec⟩ := step_next hrun h
    obtain ⟨hcode, hlatch, hparams, hwf⟩ := exec_keeps hexec
    refine ⟨hcode, hparams, hwf, fun _ => ?_⟩
    rw [hlatch]
    exact admitted_instr d.instr

/-- Settles O4: every write keeps the canonical form, the code stays, and the latch that the cycle sets is
an instruction's own pair. -/
theorem stepKeepsTheInvariant : Obligations.StepKeepsTheInvariant := by
  rintro s t ⟨hmem, hfits, hlatch⟩ h
  obtain ⟨hcode, -, hwf, hadmitted⟩ := step_keeps h
  have hlen : t.codeLen = s.codeLen := congrArg List.length hcode
  exact ⟨hwf hmem, hlen ▸ hfits, hadmitted hlatch⟩

/-- Settles O56: no instruction writes the code or the parameters, and neither fetch nor decode reads data
memory. -/
theorem storesNeverReachTheCode : Obligations.StoresNeverReachTheCode := by
  refine ⟨fun s t h => ?_, fun _ _ => rfl⟩
  obtain ⟨hcode, hparams, -, -⟩ := step_keeps h
  exact ⟨hcode, hparams⟩

end Sys2Proof.Machine
end

section
/-! PROOFS of family 30_encoding.md, first part: the classifier and the length calculator (R103 to R113, R140 to
R148, R158, R162). -/

namespace Sys2Proof

open Machine

/-! ### First bytes of the rows -/

/-- Bits 7..2 of a K_RM_REG row (30_encoding.md R106). -/
def rmRegOp : Mnemonic → BitVec 6
  | .add => 0b000000
  | .sub => 0b001010
  | .cmp => 0b001110
  | _    => 0b100010

/-- Bits 7..1 of an arithmetic K_IMM_REG row (30_encoding.md R105). -/
def aluAccOp : Mnemonic → BitVec 7
  | .sub => 0b0010110
  | .cmp => 0b0011110
  | _    => 0b0000010

/-- The ByteTwo code of a mnemonic, 0 for mov (30_encoding.md R108). -/
def groupExt : Mnemonic → BitVec 3
  | .sub => 0b101
  | .cmp => 0b111
  | _    => 0b000

/-- The first byte of a jump (30_encoding.md R104). -/
def jumpByte : Mnemonic → Byte
  | .jo  => 0x70
  | .jno => 0x71
  | .jb  => 0x72
  | .jnb => 0x73
  | .je  => 0x74
  | .jne => 0x75
  | .jbe => 0x76
  | .ja  => 0x77
  | .js  => 0x78
  | .jns => 0x79
  | .jp  => 0x7A
  | .jnp => 0x7B
  | .jl  => 0x7C
  | .jnl => 0x7D
  | .jle => 0x7E
  | .jg  => 0x7F
  | .loopnz => 0xE0
  | .loopz  => 0xE1
  | .loop   => 0xE2
  | _       => 0xE3

/-- The first byte that the encoder writes for a mnemonic and its fields (30_encoding.md R134 to R139). -/
def Fields.byte0 (m : Mnemonic) : Fields → Byte
  | .rmReg d w _ _ _ => rmRegOp m ++ BitVec.ofBool d ++ w.bit
  | .immRm w s _ _ _ =>
    if m = .mov then 0b1100011#7 ++ w.bit else 0b100000#6 ++ BitVec.ofBool (s && w = .word) ++ w.bit
  | .immReg w reg    => if m = .mov then 0b1011#4 ++ w.bit ++ reg else aluAccOp m ++ w.bit
  | .acc d w         => 0b101000#6 ++ BitVec.ofBool d ++ w.bit
  | .rmSreg d _ _ _  => if d then 0x8E else 0x8C
  | .jcc             => jumpByte m

/-- b1 gives no bit of the first byte. -/
theorem byte0_extractFields (k : Kind) (m : Mnemonic) (b0 b1 : Byte) :
    (extractFields k m b0 b1).byte0 m = (extractFields k m b0 0).byte0 m := by
  cases k <;> rfl

/-! ### The classifier's tables -/

theorem isGroup_iff (b0 : Byte) : isGroup b0 = true ↔ b0.extractLsb' 2 6 = groupT6 := by
  revert b0; decide

theorem isMapped_of_isGroup {b0 : Byte} : isGroup b0 = true → isMapped b0 = true := by
  revert b0; decide

/-- A group byte is the group's six bits, S and W. -/
theorem group_split {b0 : Byte} : isGroup b0 = true → ∃ s w : BitVec 1, b0 = 0b100000#6 ++ s ++ w := by
  revert b0; decide

/-- In the group b1[5:3] selects the mnemonic (30_encoding.md R108). -/
theorem classifyTables_group {b0 : Byte} (h : isGroup b0 = true) (b1 : Byte) :
    classifyTables b0 b1 = some (.immRm, byteTwo (b1.extractLsb' 3 3)) := by
  obtain ⟨s, w, rfl⟩ := group_split h
  exact class_group s w b1

theorem testT6_firstByte {b0 : Byte} (h : isGroup b0 = false) (b1 : Byte) : testT6 b0 b1 = testT6 b0 0 := by
  have hne : b0.extractLsb' 2 6 ≠ groupT6 := fun he => by simp [(isGroup_iff b0).2 he] at h
  simp only [testT6, if_neg hne]

/-- Outside the group the classifier does not read b1. -/
theorem classifyTables_firstByte {b0 : Byte} (h : isGroup b0 = false) (b1 : Byte) :
    classifyTables b0 b1 = classifyTables b0 0 := by
  rw [classifyTables, testT6_firstByte h]
  rfl

/-- What holds of a first byte outside the group and the tables' answer for it. -/
def plainRowOk (b0 : Byte) : Option (Kind × Option Mnemonic) → Bool
  | none => !isMapped b0
  | some (_, none) => false
  | some (k, some m) =>
    isMapped b0 && admitted k m && decide (b0 = (extractFields k m b0 0).byte0 m) &&
      decide (k = .immRm ↔ b0 = 0xC6 ∨ b0 = 0xC7) && decide (k = .rmSreg ↔ b0 = 0x8C ∨ b0 = 0x8E)

theorem plainRowOk_classifyTables : ∀ b0 : Byte, isGroup b0 = false →
    plainRowOk b0 (classifyTables b0 0) = true := by
  decide

/-- A ByteTwo code is one of the five unmapped ones (30_encoding.md R113) or that of its arithmetic mnemonic. -/
theorem byteTwo_cases (b1 : Byte) :
    (byteTwo (b1.extractLsb' 3 3) = none ∧ isUnmappedExt b1 = true) ∨
    ∃ m, byteTwo (b1.extractLsb' 3 3) = some m ∧ isUnmappedExt b1 = false ∧ m.isAlu = true ∧
      b1.extractLsb' 3 3 = groupExt m := by
  have hcodes : ∀ e : BitVec 3, e = 0 ∨ e = 1 ∨ e = 2 ∨ e = 3 ∨ e = 4 ∨ e = 5 ∨ e = 6 ∨ e = 7 := by decide
  unfold isUnmappedExt
  rcases hcodes (b1.extractLsb' 3 3) with he | he | he | he | he | he | he | he <;> rw [he]
  · exact .inr ⟨.add, by decide⟩
  · exact .inl (by decide)
  · exact .inl (by decide)
  · exact .inl (by decide)
  · exact .inl (by decide)
  · exact .inr ⟨.sub, by decide⟩
  · exact .inl (by decide)
  · exact .inr ⟨.cmp, by decide⟩

/-- Outside the group a mapped first byte is that of its row; K_IMM_RM has 0xC6 and 0xC7 there, and K_RM_SREG
0x8C and 0x8E, the bytes with ignored bits (30_encoding.md R159). -/
theorem classifyTables_plain {b0 : Byte} (hg : isGroup b0 = false) (b1 : Byte) :
    (isMapped b0 = false ∧ classifyTables b0 b1 = none) ∨
    ∃ k m, classifyTables b0 b1 = some (k, some m) ∧ isMapped b0 = true ∧ admitted k m = true ∧
      b0 = (extractFields k m b0 b1).byte0 m ∧ (k = .immRm ↔ b0 = 0xC6 ∨ b0 = 0xC7) ∧
      (k = .rmSreg ↔ b0 = 0x8C ∨ b0 = 0x8E) := by
  have hrow := plainRowOk_classifyTables b0 hg
  rw [classifyTables_firstByte hg]
  match hc : classifyTables b0 0 with
  | none =>
    rw [hc] at hrow
    exact .inl ⟨by simpa [plainRowOk] using hrow, rfl⟩
  | some (k, none) =>
    rw [hc] at hrow
    simp [plainRowOk] at hrow
  | some (k, some m) =>
    rw [hc] at hrow
    simp only [plainRowOk, Bool.and_eq_true, decide_eq_true_eq] at hrow
    obtain ⟨⟨⟨⟨hmap, hadm⟩, hbyte⟩, hmov⟩, hseg⟩ := hrow
    exact .inr ⟨k, m, rfl, hmap, hadm, byte0_extractFields k m b0 b1 ▸ hbyte, hmov, hseg⟩

/-- Everything the tables can say of two bytes: nothing, the group without a mnemonic, or an admitted pair. -/
theorem classifyTables_cases (b0 b1 : Byte) :
    (isMapped b0 = false ∧ classifyTables b0 b1 = none) ∨
    (isMapped b0 = true ∧ isGroup b0 = true ∧ isUnmappedExt b1 = true ∧
      classifyTables b0 b1 = some (.immRm, none)) ∨
    (isMapped b0 = true ∧ (isGroup b0 = true → isUnmappedExt b1 = false) ∧
      ∃ k m, admitted k m = true ∧ classifyTables b0 b1 = some (k, some m)) := by
  cases hg : isGroup b0 with
  | true =>
    rw [classifyTables_group hg]
    rcases byteTwo_cases b1 with ⟨hb, hu⟩ | ⟨m, hb, hu, halu, _⟩ <;> rw [hb]
    · exact .inr (.inl ⟨isMapped_of_isGroup hg, rfl, hu, rfl⟩)
    · refine .inr (.inr ⟨isMapped_of_isGroup hg, fun _ => hu, .immRm, m, ?_, rfl⟩)
      simp [admitted, Mnemonic.isData, halu]
  | false =>
    rcases classifyTables_plain hg b1 with h | ⟨k, m, hc, hmap, hadm, _⟩
    · exact .inl h
    · exact .inr (.inr ⟨hmap, by simp, k, m, hadm, hc⟩)

theorem classifyTables_of_unmapped {b0 : Byte} (h : isMapped b0 = false) (b1 : Byte) :
    classifyTables b0 b1 = none := by
  rcases classifyTables_cases b0 b1 with ⟨_, hc⟩ | ⟨hm, _⟩ | ⟨hm, _⟩
  · exact hc
  all_goals simp [h] at hm

theorem classifyTables_some_iff (b0 b1 : Byte) :
    (∃ k m, classifyTables b0 b1 = some (k, some m)) ↔
      isMapped b0 = true ∧ (isGroup b0 = true → isUnmappedExt b1 = false) := by
  rcases classifyTables_cases b0 b1 with ⟨hm, hc⟩ | ⟨_, hg, hu, hc⟩ | ⟨hm, hu, k, m, _, hc⟩
  · simp [hm, hc]
  · simp [hg, hu, hc]
  · simp only [hc, hm, true_and]
    exact ⟨fun _ => hu, fun _ => ⟨k, m, rfl⟩⟩

theorem classifyTables_no_mnemonic_iff (b0 b1 : Byte) :
    classifyTables b0 b1 = some (.immRm, none) ↔ isGroup b0 = true ∧ isUnmappedExt b1 = true := by
  rcases classifyTables_cases b0 b1 with ⟨hm, hc⟩ | ⟨_, hg, hu, hc⟩ | ⟨_, hu, k, m, _, hc⟩
  · have hg : isGroup b0 ≠ true := fun hg => by simp [isMapped_of_isGroup hg] at hm
    simp [hc, hg]
  · simp [hc, hg, hu]
  · simp only [hc, Option.some.injEq, Prod.mk.injEq, reduceCtorEq, and_false, false_iff, not_and]
    exact fun hg => by simp [hu hg]

/-- The pair that the tables name is that of some instruction. -/
theorem admitted_of_classifyTables {b0 b1 : Byte} {k : Kind} {m : Mnemonic}
    (h : classifyTables b0 b1 = some (k, some m)) : admitted k m = true := by
  rcases classifyTables_cases b0 b1 with ⟨_, hc⟩ | ⟨_, _, _, hc⟩ | ⟨_, _, k', m', hadm, hc⟩ <;> rw [hc] at h
  · cases h
  · cases h
  · cases h; exact hadm

set_option maxRecDepth 2000 in
/-- The listed first bytes, counted (30_encoding.md R158). -/
theorem mapped_count : ((List.range 256).filter fun n => isMapped (BitVec.ofNat 8 n)).length = 70 := by
  decide

/-- What is not listed, of 256. -/
theorem unmapped_count : ((List.range 256).filter fun n => !isMapped (BitVec.ofNat 8 n)).length = 186 := by
  have hsplit := List.length_eq_length_filter_add (l := List.range 256) fun n => isMapped (BitVec.ofNat 8 n)
  rw [mapped_count, List.length_range] at hsplit
  omega

/-- Settles O14: a byte is listed where the tables name a pair for some b1, which for the group is b1 = 0. -/
theorem seventyFirstBytesAreMapped : Obligations.SeventyFirstBytesAreMapped := by
  refine ⟨fun b0 => ⟨fun ⟨b1, hc⟩ => ?_, fun hm => ⟨0, ?_⟩⟩, mapped_count, unmapped_count,
    classifyTables_no_mnemonic_iff⟩
  · exact ((classifyTables_some_iff b0 b1).1 hc).1
  · exact (classifyTables_some_iff b0 0).2 ⟨hm, fun _ => by decide⟩


/-! ### The classifier (30_encoding.md R109 to R113) -/

section
variable {p : Params} {latch : Option (Kind × Mnemonic)} {b0 b1 : Byte}

/-- With no latch to follow, an unmapped first byte is UnmappedOpcode (30_encoding.md R111). -/
theorem classify_unmapped (hm : isMapped b0 = false) (h : p.unmapped = .fault ∨ latch = none) :
    classify p latch b0 b1 = .error (.unmappedOpcode b0 none) := by
  simp only [classify, classifyTables_of_unmapped hm, unmappedVerdict]
  rcases h with h | h <;> rw [h]
  cases p.unmapped <;> rfl

/-- Under Stale an unmapped first byte classifies as the latch (30_encoding.md R112). -/
theorem classify_unmapped_stale {km : Kind × Mnemonic} (hm : isMapped b0 = false) (hp : p.unmapped = .stale) :
    classify p (some km) b0 b1 = .ok km := by
  simp only [classify, classifyTables_of_unmapped hm, unmappedVerdict, hp]

theorem classify_unmappedGroup (hc : classifyTables b0 b1 = some (.immRm, none))
    (h : p.unmapped = .fault ∨ latch = none) :
    classify p latch b0 b1 = .error (.unmappedOpcode b0 (some b1)) := by
  simp only [classify, hc, unmappedGroupVerdict]
  rcases h with h | h <;> rw [h]
  cases p.unmapped <;> rfl

theorem classify_unmappedGroup_stale {km : Kind × Mnemonic} (hc : classifyTables b0 b1 = some (.immRm, none))
    (hp : p.unmapped = .stale) : classify p (some km) b0 b1 = .ok (.immRm, km.2) := by
  simp only [classify, hc, unmappedGroupVerdict, hp]

/-- Everything a classification that succeeds can come from: the tables, or under Stale the latch. -/
theorem classify_ok {k : Kind} {m : Mnemonic} (h : classify p latch b0 b1 = .ok (k, m)) :
    classifyTables b0 b1 = some (k, some m) ∨
    p.unmapped = .stale ∧ (latch = some (k, m) ∨ k = .immRm ∧ ∃ k', latch = some (k', m)) := by
  rcases classifyTables_cases b0 b1 with ⟨hm, hc⟩ | ⟨_, _, _, hc⟩ | ⟨_, _, k', m', _, hc⟩
  · cases hp : p.unmapped with
    | fault => rw [classify_unmapped hm (.inl hp)] at h; cases h
    | stale =>
      cases latch with
      | none => rw [classify_unmapped hm (.inr rfl)] at h; cases h
      | some km =>
        rw [classify_unmapped_stale hm hp] at h; cases h
        exact .inr ⟨rfl, .inl rfl⟩
  · cases hp : p.unmapped with
    | fault => rw [classify_unmappedGroup hc (.inl hp)] at h; cases h
    | stale =>
      cases latch with
      | none => rw [classify_unmappedGroup hc (.inr rfl)] at h; cases h
      | some km =>
        rw [classify_unmappedGroup_stale hc hp] at h; cases h
        exact .inr ⟨rfl, .inr ⟨rfl, _, rfl⟩⟩
  · rw [classify_mapped hc] at h; cases h
    exact .inl hc

/-- Under Fault a classification comes from the tables. -/
theorem classifyTables_of_classify {k : Kind} {m : Mnemonic} (hp : p.unmapped = .fault)
    (h : classify p latch b0 b1 = .ok (k, m)) : classifyTables b0 b1 = some (k, some m) :=
  (classify_ok h).resolve_right fun ⟨hs, _⟩ => by simp [hp] at hs

/-- From an admitted latch only a group byte can classify as a pair that no instruction has. -/
theorem admitted_of_classify {k : Kind} {m : Mnemonic} (hl : latchOk latch = true)
    (h : classify p latch b0 b1 = .ok (k, m)) : admitted k m = true ∨ k = .immRm := by
  rcases classify_ok h with hc | ⟨_, rfl | ⟨hk, _⟩⟩
  · exact .inl (admitted_of_classifyTables hc)
  · exact .inl hl
  · exact .inr hk
end

/-- Outside the group at most one test matches. -/
theorem plain_tests_disjoint : ∀ b0 : Byte, isGroup b0 = false →
    [testFB b0, testT7 b0, testT6 b0 0, testT4 b0].countP (fun x => x.isSome) ≤ 1 := by
  decide

/-- A group byte matches the 6-bit test alone. -/
theorem group_tests {b0 : Byte} : isGroup b0 = true → testFB b0 = none ∧ testT7 b0 = none ∧ testT4 b0 = none := by
  revert b0; decide

/-- At most one of the four tests matches. -/
theorem tests_disjoint (b0 b1 : Byte) :
    [testFB b0, testT7 b0, testT6 b0 b1, testT4 b0].countP (fun x => x.isSome) ≤ 1 := by
  cases hg : isGroup b0 with
  | true =>
    obtain ⟨hFB, hT7, hT4⟩ := group_tests hg
    simp only [hFB, hT7, hT4]
    cases testT6 b0 b1 <;> simp
  | false =>
    rw [testT6_firstByte hg]
    exact plain_tests_disjoint b0 hg

/-- Of four tests of which at most one matches, the first match is the last. -/
theorem first_match_eq_last_match {α : Type} {a b c d : Option α}
    (h : [a, b, c, d].countP (fun x => x.isSome) ≤ 1) : (d <|> c <|> b <|> a) = (a <|> b <|> c <|> d) := by
  cases a <;> cases b <;> cases c <;> cases d <;> simp_all

/-- Settles O15: one match at most, so the first is the last. -/
theorem classifierTestsAreDisjoint : Obligations.ClassifierTestsAreDisjoint :=
  fun b0 b1 => ⟨tests_disjoint b0 b1, first_match_eq_last_match (tests_disjoint b0 b1)⟩

/-! ### The length calculator (30_encoding.md R140 to R148) -/

theorem isData_eq_false_iff (m : Mnemonic) :
    m.isData = false ↔ m ≠ .mov ∧ m ≠ .add ∧ m ≠ .sub ∧ m ≠ .cmp := by
  cases m <;> decide

/-- Settles O18: each row of the table, by the operand modes of R122. -/
theorem lengthTable : Obligations.LengthTable := by
  refine ⟨fun mod rm => ?_, ?_, ?_, fun w s mod reg rm => ?_, ?_, fun d w => ?_, fun d mod sr rm => ?_, ?_⟩
  · rcases mod_cases mod with rfl | rfl | rfl | rfl
    · simp [baseLen, ndisp]; split <;> rfl
    all_goals rfl
  · rintro m d w mod reg rm (rfl | rfl | rfl | rfl) <;> rfl
  · rintro m w s mod reg rm (rfl | rfl | rfl) <;> rfl
  · cases w <;> rfl
  · rintro m w reg (rfl | rfl | rfl | rfl) <;> cases w <;> rfl
  · cases w <;> rfl
  · rfl
  · intro m hmov hadd hsub hcmp
    rw [lengthCalc, (isData_eq_false_iff m).2 ⟨hmov, hadd, hsub, hcmp⟩]
    rfl


/-- A pair of an instruction has no length only as K_RM_SREG with MOD = 0b00 and RM not 0b110; K_IMM_RM has
none with a jump's mnemonic (30_encoding.md R148). -/
theorem lengthCalc_eq_none_iff {k : Kind} {m : Mnemonic} (b0 b1 : Byte) (h : admitted k m = true ∨ k = .immRm) :
    lengthCalc m (extractFields k m b0 b1) = none ↔
      (k = .rmSreg ∧ b1.extractLsb' 6 2 = 0b00 ∧ b1.extractLsb' 0 3 ≠ 0b110) ∨
        (k = .immRm ∧ m.isData = false) := by
  cases k with
  | jcc | rmReg | acc => simp_all [extractFields, lengthCalc, admitted]
  | immReg => by_cases hm : m = .mov <;> simp_all [extractFields, lengthCalc, admitted]
  | immRm => cases m <;> simp [extractFields, lengthCalc, Mnemonic.isData, Mnemonic.isAlu]
  | rmSreg => simp_all [extractFields, lengthCalc, admitted]

/-- Where there is a length there is a row (30_encoding.md R133, R140). -/
theorem assemble_of_lengthCalc (p : Params) {m : Mnemonic} {f : Fields} {n : Nat} (bs : List Byte)
    (h : lengthCalc m f = some n) : ∃ i, assemble p m f bs = some i := by
  cases f with
  | rmReg | immRm | immReg =>
    cases m with
    | mov | add | sub | cmp => exact ⟨_, rfl⟩
    | _ => simp [lengthCalc, Mnemonic.isData, Mnemonic.isAlu] at h
  | jcc =>
    cases m with
    | mov | add | sub | cmp => simp [lengthCalc, Mnemonic.isData, Mnemonic.isAlu] at h
    | _ => exact ⟨_, rfl⟩
  | acc d w | rmSreg d mod sr rm =>
    cases m with
    | mov => cases d <;> exact ⟨_, rfl⟩
    | _ => simp [lengthCalc] at h

section
variable {p : Params} {latch : Option (Kind × Mnemonic)} {b0 b1 : Byte} {rest : List Byte}

theorem decode_of_classify_error {e : DecodeFault} (hc : classify p latch b0 b1 = .error e) :
    decode p latch (b0 :: b1 :: rest) = .error e := by
  simp only [decode, hc]

theorem decode_of_classify_ok {k : Kind} {m : Mnemonic} (hc : classify p latch b0 b1 = .ok (k, m)) :
    decode p latch (b0 :: b1 :: rest) = decodeAs p k m b0 b1 (b0 :: b1 :: rest) := by
  simp only [decode, hc]

/-- The stages after the classifier give DecodeError where the length table has no row, and there only. -/
theorem decodeAs_error_iff {k k' : Kind} {m m' : Mnemonic} {bs : List Byte} :
    decodeAs p k m b0 b1 bs = .error (.decodeError b0 b1 k' m') ↔
      (k = k' ∧ m = m') ∧ lengthCalc m (extractFields k m b0 b1) = none := by
  cases hl : lengthCalc m (extractFields k m b0 b1) with
  | none => simp [decodeAs, hl]
  | some n =>
    obtain ⟨i, hi⟩ := assemble_of_lengthCalc p bs hl
    by_cases hn : bs.length < bytesNeeded p (extractFields k m b0 b1) n <;> simp [decodeAs, hl, hn, hi]

/-- An unmapped byte is no DecodeError. -/
theorem classify_error {e : DecodeFault} (h : classify p latch b0 b1 = .error e) :
    ∃ b, e = .unmappedOpcode b0 b := by
  rcases classifyTables_cases b0 b1 with ⟨hm, hc⟩ | ⟨_, _, _, hc⟩ | ⟨_, _, k', m', _, hc⟩
  · simp only [classify, hc, unmappedVerdict] at h
    split at h <;> cases h
    exact ⟨_, rfl⟩
  · simp only [classify, hc, unmappedGroupVerdict] at h
    split at h <;> cases h
    exact ⟨_, rfl⟩
  · rw [classify_mapped hc] at h; cases h

/-- DecodeError is raised for the pair that the bytes classify as, where it has no length. -/
theorem decode_decodeError_iff {k : Kind} {m : Mnemonic} :
    decode p latch (b0 :: b1 :: rest) = .error (.decodeError b0 b1 k m) ↔
      classify p latch b0 b1 = .ok (k, m) ∧ lengthCalc m (extractFields k m b0 b1) = none := by
  match hc : classify p latch b0 b1 with
  | .error e =>
    obtain ⟨b, rfl⟩ := classify_error hc
    simp [decode_of_classify_error hc]
  | .ok (k', m') =>
    rw [decode_of_classify_ok hc, decodeAs_error_iff]
    constructor
    · rintro ⟨⟨rfl, rfl⟩, hl⟩
      exact ⟨rfl, hl⟩
    · rintro ⟨h, hl⟩
      cases h
      exact ⟨⟨rfl, rfl⟩, hl⟩
end

/-- Settles O17: the pairs without a length, and under Fault the pair is an instruction's own. -/
theorem decodeErrorExactly : Obligations.DecodeErrorExactly := by
  intro p latch b0 b1 rest hlatch
  refine ⟨fun k m => ?_, fun hp k m hc => ?_⟩
  · rw [decode_decodeError_iff, ← isData_eq_false_iff]
    exact and_congr_right fun hc => lengthCalc_eq_none_iff b0 b1 (admitted_of_classify hlatch hc)
  · rw [← isData_eq_false_iff]
    rintro ⟨rfl, hdata⟩
    have hadm := admitted_of_classifyTables (classifyTables_of_classify hp hc)
    simp [admitted, hdata] at hadm

/-! ### The two policies (30_encoding.md R111 to R113) -/

theorem not_halted_of_fetch {s : State} {b : Byte} {bs : List Byte} (h : s.fetch = b :: bs) : s.halted = false := by
  refine (not_halted_iff s).2 (Nat.lt_of_not_le fun hle => ?_)
  rw [State.fetch, List.drop_eq_nil_of_le hle] at h
  cases h

/-- Settles O16: what the classifier answers, through the step. -/
theorem unmappedBytesFollowThePolicy : Obligations.UnmappedBytesFollowThePolicy := by
  intro s b0 b1 rest hf
  have hrun : s.halted = false := not_halted_of_fetch hf
  refine ⟨fun hm => ⟨fun h => ?_, fun k m hp hl => ?_⟩, fun hg hu => ⟨fun h => ?_, fun k m hp hl => ?_⟩⟩
  · have hc : classify s.params s.latch b0 b1 = _ := classify_unmapped hm h
    exact step_of_decode_error hrun (hf ▸ decode_of_classify_error hc)
  · have hc : classify s.params s.latch b0 b1 = _ := hl ▸ classify_unmapped_stale hm hp
    rw [hf]
    exact decode_of_classify_ok hc
  · have hc : classify s.params s.latch b0 b1 = _ :=
      classify_unmappedGroup ((classifyTables_no_mnemonic_iff b0 b1).2 ⟨hg, hu⟩) h
    exact step_of_decode_error hrun (hf ▸ decode_of_classify_error hc)
  · have hc : classify s.params s.latch b0 b1 = .ok (.immRm, m) :=
      hl ▸ classify_unmappedGroup_stale ((classifyTables_no_mnemonic_iff b0 b1).2 ⟨hg, hu⟩) hp
    refine ⟨hf ▸ decode_of_classify_ok hc, fun hmov hadd hsub hcmp => ?_⟩
    have hnone : lengthCalc m (extractFields .immRm m b0 b1) = none :=
      (lengthCalc_eq_none_iff b0 b1 (.inr rfl)).2
        (.inr ⟨rfl, (isData_eq_false_iff m).2 ⟨hmov, hadd, hsub, hcmp⟩⟩)
    exact step_of_decode_error hrun (hf ▸ decode_decodeError_iff.2 ⟨hc, hnone⟩)

/-! ### The length of a stream (30_encoding.md R149, R162) -/

/-- Settles O23: the same classification has the same fields and so the same length. -/
theorem firstTwoBytesFixTheLength : Obligations.FirstTwoBytesFixTheLength := by
  intro p latch latch' b0 b1 rest rest' d d' hsame hd hd'
  have hclass : classify p latch b0 b1 = classify p latch' b0 b1 := by
    rcases hsame with hp | rfl | hmapped
    · simp only [classify, unmappedVerdict, unmappedGroupVerdict, hp]
    · rfl
    · obtain ⟨k, m, hc⟩ := (classifyTables_some_iff b0 b1).2 hmapped
      rw [classify_mapped hc, classify_mapped hc]
  obtain ⟨_, _, _, k, m, hbs, hc, hlen, _⟩ := decode_ok hd
  obtain ⟨_, _, _, k', m', hbs', hc', hlen', _⟩ := decode_ok hd'
  cases hbs
  cases hbs'
  cases hc.symm.trans (hclass.trans hc')
  exact Option.some.inj (hlen.symm.trans hlen')

theorem decode_len_le {p : Params} {latch : Option (Kind × Mnemonic)} {bs : List Byte} {d : Decoded}
    (h : decode p latch bs = .ok d) : 2 ≤ d.len ∧ d.len ≤ bs.length := by
  obtain ⟨_, _, _, _, _, _, _, hlen, hneed, _⟩ := decode_ok h
  exact ⟨(lengthCalc_bounds hlen).1, (le_bytesNeeded hlen).trans hneed⟩

/-- Code that follows an instruction does not change its decode. -/
theorem decode_append {p : Params} {latch : Option (Kind × Mnemonic)} {bs : List Byte} {d : Decoded}
    (h : decode p latch bs = .ok d) (more : List Byte) : decode p latch (bs ++ more) = .ok d := by
  obtain ⟨b0, b1, rest, k, m, rfl, hc, hlen, hneed, hasm, hop, hfields⟩ := decode_ok h
  have hbytes : ∀ q < bytesNeeded p (extractFields k m b0 b1) d.len,
      byteAt (b0 :: b1 :: rest ++ more) q = byteAt (b0 :: b1 :: rest) q := fun q hq => by
    simp only [byteAt, List.getD_eq_getElem?_getD, List.getElem?_append_left (hq.trans_le hneed)]
  have hneed' : bytesNeeded p (extractFields k m b0 b1) d.len ≤ (b0 :: b1 :: rest ++ more).length := by
    rw [List.length_append]; omega
  obtain ⟨op, f, i, n⟩ := d
  obtain rfl : op = b0 := hop
  obtain rfl : f = _ := hfields
  exact (decode_of_classify_ok hc).trans (decodeAs_ok rfl hlen hneed' ((assemble_congr hlen hbytes).trans hasm))

/-- Settles O24: an instruction ends within the code that is left, and chunks laid end to end keep their
decodes. -/
theorem lengthSumLaw : Obligations.LengthSumLaw := by
  refine ⟨fun p latch code len n hdec => ?_, fun p latch chunks hdec => ⟨?_, fun k hk => ?_⟩⟩
  · have hfit : ∀ k ≤ n, ((List.range k).map len).sum ≤ code.length := by
      intro k hk
      cases k with
      | zero => exact Nat.zero_le _
      | succ k =>
        obtain ⟨d, hd, hlen⟩ := hdec k hk
        have hd := decode_len_le hd
        simp [List.range_succ] at hd ⊢
        omega
    exact ⟨hfit, fun hge => Nat.le_antisymm (hfit n le_rfl) hge⟩
  · rw [chunkOffset, List.take_length, List.length_flatten]
  · obtain ⟨d, hd, hlen⟩ := hdec k hk
    refine ⟨d, ?_, hd, ?_⟩
    · rw [chunkOffset, List.map_take, List.drop_sum_flatten, List.drop_eq_getElem_cons hk, List.flatten_cons]
      exact decode_append hd _
    · rw [chunkOffset, List.take_succ_eq_append_getElem hk, hlen]
      simp only [chunkOffset, List.map_append, List.sum_append, List.map_cons, List.map_nil, List.sum_singleton]

end Sys2Proof
end

section
/-! PROOFS of family 30_encoding.md, second part: decoding what the encoder writes (R134 to R139), an instruction
cut short (R157), and memory operands (R123 to R126). -/

namespace Sys2Proof

open Machine

/-! ### Every instruction decodes from its encoding -/

/-- Format F_IMMRM of mov decodes, whatever its ignored REG field is (30_encoding.md R135, R159). -/
theorem decode_movImmRm {p : Params} {latch : Option (Kind × Mnemonic)} {reg : BitVec 3} {rm : Rm} {imm : Imm}
    {rest : List Byte} (h : rm.wf = true) :
    decode p latch ((0b1100011#7 ++ imm.width.bit) :: modRmByte reg rm :: (rm.dispBytes ++ (imm.encode ++ rest))) =
      .ok ⟨0b1100011#7 ++ imm.width.bit, .immRm imm.width false rm.modCode reg rm.rmCode, .movImmRm rm imm,
        2 + rm.dispLen + imm.width.bytes⟩ := by
  have hfields : extractFields .immRm .mov (0b1100011#7 ++ imm.width.bit) (modRmByte reg rm) =
      .immRm imm.width false rm.modCode reg rm.rmCode := by
    simp [extractFields, signBitS, Mnemonic.isAlu, op7_w]
  rw [decode_cons (class_movImmRm _ _)]
  apply decodeAs_ok hfields
  · simp [lengthCalc, Mnemonic.isAlu, baseLen, ndisp_codes h]
  · simp [bytesNeeded]; omega
  · simp only [assemble, resolveRm_codes h, immAt_codes h]

/-- Format F_IMMREG of mov decodes (30_encoding.md R136). -/
theorem decode_movImmReg {p : Params} {latch : Option (Kind × Mnemonic)} {reg : BitVec 3} {imm : Imm}
    {rest : List Byte} :
    decode p latch ((0b1011#4 ++ imm.width.bit ++ reg) :: (imm.encode ++ rest)) =
      .ok ⟨0b1011#4 ++ imm.width.bit ++ reg, .immReg imm.width reg, .movImmReg reg imm, 1 + imm.width.bytes⟩ := by
  obtain ⟨b1, t, ht⟩ := imm_cons imm rest
  have hfields : extractFields .immReg .mov (0b1011#4 ++ imm.width.bit ++ reg) b1 = .immReg imm.width reg := by
    simp [extractFields, op4_w, op4_reg]
  have hlen : imm.width.bytes + rest.length = t.length + 1 := by simpa using congrArg List.length ht
  rw [ht, decode_cons (class_movImmReg _ _ _)]
  apply decodeAs_ok hfields
  · simp [lengthCalc, Mnemonic.isData]
  · simp [bytesNeeded]; omega
  · rw [← ht, assemble, immAt_one]

/-- Settles O19, format by format. -/
theorem decodeOfEncodeIsTheInstruction : Obligations.DecodeOfEncodeIsTheInstruction := by
  intro p latch i rest h
  cases i with
  | movRmReg d w reg rm => exact ⟨_, decode_rmReg (class_movRmReg _ _) rfl (fun _ _ _ _ _ _ => rfl) h, rfl, rfl⟩
  | addRmReg d w reg rm => exact ⟨_, decode_rmReg (class_addRmReg _ _) rfl (fun _ _ _ _ _ _ => rfl) h, rfl, rfl⟩
  | subRmReg d w reg rm => exact ⟨_, decode_rmReg (class_subRmReg _ _) rfl (fun _ _ _ _ _ _ => rfl) h, rfl, rfl⟩
  | cmpRmReg d w reg rm => exact ⟨_, decode_rmReg (class_cmpRmReg _ _) rfl (fun _ _ _ _ _ _ => rfl) h, rfl, rfl⟩
  | movImmRm rm imm =>
    simp only [encode, List.cons_append, List.append_assoc]
    exact ⟨_, decode_movImmRm h, rfl, rfl⟩
  | addImmRm rm imm => exact ⟨_, decode_aluImmRm rfl rfl (fun _ _ _ _ _ _ => rfl) h, rfl, rfl⟩
  | subImmRm rm imm => exact ⟨_, decode_aluImmRm rfl rfl (fun _ _ _ _ _ _ => rfl) h, rfl, rfl⟩
  | cmpImmRm rm imm => exact ⟨_, decode_aluImmRm rfl rfl (fun _ _ _ _ _ _ => rfl) h, rfl, rfl⟩
  | movImmReg reg imm => exact ⟨_, decode_movImmReg, rfl, rfl⟩
  | addImmAcc imm =>
    exact ⟨_, decode_aluAcc (fun b1 => (class_aluAcc _ b1).1) rfl nofun (fun _ _ _ => rfl), rfl, rfl⟩
  | subImmAcc imm =>
    exact ⟨_, decode_aluAcc (fun b1 => (class_aluAcc _ b1).2.1) rfl nofun (fun _ _ _ => rfl), rfl, rfl⟩
  | cmpImmAcc imm =>
    exact ⟨_, decode_aluAcc (fun b1 => (class_aluAcc _ b1).2.2) rfl nofun (fun _ _ _ => rfl), rfl, rfl⟩
  | movMemAcc w addr | movAccMem w addr => exact ⟨_, decode_acc h, rfl, rfl⟩
  | movRmSreg g rm => exact ⟨_, decode_sreg 0x8E true (fun b1 => (class_sreg b1).1) rfl h, rfl, rfl⟩
  | movSregRm g rm => exact ⟨_, decode_sreg 0x8C false (fun b1 => (class_sreg b1).2) rfl h, rfl, rfl⟩
  | jo rel | jno rel | jb rel | jnb rel | je rel | jne rel | jbe rel | ja rel | js rel | jns rel | jp rel | jnp rel
  | jl rel | jnl rel | jle rel | jg rel | loopnz rel | loopz rel | loop rel | jcxz rel =>
    exact ⟨_, decode_jcc (fun b1 => class_jcc _ b1 (by decide)) rfl rfl, rfl, rfl⟩


/-! ### An instruction cut short (30_encoding.md R157) -/

/-- The encoding has the bytes that the decoder reads. -/
theorem encode_length (p : Params) (i : Instr) : (encode p i).length = i.bytesRead p := by
  cases i with
  | movRmReg | addRmReg | subRmReg | cmpRmReg => exact Laws.EncodeShape.rmRegShape ..
  | movImmRm rm imm => exact (Laws.EncodeShape.movImmRm rm imm).1 p
  | addImmRm | subImmRm | cmpImmRm => exact Laws.EncodeShape.aluImmRmShape ..
  | movImmReg reg imm => exact (Laws.EncodeShape.movImmReg reg imm).1 p
  | addImmAcc | subImmAcc | cmpImmAcc => exact Laws.EncodeShape.aluImmAccShape ..
  | movMemAcc w addr => exact (Laws.EncodeShape.movMemAcc w addr).1 p
  | movAccMem w addr => exact (Laws.EncodeShape.movAccMem w addr).1 p
  | movRmSreg | movSregRm => exact Laws.EncodeShape.sregShape ..
  | jo | jno | jb | jnb | je | jne | jbe | ja | js | jns | jp | jnp | jl | jnl | jle | jg | loopnz | loopz | loop
  | jcxz => rfl

/-- The first k bytes of code that decodes, of those that its instruction needs. -/
theorem decode_take {p : Params} {latch : Option (Kind × Mnemonic)} {bs : List Byte} {d : Decoded} {k : Nat}
    (h : decode p latch bs = .ok d) (hk : k < d.instr.bytesRead p) :
    decode p latch (bs.take k) = .error (.truncatedInstruction k (if k < 2 then 2 else d.instr.bytesRead p)) := by
  obtain ⟨b0, b1, rest, kind, m, rfl, hc, hlen, hneed, hasm, _⟩ := decode_ok h
  have hread : bytesNeeded p (extractFields kind m b0 b1) d.len = d.instr.bytesRead p := bytesNeeded_eq hlen hasm
  rw [hread] at hneed
  have htake : ((b0 :: b1 :: rest).take k).length = k := List.length_take_of_le (hk.le.trans hneed)
  match k with
  | 0 | 1 => rfl
  | j + 2 =>
    rw [List.take_succ_cons, List.take_succ_cons] at htake ⊢
    rw [decode_of_classify_ok hc, decodeAs, hlen]
    simp only [hread, htake, if_pos hk, if_neg (Nat.not_lt.2 (Nat.le_add_left 2 j))]

/-- Settles O10: the whole encoding decodes, and a part of it classifies alike. -/
theorem cutInstructionFaults : Obligations.CutInstructionFaults := by
  intro s i k hwf hpos hk hf
  obtain ⟨d, hd, rfl, _⟩ := decodeOfEncodeIsTheInstruction s.params s.latch i [] hwf
  rw [List.append_nil] at hd
  have hdec := decode_take hd hk
  rw [← hf] at hdec
  have hlen : s.fetch.length = k := by
    rw [hf, List.length_take_of_le (hk.le.trans (encode_length s.params d.instr).ge)]
  obtain ⟨b, bs, hb⟩ := List.exists_cons_of_length_pos (hlen ▸ hpos)
  exact step_of_decode_error (not_halted_of_fetch hb) hdec

end Sys2Proof
end

section
/-! PROOFS of family 30_encoding.md, third part: what the decoder answers (R101, R120 to R131, R150 to R156) and
that encoding it gives its bytes back (R159). -/

namespace Sys2Proof

open Machine

/-! ### The instruction that is assembled -/

/-- The kind that a variant of fields belongs to (30_encoding.md R101). -/
def Fields.kind : Fields → Kind
  | .rmReg ..  => .rmReg
  | .immRm ..  => .immRm
  | .immReg .. => .immReg
  | .acc ..    => .acc
  | .rmSreg .. => .rmSreg
  | .jcc       => .jcc

theorem extractFields_kind (k : Kind) (m : Mnemonic) (b0 b1 : Byte) : (extractFields k m b0 b1).kind = k := by
  cases k with
  | immReg => simp only [extractFields]; split <;> rfl
  | jcc | immRm | acc | rmReg | rmSreg => rfl

theorem aluImmAt_width (w : Width) (s : Bool) (q : Nat) (bs : List Byte) : (aluImmAt w s q bs).width = w := by
  cases w <;> cases s <;> rfl

section
variable {p : Params} {m : Mnemonic} {bs : List Byte} {i : Instr}

/-- A K_RM_REG instruction (30_encoding.md R150). -/
theorem assemble_rmReg {d : Bool} {w : Width} {mod : BitVec 2} {reg rm : BitVec 3}
    (h : assemble p m (.rmReg d w mod reg rm) bs = some i) :
    i.kind = .rmReg ∧ i.mnemonic = m ∧ i.wf p = true ∧
      i.dst = some (.loc (rmRegDst (.ofBit d) w reg (resolveRm mod rm bs))) ∧
      i.src = .loc (rmRegSrc (.ofBit d) w reg (resolveRm mod rm bs)) ∧
      encode p i = encodeRmReg (rmRegOp m) (.ofBit d) w reg (resolveRm mod rm bs) := by
  cases m with
  | mov | add | sub | cmp => cases h; exact ⟨rfl, rfl, resolveRm_wf .., rfl, rfl, rfl⟩
  | _ => cases h

/-- An arithmetic K_IMM_RM instruction (30_encoding.md R151); the immediate is its value as the ALU reads it. -/
theorem assemble_aluImmRm {w : Width} {s : Bool} {mod : BitVec 2} {reg rm : BitVec 3} (halu : m.isAlu = true)
    (h : assemble p m (.immRm w s mod reg rm) bs = some i) :
    i.kind = .immRm ∧ i.mnemonic = m ∧ i.wf p = true ∧ i.dst = some (.loc ((resolveRm mod rm bs).loc w)) ∧
      i.src = .imm (aluImmAt w s (baseLen mod rm) bs).value ∧
      encode p i = encodeAluImmRm (groupExt m) (resolveRm mod rm bs) (aluImmAt w s (baseLen mod rm) bs) := by
  cases m with
  | add | sub | cmp =>
    cases h
    exact ⟨rfl, rfl, resolveRm_wf .., by rw [Instr.dst, aluImmAt_width], rfl, rfl⟩
  | _ => simp [Mnemonic.isAlu] at halu

/-- The K_IMM_RM instruction of mov (30_encoding.md R151). -/
theorem assemble_movImmRm {w : Width} {s : Bool} {mod : BitVec 2} {reg rm : BitVec 3}
    (h : assemble p .mov (.immRm w s mod reg rm) bs = some i) :
    i = .movImmRm (resolveRm mod rm bs) (immAt w (baseLen mod rm) bs) := by
  cases h; rfl

/-- An arithmetic K_IMM_REG instruction (30_encoding.md R152). -/
theorem assemble_aluImmReg {w : Width} {reg : BitVec 3} (hmov : m ≠ .mov)
    (h : assemble p m (.immReg w reg) bs = some i) :
    i.kind = .immReg ∧ i.mnemonic = m ∧ i.wf p = true ∧ i.dst = some (.loc (regLoc w 0)) ∧
      i.src = .imm (immAt w 1 bs) ∧ encode p i = encodeAluImmAcc (aluAccOp m) (immAt w 1 bs) := by
  cases m with
  | add | sub | cmp =>
    cases h
    exact ⟨rfl, rfl, rfl, by rw [Instr.dst, immAt_width]; rfl, rfl, rfl⟩
  | mov => exact absurd rfl hmov
  | _ => cases h

theorem assemble_movImmReg {w : Width} {reg : BitVec 3} (h : assemble p .mov (.immReg w reg) bs = some i) :
    i = .movImmReg reg (immAt w 1 bs) := by
  cases h; rfl

/-- A K_ACC instruction (30_encoding.md R153, R154). -/
theorem assemble_acc {d : Bool} {w : Width} (h : assemble p m (.acc d w) bs = some i) :
    m = .mov ∧ i = if d then .movAccMem w (accAddrAt p w bs) else .movMemAcc w (accAddrAt p w bs) := by
  cases m with
  | mov => cases d <;> cases h <;> exact ⟨rfl, rfl⟩
  | _ => simp [assemble] at h

/-- A K_RM_SREG instruction (30_encoding.md R155). -/
theorem assemble_rmSreg {d : Bool} {mod sr : BitVec 2} {rm : BitVec 3}
    (h : assemble p m (.rmSreg d mod sr rm) bs = some i) :
    m = .mov ∧ i = if d then .movRmSreg (.ofCode sr) (resolveRm mod rm bs)
      else .movSregRm (.ofCode sr) (resolveRm mod rm bs) := by
  cases m with
  | mov => cases d <;> cases h <;> exact ⟨rfl, rfl⟩
  | _ => simp [assemble] at h

/-- A jump (30_encoding.md R131). -/
theorem assemble_jcc (h : assemble p m .jcc bs = some i) :
    i.kind = .jcc ∧ i.mnemonic = m ∧ i.wf p = true ∧ i.dst = none ∧ i.src = .rel8 (byteAt bs 1) ∧
      encode p i = [jumpByte m, byteAt bs 1] := by
  cases m with
  | mov | add | sub | cmp => cases h
  | _ => cases h; exact ⟨rfl, rfl, rfl, rfl, rfl, rfl⟩
end

/-! ### Operands and immediates as windows of the code -/

theorem byteAt_eq_getElem {bs : List Byte} {q : Nat} (h : q < bs.length) : byteAt bs q = bs[q] := by
  simp [byteAt, h]

theorem take_one_drop {bs : List Byte} {q : Nat} (h : q < bs.length) : (bs.drop q).take 1 = [byteAt bs q] := by
  rw [List.drop_eq_getElem_cons h, byteAt_eq_getElem h]
  rfl

theorem take_two_drop {bs : List Byte} {q : Nat} (h : q + 1 < bs.length) :
    (bs.drop q).take 2 = wordBytes (wordAt bs q) := by
  rw [List.drop_eq_getElem_cons (Nat.lt_of_succ_lt h), List.drop_eq_getElem_cons h, wordBytes, wordAt,
    loByte_joinWord, hiByte_joinWord, byteAt_eq_getElem h, byteAt_eq_getElem (Nat.lt_of_succ_lt h)]
  rfl

theorem immAt_encode {w : Width} {q : Nat} {bs : List Byte} (h : q + w.bytes ≤ bs.length) :
    (immAt w q bs).encode = (bs.drop q).take w.bytes := by
  cases w with
  | byte => exact (take_one_drop h).symm
  | word => exact (take_two_drop h).symm

theorem aluImmAt_encode {w : Width} {s : Bool} {q : Nat} {bs : List Byte}
    (h : q + (aluImmAt w s q bs).bytes ≤ bs.length) :
    (aluImmAt w s q bs).encode = (bs.drop q).take (aluImmAt w s q bs).bytes := by
  cases w with
  | byte => exact (take_one_drop h).symm
  | word =>
    cases s with
    | false => exact (take_two_drop h).symm
    | true => exact (take_one_drop h).symm

theorem base_code_ofCode (rm : BitVec 3) : (Base.ofCode rm).code = rm := by revert rm; decide
theorem seg_code_ofCode (sr : BitVec 2) : (SegReg.ofCode sr).code = sr := by revert sr; decide

/-- The MOD/REG/RM byte of a resolved operand has the codes it was resolved from. -/
theorem modRmByte_resolveRm (mod : BitVec 2) (g rm : BitVec 3) (bs : List Byte) :
    modRmByte g (resolveRm mod rm bs) = mod ++ g ++ rm := by
  rcases mod_cases mod with rfl | rfl | rfl | rfl
  · by_cases h : rm = 6#3
    · subst h; rfl
    · simp [modRmByte, resolveRm, h, Rm.modCode, Rm.rmCode, base_code_ofCode]
  · simp [modRmByte, resolveRm, Rm.modCode, Rm.rmCode, base_code_ofCode]
  · simp [modRmByte, resolveRm, Rm.modCode, Rm.rmCode, base_code_ofCode]
  · rfl

/-- The displacement of a resolved operand is the code behind b1. -/
theorem dispBytes_resolveRm {mod : BitVec 2} {rm : BitVec 3} {b0 b1 : Byte} {rest : List Byte}
    (h : ndisp mod rm ≤ rest.length) : (resolveRm mod rm (b0 :: b1 :: rest)).dispBytes = rest.take (ndisp mod rm) := by
  rcases mod_cases mod with rfl | rfl | rfl | rfl
  · by_cases h6 : rm = 6#3
    · subst h6; exact (take_two_drop (q := 0) h).symm
    · simp [resolveRm, ndisp, h6, Rm.dispBytes]
  · exact (take_one_drop (q := 0) h).symm
  · exact (take_two_drop (q := 0) h).symm
  · rfl

/-- An operand's bytes and an immediate behind them are the code from b1 on, REG apart. -/
theorem rmForm_eq_take {mod : BitVec 2} {rm : BitVec 3} {b0 b1 : Byte} {rest : List Byte} (op : Byte) (g : BitVec 3)
    {imm : List Byte} {c : Nat} (himm : imm = ((b0 :: b1 :: rest).drop (baseLen mod rm)).take c)
    (hfit : baseLen mod rm + c ≤ (b0 :: b1 :: rest).length) :
    op :: modRmByte g (resolveRm mod rm (b0 :: b1 :: rest)) ::
        ((resolveRm mod rm (b0 :: b1 :: rest)).dispBytes ++ imm) =
      (op :: (mod ++ g ++ rm) :: rest).take (baseLen mod rm + c) := by
  have hdisp : ndisp mod rm ≤ rest.length := by simp [baseLen] at hfit; omega
  have hn : baseLen mod rm + c = ndisp mod rm + c + 1 + 1 := by simp only [baseLen]; omega
  have hdrop : (b0 :: b1 :: rest).drop (baseLen mod rm) = rest.drop (ndisp mod rm) := by
    rw [baseLen, Nat.add_comm]; rfl
  rw [himm, hdrop, dispBytes_resolveRm hdisp, modRmByte_resolveRm, hn, List.take_succ_cons, List.take_succ_cons,
    List.take_add]

theorem rmOnly_eq_take {mod : BitVec 2} {rm : BitVec 3} {b0 b1 : Byte} {rest : List Byte} (op : Byte) (g : BitVec 3)
    (hfit : baseLen mod rm ≤ (b0 :: b1 :: rest).length) :
    op :: modRmByte g (resolveRm mod rm (b0 :: b1 :: rest)) :: (resolveRm mod rm (b0 :: b1 :: rest)).dispBytes =
      (op :: (mod ++ g ++ rm) :: rest).take (baseLen mod rm) := by
  simpa using rmForm_eq_take (imm := []) (c := 0) op g rfl hfit

theorem cons_eq_take (op : Byte) (bs : List Byte) (c : Nat) : op :: bs.take c = (op :: bs).take (1 + c) := by
  rw [Nat.add_comm, List.take_succ_cons]

/-- The second byte that the encoder writes for a mnemonic and its fields; outside the MOD/REG/RM formats it is
the code's own. -/
def Fields.byte1 (m : Mnemonic) (b1 : Byte) : Fields → Byte
  | .rmReg _ _ mod reg rm => mod ++ reg ++ rm
  | .immRm _ _ mod _ rm   => mod ++ groupExt m ++ rm
  | .rmSreg _ mod sr rm   => mod ++ (0#1 ++ sr) ++ rm
  | .immReg .. | .acc .. | .jcc => b1

theorem dirOfBit_ofBool (d : Bool) : (Dir.ofBit d).bit = BitVec.ofBool d := by cases d <;> rfl

theorem aluImmAt_sBit (w : Width) (s : Bool) (q : Nat) (bs : List Byte) :
    (aluImmAt w s q bs).sBit = BitVec.ofBool (s && w = .word) := by
  cases w <;> cases s <;> rfl

theorem loByte_zext16 (v : Byte) : loByte (zext16 v) = v := by
  apply BitVec.eq_of_toNat_eq
  rw [toNat_loByte, zext16, BitVec.toNat_setWidth]
  omega

/-- The address bytes of a K_ACC form are the code from the second byte on (30_encoding.md R130). -/
theorem encodeAcc_accAddrAt {p : Params} {d : Bool} {w : Width} {b0 b1 : Byte} {rest : List Byte}
    (h : bytesNeeded p (.acc d w) (1 + w.bytes) ≤ (b0 :: b1 :: rest).length) :
    encodeAcc p (BitVec.ofBool d) w (accAddrAt p w (b0 :: b1 :: rest)) =
      ((0b101000#6 ++ BitVec.ofBool d ++ w.bit) :: b1 :: rest).take (bytesNeeded p (.acc d w) (1 + w.bytes)) := by
  have hword : 3 ≤ (b0 :: b1 :: rest).length → wordBytes (wordAt (b0 :: b1 :: rest) 1) = (b1 :: rest).take 2 :=
    fun h3 => (take_two_drop (q := 1) h3).symm
  cases w with
  | word =>
    have h3 : 3 ≤ (b0 :: b1 :: rest).length := h
    exact congrArg _ (hword h3)
  | byte =>
    simp only [encodeAcc, accAddrAt, bytesNeeded] at h ⊢
    cases hp : p.acc8 with
    | lo8 => simp [loByte_zext16, Width.bytes]
    | lo16 =>
      rw [hp] at h
      exact congrArg _ (hword h)

theorem isAlu_of_lengthCalc {m : Mnemonic} {w : Width} {s : Bool} {mod : BitVec 2} {reg rm : BitVec 3} {n : Nat}
    (hm : m ≠ .mov) (hl : lengthCalc m (.immRm w s mod reg rm) = some n) : m.isAlu = true := by
  by_contra halu
  simp [lengthCalc, hm, halu] at hl

/-- Encoding an assembled instruction gives back the bytes that were needed for it, its first two apart. -/
theorem encode_assemble {p : Params} {m : Mnemonic} {f : Fields} {n : Nat} {b0 b1 : Byte} {rest : List Byte}
    {i : Instr} (hl : lengthCalc m f = some n) (hn : bytesNeeded p f n ≤ (b0 :: b1 :: rest).length)
    (ha : assemble p m f (b0 :: b1 :: rest) = some i) :
    encode p i = (f.byte0 m :: f.byte1 m b1 :: rest).take (bytesNeeded p f n) := by
  cases f with
  | rmReg d w mod reg rm =>
    obtain ⟨_, _, _, _, _, henc⟩ := assemble_rmReg ha
    obtain ⟨_, rfl⟩ : m.isData = true ∧ baseLen mod rm = n := by simpa [lengthCalc] using hl
    rw [henc, encodeRmReg, dirOfBit_ofBool]
    exact rmOnly_eq_take _ reg hn
  | immRm w s mod reg rm =>
    by_cases hm : m = .mov
    · subst hm
      obtain rfl : baseLen mod rm + w.bytes = n := by simpa [lengthCalc, Mnemonic.isAlu] using hl
      rw [assemble_movImmRm ha, encode, immAt_width]
      exact rmForm_eq_take _ 0 (immAt_encode hn) hn
    · have halu := isAlu_of_lengthCalc hm hl
      obtain ⟨_, _, _, _, _, henc⟩ := assemble_aluImmRm halu ha
      obtain rfl : baseLen mod rm + (aluImmAt w s (baseLen mod rm) (b0 :: b1 :: rest)).bytes = n := by
        simpa [lengthCalc, halu, aluImmAt_bytes] using hl
      rw [henc, encodeAluImmRm, aluImmAt_sBit, aluImmAt_width, Fields.byte0, if_neg hm]
      exact rmForm_eq_take _ (groupExt m) (aluImmAt_encode hn) hn
  | immReg w reg =>
    obtain ⟨_, rfl⟩ : m.isData = true ∧ 1 + w.bytes = n := by simpa [lengthCalc] using hl
    have himm : (immAt w 1 (b0 :: b1 :: rest)).encode = (b1 :: rest).take w.bytes := immAt_encode hn
    by_cases hm : m = .mov
    · subst hm
      rw [assemble_movImmReg ha, encode, himm, immAt_width]
      exact cons_eq_take ..
    · obtain ⟨_, _, _, _, _, henc⟩ := assemble_aluImmReg hm ha
      rw [henc, encodeAluImmAcc, himm, immAt_width, Fields.byte0, if_neg hm]
      exact cons_eq_take ..
  | acc d w =>
    obtain ⟨rfl, rfl⟩ := assemble_acc ha
    obtain rfl : 1 + w.bytes = n := by simpa [lengthCalc] using hl
    rw [Fields.byte0, Fields.byte1, ← encodeAcc_accAddrAt hn]
    cases d <;> rfl
  | rmSreg d mod sr rm =>
    obtain ⟨rfl, rfl⟩ := assemble_rmSreg ha
    obtain ⟨_, rfl⟩ : (mod = 0#2 → rm = 6#3) ∧ baseLen mod rm = n := by simpa [lengthCalc] using hl
    have henc : encode p (if d then .movRmSreg (.ofCode sr) (resolveRm mod rm (b0 :: b1 :: rest))
        else .movSregRm (.ofCode sr) (resolveRm mod rm (b0 :: b1 :: rest))) =
        encodeSreg (if d then 0x8E else 0x8C) (.ofCode sr) (resolveRm mod rm (b0 :: b1 :: rest)) := by
      cases d <;> rfl
    rw [henc, encodeSreg, seg_code_ofCode]
    exact rmOnly_eq_take _ (0#1 ++ sr) hn
  | jcc =>
    obtain ⟨_, _, _, _, _, henc⟩ := assemble_jcc ha
    obtain ⟨_, rfl⟩ : m.isData = false ∧ 2 = n := by simpa [lengthCalc] using hl
    exact henc

/-! ### Ignored bits (30_encoding.md R159) -/

theorem modRm_split (b1 : Byte) : b1.extractLsb' 6 2 ++ b1.extractLsb' 3 3 ++ b1.extractLsb' 0 3 = b1 := by
  revert b1; decide

/-- The REG field of 0xC6 and 0xC7 at 0. -/
theorem modRm_clear_reg (b1 : Byte) :
    b1.extractLsb' 6 2 ++ 0#3 ++ b1.extractLsb' 0 3 = b1 &&& 0b11000111 := by
  revert b1; decide

/-- b1[5] of 0x8C and 0x8E at 0. -/
theorem modRm_clear_bit5 (b1 : Byte) :
    b1.extractLsb' 6 2 ++ (0#1 ++ b1.extractLsb' 3 2) ++ b1.extractLsb' 0 3 = b1 &&& 0b11011111 := by
  revert b1; decide

/-- A group byte with S cleared where W = 0: 0x82 as 0x80. -/
theorem group_byte0 {b0 : Byte} : isGroup b0 = true →
    (if b0 = 0x82 then 0x80 else b0) = 0b100000#6 ++ BitVec.ofBool
      ((b0.getLsbD 1 && b0.getLsbD 0) && Width.ofBit (b0.getLsbD 0) = .word) ++ (Width.ofBit (b0.getLsbD 0)).bit := by
  revert b0; decide

theorem group_ne {b0 : Byte} : isGroup b0 = true → b0 ≠ 0xC6 ∧ b0 ≠ 0xC7 ∧ b0 ≠ 0x8C ∧ b0 ≠ 0x8E := by
  revert b0; decide

/-- Outside K_IMM_RM and K_RM_SREG no bit of b1 is ignored. -/
theorem byte1_extractFields {k : Kind} {m : Mnemonic} {b0 b1 : Byte} (himm : k ≠ .immRm) (hseg : k ≠ .rmSreg) :
    (extractFields k m b0 b1).byte1 m b1 = b1 := by
  cases k with
  | rmReg => exact modRm_split b1
  | immReg => simp only [extractFields]; split <;> rfl
  | acc | jcc => rfl
  | immRm => exact absurd rfl himm
  | rmSreg => exact absurd rfl hseg

/-- Bytes that the tables know, with the ignored bits at 0, are those that the encoder writes. -/
theorem withoutIgnoredBits_eq {b0 b1 : Byte} {k : Kind} {m : Mnemonic} (rest : List Byte)
    (hc : classifyTables b0 b1 = some (k, some m)) :
    withoutIgnoredBits (b0 :: b1 :: rest) =
      (extractFields k m b0 b1).byte0 m :: (extractFields k m b0 b1).byte1 m b1 :: rest := by
  cases hg : isGroup b0 with
  | true =>
    obtain ⟨hC6, hC7, h8C, h8E⟩ := group_ne hg
    rw [classifyTables_group hg] at hc
    rcases byteTwo_cases b1 with ⟨hb, _⟩ | ⟨m', hb, _, halu, hext⟩ <;> rw [hb] at hc <;> cases hc
    have hmov : m ≠ .mov := by rintro rfl; simp [Mnemonic.isAlu] at halu
    have hbyte0 : (if b0 = 0x82 then 0x80 else b0) = (extractFields .immRm m b0 b1).byte0 m := by
      rw [group_byte0 hg, extractFields, Fields.byte0, if_neg hmov, signBitS, halu, Bool.true_and]
    have hbyte1 : b1 = (extractFields .immRm m b0 b1).byte1 m b1 := by
      rw [extractFields, Fields.byte1, ← hext, modRm_split]
    rw [← hbyte0, ← hbyte1]
    simp only [withoutIgnoredBits, hC6, hC7, h8C, h8E, or_self, if_false]
    split <;> rfl
  | false =>
    have h82 : b0 ≠ 0x82 := by rintro rfl; simp [isGroup] at hg
    rcases classifyTables_plain hg b1 with ⟨_, hc'⟩ | ⟨k', m', hc', _, hadm, hbyte0, hmov, hseg⟩
    · rw [hc'] at hc; cases hc
    cases hc'.symm.trans hc
    rw [← hbyte0]
    by_cases himm : k = .immRm
    · subst himm
      obtain rfl : m = .mov := by
        rcases hmov.1 rfl with rfl | rfl <;> cases hc' <;> rfl
      have hbyte1 : (extractFields .immRm .mov b0 b1).byte1 .mov b1 = b1 &&& 0b11000111 := modRm_clear_reg b1
      rw [hbyte1, withoutIgnoredBits, if_pos (hmov.1 rfl)]
    by_cases hsreg : k = .rmSreg
    · subst hsreg
      have hbyte1 : (extractFields .rmSreg m b0 b1).byte1 m b1 = b1 &&& 0b11011111 := modRm_clear_bit5 b1
      rw [hbyte1, withoutIgnoredBits, if_neg (mt hmov.2 himm), if_pos (hseg.1 rfl)]
    · rw [byte1_extractFields himm hsreg, withoutIgnoredBits, if_neg (mt hmov.2 himm), if_neg (mt hseg.2 hsreg),
        if_neg h82]

/-! ### What a decoded record is -/

theorem bytesNeeded_of_kind {f : Fields} (h : f.kind ≠ .acc) (p : Params) (n : Nat) : bytesNeeded p f n = n := by
  cases f with
  | acc => exact absurd rfl h
  | rmReg | immRm | immReg | rmSreg | jcc => rfl

theorem bytesRead_of_kind {i : Instr} (h : i.kind ≠ .acc) (p : Params) : i.bytesRead p = i.length := by
  cases i with
  | movMemAcc | movAccMem => exact absurd rfl h
  | _ => rfl

theorem accAddrAt_wf (p : Params) (w : Width) (bs : List Byte) : accAddrWf p w (accAddrAt p w bs) = true := by
  cases w with
  | word => rfl
  | byte =>
    cases hp : p.acc8 with
    | lo16 => simp [accAddrWf, hp]
    | lo8 =>
      have := (byteAt bs 1).isLt
      simp [accAddrWf, accAddrAt, hp, zext16]
      omega

/-- An assembled instruction is of its fields' kind, well formed, and as long as the length table says. -/
theorem assemble_spec {p : Params} {m : Mnemonic} {f : Fields} {n : Nat} {bs : List Byte} {i : Instr}
    (hl : lengthCalc m f = some n) (ha : assemble p m f bs = some i) :
    i.kind = f.kind ∧ i.wf p = true ∧ n = i.length := by
  have hlen (hk : i.kind = f.kind) (hne : f.kind ≠ .acc) : n = i.length := by
    rw [← bytesRead_of_kind (hk ▸ hne) p, ← bytesNeeded_eq hl ha, bytesNeeded_of_kind hne]
  cases f with
  | rmReg d w mod reg rm =>
    obtain ⟨hk, _, hwf, _⟩ := assemble_rmReg ha
    exact ⟨hk, hwf, hlen hk nofun⟩
  | immRm w s mod reg rm =>
    by_cases hm : m = .mov
    · subst hm
      cases assemble_movImmRm ha
      exact ⟨rfl, resolveRm_wf .., hlen rfl nofun⟩
    · have halu := isAlu_of_lengthCalc hm hl
      obtain ⟨hk, _, hwf, _⟩ := assemble_aluImmRm halu ha
      exact ⟨hk, hwf, hlen hk nofun⟩
  | immReg w reg =>
    by_cases hm : m = .mov
    · subst hm
      cases assemble_movImmReg ha
      exact ⟨rfl, rfl, hlen rfl nofun⟩
    · obtain ⟨hk, _, hwf, _⟩ := assemble_aluImmReg hm ha
      exact ⟨hk, hwf, hlen hk nofun⟩
  | acc d w =>
    obtain ⟨rfl, rfl⟩ := assemble_acc ha
    obtain rfl : 1 + w.bytes = n := by simpa [lengthCalc] using hl
    cases d <;> exact ⟨rfl, accAddrAt_wf p w bs, rfl⟩
  | rmSreg d mod sr rm =>
    obtain ⟨rfl, rfl⟩ := assemble_rmSreg ha
    have hmode : ¬ (mod = 0#2 ∧ ¬ rm = 6#3) := fun hmode => by simp [lengthCalc, hmode] at hl
    cases d <;> exact ⟨rfl, resolveRm_sregWf bs hmode, hlen rfl nofun⟩
  | jcc =>
    obtain ⟨hk, _, hwf, _⟩ := assemble_jcc ha
    exact ⟨hk, hwf, hlen hk nofun⟩

/-- Settles O20: the encoder writes the needed bytes, ignored bits at 0, and decoding what it writes gives the
instruction back. -/
theorem onlyIgnoredBitsAreDropped : Obligations.OnlyIgnoredBitsAreDropped := by
  intro p latch b0 b1 rest d hknown hd
  obtain ⟨_, _, _, k, m, hbs, hc, hlen, hneed, hasm, _⟩ := decode_ok hd
  cases hbs
  have htables : classifyTables b0 b1 = some (k, some m) := by
    rcases hknown with hp | ⟨k', m', hc'⟩
    · exact classifyTables_of_classify hp hc
    · cases (classify_mapped hc').symm.trans hc
      exact hc'
  obtain ⟨_, hwf, hlength⟩ := assemble_spec hlen hasm
  have henc : encode p d.instr = (withoutIgnoredBits (b0 :: b1 :: rest)).take (d.instr.bytesRead p) := by
    rw [withoutIgnoredBits_eq rest htables, ← bytesNeeded_eq hlen hasm]
    exact encode_assemble hlen hneed hasm
  refine ⟨henc, ?_⟩
  obtain ⟨d', hd', hinstr, hlen'⟩ := decodeOfEncodeIsTheInstruction p latch d.instr
    ((withoutIgnoredBits (b0 :: b1 :: rest)).drop (d.instr.bytesRead p)) hwf
  rw [henc, List.take_append_drop] at hd'
  exact ⟨d', hd', hinstr, hlen'.trans hlength.symm⟩

/-! ### Fields and operands as numbers (30_encoding.md R101, R120, R128 to R131) -/

section
variable (b : Byte)

theorem toNat_mod_field : (b.extractLsb' 6 2).toNat = b.toNat / 64 := by revert b; decide
theorem toNat_reg_field : (b.extractLsb' 3 3).toNat = b.toNat / 8 % 8 := by revert b; decide
theorem toNat_sr_field : (b.extractLsb' 3 2).toNat = b.toNat / 8 % 4 := by revert b; decide
theorem toNat_rm_field : (b.extractLsb' 0 3).toNat = b.toNat % 8 := by revert b; decide
end

/-- S is b0[1] where the mnemonic and W give it a meaning (30_encoding.md R116). -/
theorem signBitS_iff {m : Mnemonic} (b0 : Byte) (h : m = .mov ∨ m.isAlu = true) :
    signBitS m b0 = true ↔ m ≠ .mov ∧ b0.getLsbD 1 = true ∧ Width.ofBit (b0.getLsbD 0) = .word := by
  have hw : ∀ b, Width.ofBit b = .word ↔ b = true := by decide
  have hne : m.isAlu = true ↔ m ≠ .mov := by
    rcases h with rfl | h
    · decide
    · exact ⟨fun _ => by rintro rfl; simp [Mnemonic.isAlu] at h, fun _ => h⟩
  rw [hw, ← hne, signBitS, Bool.and_eq_true, Bool.and_eq_true, and_assoc]

theorem wordAt_eq_ofNat (bs : List Byte) (q : Nat) :
    wordAt bs q = BitVec.ofNat 16 ((byteAt bs (q + 1)).toNat * 256 + (byteAt bs q).toNat) := by
  rw [wordAt, ← toNat_joinWord, BitVec.ofNat_toNat, BitVec.setWidth_eq]

theorem regLoc_eq (w : Width) (n : BitVec 3) : regLoc w n = if w = .word then .reg16 n else .reg8 n := by
  cases w <;> rfl

theorem rmRegDst_ofBit (d : Bool) (w : Width) (reg : BitVec 3) (rm : Rm) :
    rmRegDst (.ofBit d) w reg rm = if d then regLoc w reg else rm.loc w := by cases d <;> rfl

theorem rmRegSrc_ofBit (d : Bool) (w : Width) (reg : BitVec 3) (rm : Rm) :
    rmRegSrc (.ofBit d) w reg rm = if d then rm.loc w else regLoc w reg := by cases d <;> rfl

theorem immAt_eq (w : Width) (q : Nat) (bs : List Byte) : immAt w q bs =
    if w = .byte then .byte (byteAt bs q)
    else .word (BitVec.ofNat 16 ((byteAt bs (q + 1)).toNat * 256 + (byteAt bs q).toNat)) := by
  cases w with
  | byte => rfl
  | word => exact congrArg Imm.word (wordAt_eq_ofNat bs q)

theorem aluImmAt_value (w : Width) (s : Bool) (q : Nat) (bs : List Byte) : (aluImmAt w s q bs).value =
    if w = .byte then .byte (byteAt bs q)
    else if s then .word (BitVec.ofInt 16 (byteAt bs q).toInt)
    else .word (BitVec.ofNat 16 ((byteAt bs (q + 1)).toNat * 256 + (byteAt bs q).toNat)) := by
  cases w with
  | byte => rfl
  | word =>
    cases s with
    | false => exact congrArg Imm.word (wordAt_eq_ofNat bs q)
    | true => rfl

theorem accAddrAt_eq (p : Params) (w : Width) (bs : List Byte) : accAddrAt p w bs =
    BitVec.ofNat 16 (if w = .byte ∧ p.acc8 = .lo8 then (byteAt bs 1).toNat
      else (byteAt bs 2).toNat * 256 + (byteAt bs 1).toNat) := by
  cases w with
  | word => exact wordAt_eq_ofNat bs 1
  | byte =>
    cases hp : p.acc8 with
    | lo16 => simpa [accAddrAt, hp] using wordAt_eq_ofNat bs 1
    | lo8 => simp [accAddrAt, hp, zext16, BitVec.ofNat_toNat]

/-- Settles O21: the record is made by extractFields and assemble, whose operands are these. -/
theorem decodedInstructionsAreWellFormed : Obligations.DecodedInstructionsAreWellFormed := by
  intro p latch bs d hd
  obtain ⟨b0, b1, rest, k, m, rfl, hc, hlen, hneed, hasm, hop, hfields⟩ := decode_ok hd
  obtain ⟨hkind, hwf, hlength⟩ := assemble_spec hlen hasm
  refine ⟨hwf, admitted_instr _, hlength, (bytesNeeded_eq hlen hasm).symm.le.trans hneed, b0, b1, rest, rfl, hop, ?_⟩
  rw [hfields]
  cases k with
  | rmReg =>
    obtain ⟨_, _, _, hdst, hsrc, _⟩ := assemble_rmReg hasm
    refine ⟨hkind, rfl, rfl, toNat_mod_field b1, toNat_reg_field b1, toNat_rm_field b1, ?_, ?_⟩
    · rw [hdst, rmRegDst_ofBit, regLoc_eq]
    · rw [hsrc, rmRegSrc_ofBit, regLoc_eq]
  | immRm =>
    have hnext (mod : BitVec 2) (rm : BitVec 3) : 3 + ndisp mod rm = baseLen mod rm + 1 := by rw [baseLen]; omega
    simp only [extractFields, hnext]
    by_cases hm : m = .mov
    · subst hm
      rw [assemble_movImmRm hasm]
      refine ⟨rfl, rfl, signBitS_iff b0 (.inl rfl), toNat_mod_field b1, toNat_reg_field b1, toNat_rm_field b1,
        ?_, ?_⟩
      · rw [Instr.dst, immAt_width]
      · rw [Instr.src, immAt_eq]; rfl
    · have halu := isAlu_of_lengthCalc hm hlen
      obtain ⟨_, hmnem, _, hdst, hsrc, _⟩ := assemble_aluImmRm halu hasm
      rw [aluImmAt_value] at hsrc
      rw [hmnem]
      exact ⟨hkind, rfl, signBitS_iff b0 (.inr halu), toNat_mod_field b1, toNat_reg_field b1, toNat_rm_field b1,
        hdst, hsrc⟩
  | immReg =>
    by_cases hm : m = .mov
    · subst hm
      rw [assemble_movImmReg hasm]
      refine ⟨rfl, rfl, toNat_rm_field b0, ?_, ?_⟩
      · rw [Instr.dst, immAt_width, regLoc_eq]
      · rw [Instr.src, immAt_eq]; rfl
    · simp only [extractFields, if_neg hm] at hasm hkind ⊢
      obtain ⟨_, hmnem, _, hdst, hsrc, _⟩ := assemble_aluImmReg hm hasm
      rw [hmnem, if_neg hm, if_neg hm, ← regLoc_eq]
      refine ⟨hkind, rfl, rfl, hdst, ?_⟩
      rw [hsrc, immAt_eq]; rfl
  | acc =>
    obtain ⟨_, hi⟩ := assemble_acc hasm
    refine ⟨hkind, rfl, rfl, ?_⟩
    rw [hi, accAddrAt_eq, ← regLoc_eq]
    cases b0.getLsbD 1 <;> exact ⟨rfl, rfl⟩
  | rmSreg =>
    obtain ⟨_, hi⟩ := assemble_rmSreg hasm
    refine ⟨hkind, rfl, toNat_mod_field b1, toNat_sr_field b1, toNat_rm_field b1, ?_⟩
    rw [hi]
    cases b0.getLsbD 1 <;> exact ⟨rfl, rfl⟩
  | jcc =>
    obtain ⟨_, _, _, hdst, hsrc, _⟩ := assemble_jcc hasm
    exact ⟨hkind, hdst, hsrc⟩

end Sys2Proof
end

section
/-! PROOFS of family 30_encoding.md, fourth part: where a memory operand lies (R117, R123 to R126) and what the
moves read and write there. -/

namespace Sys2Proof.Machine

/-- The operand lies in memory at a: a base and displacement whose sum is a, or the direct address a
(30_encoding.md R124, R126). -/
def LiesAt (s : State) (rm : Rm) (a : Word) : Prop :=
  match rm with
  | .reg _     => False
  | .mem b     => s.base b = a
  | .direct d  => d = a
  | .mem8 b d  => s.ea b (sext16 d) = a
  | .mem16 b d => s.ea b d = a

/-- The three primitives on a location, there. -/
theorem LiesAt.loc {s : State} {rm : Rm} {a : Word} (h : LiesAt s rm a) (w : Width) :
    (∃ b d, rm.loc w = .mem b d ∧ s.ea b d = a) ∨ rm.loc w = .direct a := by
  cases rm with
  | reg n => exact h.elim
  | mem b => exact .inl ⟨b, 0, rfl, (BitVec.add_zero _).trans h⟩
  | direct d => exact .inr (congrArg Loc.direct h)
  | mem8 b d => exact .inl ⟨b, _, rfl, h⟩
  | mem16 b d => exact .inl ⟨b, d, rfl, h⟩

section
variable {s : State} {rm : Rm} {a : Word}

theorem LiesAt.readLoc (h : LiesAt s rm a) (w : Width) : s.readLoc w (rm.loc w) = s.memRead w a := by
  rcases h.loc w with ⟨b, d, hloc, rfl⟩ | hloc <;> rw [hloc] <;> rfl

theorem LiesAt.writeLoc (h : LiesAt s rm a) (w : Width) (v : Int) :
    s.writeLoc w (rm.loc w) v = s.memWrite w a v := by
  rcases h.loc w with ⟨b, d, hloc, rfl⟩ | hloc <;> rw [hloc] <;> rfl

theorem LiesAt.locBytes (h : LiesAt s rm a) (w : Width) : s.locBytes w (rm.loc w) = accessBytes w a := by
  rcases h.loc w with ⟨b, d, hloc, rfl⟩ | hloc <;> rw [hloc] <;> rfl

/-- The advance leaves the registers that an address is made of. -/
theorem LiesAt.advance (h : LiesAt s rm a) (d : Decoded) : LiesAt (s.advance d) rm a := by
  cases rm with
  | mem b | mem8 b _ | mem16 b _ => cases b <;> exact h
  | reg | direct => exact h

/-- A load from the operand: the register takes what memory holds there. -/
theorem LiesAt.load (h : LiesAt s rm a) (w : Width) (reg : BitVec 3) (d : Decoded) :
    (move w (regLoc w reg) (.loc (rm.loc w)) (s.advance d)).readLoc w (regLoc w reg) = s.memRead w a ∧
      (move w (regLoc w reg) (.loc (rm.loc w)) (s.advance d)).mem = s.mem := by
  have hread : (s.advance d).readOp w (.loc (rm.loc w)) = s.memRead w a := by
    rw [State.readOp, (h.advance d).readLoc]
    cases w <;> rfl
  have hfit : (s.advance d).readOp w (.loc (rm.loc w)) < 2 ^ locBits w (regLoc w reg) := by
    rw [locBits_regLoc, ← locBits_rmLoc w rm]
    exact readLoc_lt _ w _
  obtain ⟨hval, _⟩ := move_spec _ w _ _ hfit
  exact ⟨hval.trans hread, writeLoc_mem _ w (locInMem_regLoc w reg) _⟩

/-- A store to the operand: memory takes the source there, and no register changes. -/
theorem LiesAt.store (h : LiesAt s rm a) (w : Width) (src : Operand) (d : Decoded) :
    (move w (rm.loc w) src (s.advance d)).mem = (s.memWrite w a ((s.advance d).readOp w src)).mem ∧
      (move w (rm.loc w) src (s.advance d)).gpr = s.gpr := by
  rw [move, (h.advance d).writeLoc]
  cases w <;> exact ⟨rfl, rfl⟩

/-- A step at a register move's code bytes makes its copy. -/
theorem step_movRmReg {dir : Dir} {w : Width} {reg : BitVec 3} {rest : List Byte} (hwf : rm.wf = true)
    (hf : s.fetch = encodeRmReg 0b100010#6 dir w reg rm ++ rest) :
    ∃ d, step s = .next (move w (rmRegDst dir w reg rm) (.loc (rmRegSrc dir w reg rm)) (s.advance d)) := by
  have hdec := decode_rmReg (p := s.params) (latch := s.latch) (mk := .movRmReg) (rest := rest) (d := dir) (reg := reg)
    (class_movRmReg _ w.bit) rfl (fun _ _ _ _ _ _ => rfl) hwf
  rw [← hf] at hdec
  exact ⟨_, (step_of_decode_ok (not_halted_of_fetch hf) hdec).trans (exec_mov _ rfl)⟩

/-- A step at an immediate move's code bytes stores the immediate, whatever the ignored REG field is. -/
theorem step_movImmRm {op : Byte} {reg : BitVec 3} {imm : Imm} {rest : List Byte} (hwf : rm.wf = true)
    (hop : op = 0b1100011#7 ++ imm.width.bit)
    (hf : s.fetch = op :: modRmByte reg rm :: (rm.dispBytes ++ (imm.encode ++ rest))) :
    ∃ d, step s = .next (move imm.width (rm.loc imm.width) (.imm imm) (s.advance d)) := by
  have hdec := decode_movImmRm (p := s.params) (latch := s.latch) (reg := reg) (imm := imm) (rest := rest) hwf
  rw [← hop, ← hf] at hdec
  exact ⟨_, (step_of_decode_ok (not_halted_of_fetch hf) hdec).trans (exec_mov _ rfl)⟩
end

/-- The sum of registers that a base expression names (30_encoding.md R123). -/
def State.baseSum (s : State) : Base → Nat
  | .bxSi => (s.getReg .bx).toNat + (s.getReg .si).toNat
  | .bxDi => (s.getReg .bx).toNat + (s.getReg .di).toNat
  | .bpSi => (s.getReg .bp).toNat + (s.getReg .si).toNat
  | .bpDi => (s.getReg .bp).toNat + (s.getReg .di).toNat
  | .si   => (s.getReg .si).toNat
  | .di   => (s.getReg .di).toNat
  | .bp   => (s.getReg .bp).toNat
  | .bx   => (s.getReg .bx).toNat

theorem toNat_base (s : State) (b : Base) : (s.base b).toNat = s.baseSum b % 65536 := by
  cases b with
  | bxSi | bxDi | bpSi | bpDi => exact BitVec.toNat_add ..
  | si | di | bp | bx => exact (Nat.mod_eq_of_lt (s.getReg _).isLt).symm

section
variable {s : State} {a : Word} {b : Base}

theorem liesAt_mem (ha : (a.toNat : Int) = (s.baseSum b : Int) % 65536) : LiesAt s (.mem b) a := by
  apply BitVec.eq_of_toNat_eq
  have := toNat_base s b
  omega

theorem liesAt_direct {d : Word} (ha : (a.toNat : Int) = (d.toNat : Int) % 65536) : LiesAt s (.direct d) a := by
  apply BitVec.eq_of_toNat_eq
  omega

theorem liesAt_mem8 {d : Byte} (ha : (a.toNat : Int) = (s.baseSum b + d.toInt) % 65536) :
    LiesAt s (.mem8 b d) a := by
  apply BitVec.eq_of_toNat_eq
  have hsum := toNat_add_sext16 (s.base b) d
  have := toNat_base s b
  rw [State.ea]
  omega

theorem liesAt_mem16 {d : Word} (ha : (a.toNat : Int) = ((s.baseSum b : Int) + d.toNat) % 65536) :
    LiesAt s (.mem16 b d) a := by
  apply BitVec.eq_of_toNat_eq
  have hsum := BitVec.toNat_add (s.base b) d
  have := toNat_base s b
  rw [State.ea]
  omega
end

theorem rm_mem_wf {b : Base} (h : b ≠ .bp) : (Rm.mem b).wf = true := by
  cases b with
  | bp => exact absurd rfl h
  | _ => rfl

theorem wordBytes_wordAt {b0 b1 : Byte} : wordBytes (wordAt [b0, b1] 0) = [b0, b1] := by
  simp [wordBytes, wordAt]

/-- Settles O30: each form is the codes of an operand that lies at a, and the moves' code bytes decode to it. -/
theorem memoryOperandsLieAtTheTableAddress : Obligations.MemoryOperandsLieAtTheTableAddress := by
  intro s b2 b3 rest row hrow form hform a ha
  have hsum : row = (row.2.1.code, row.2.1, s.baseSum row.2.1) := by
    simp only [List.mem_cons, List.not_mem_nil, or_false] at hrow
    rcases hrow with rfl | rfl | rfl | rfl | rfl | rfl | rfl | rfl <;> rfl
  generalize row.2.1 = b at hsum
  subst hsum
  have hword : ((wordAt [b2, b3] 0).toNat : Int) = b3.toNat * 256 + b2.toNat := by
    exact_mod_cast toNat_joinWord b2 b3
  obtain ⟨hmod, hrm, hdisp, hwf, hat⟩ : form.1 = form.2.2.1.modCode ∧ b.code = form.2.2.1.rmCode ∧
      form.2.1 = form.2.2.1.dispBytes ∧ form.2.2.1.wf = true ∧ LiesAt s form.2.2.1 a := by
    simp only [List.mem_cons, List.not_mem_nil, or_false] at hform
    rcases hform with rfl | rfl | rfl
    · by_cases hb : b = .bp
      · subst hb
        exact ⟨rfl, rfl, wordBytes_wordAt.symm, rfl, liesAt_direct (hword ▸ ha)⟩
      · have hcode : ¬ b.code = 0b110 := base_code_ne hb
        simp only [if_neg hcode] at ha ⊢
        exact ⟨rfl, rfl, rfl, rm_mem_wf hb, liesAt_mem ha⟩
    · exact ⟨rfl, rfl, rfl, rfl, liesAt_mem8 ha⟩
    · exact ⟨rfl, rfl, wordBytes_wordAt.symm, rfl, liesAt_mem16 (hword ▸ ha)⟩
  generalize form.2.2.1 = rm at *
  rw [hmod, hrm, hdisp]
  refine ⟨fun b0 b1 => resolveRm_codes hwf b0 b1 rest,
    fun w v => ⟨hat.readLoc w, hat.writeLoc w v, hat.locBytes w⟩,
    fun reg => ⟨fun hf => ?_, fun hf => ?_, fun hf => ?_, fun hf => ?_, fun i0 i1 rest' => ⟨fun hf => ?_, fun hf => ?_⟩⟩⟩
  · obtain ⟨d, hstep⟩ := step_movRmReg (dir := .regDst) (w := .byte) hwf hf
    exact ⟨_, hstep, hat.load .byte reg d⟩
  · obtain ⟨d, hstep⟩ := step_movRmReg (dir := .regDst) (w := .word) hwf hf
    exact ⟨_, hstep, hat.load .word reg d⟩
  · obtain ⟨d, hstep⟩ := step_movRmReg (dir := .rmDst) (w := .byte) hwf hf
    exact ⟨_, hstep, hat.store .byte (.loc (.reg8 reg)) d⟩
  · obtain ⟨d, hstep⟩ := step_movRmReg (dir := .rmDst) (w := .word) hwf hf
    exact ⟨_, hstep, hat.store .word (.loc (.reg16 reg)) d⟩
  · have hop : (0xC6 : Byte) = 0b1100011#7 ++ Width.byte.bit := by decide
    obtain ⟨d, hstep⟩ := step_movImmRm (reg := reg) (imm := .byte i0) (rest := rest') hwf hop hf
    exact ⟨_, hstep, hat.store .byte (.imm (.byte i0)) d⟩
  · have hop : (0xC7 : Byte) = 0b1100011#7 ++ Width.word.bit := by decide
    have himm : i0 :: i1 :: rest' = (Imm.word (joinWord i0 i1)).encode ++ rest' := by simp [Imm.encode, wordBytes]
    have hval : (i1.toNat : Int) * 256 + i0.toNat = (joinWord i0 i1).toNat := by
      exact_mod_cast (toNat_joinWord i0 i1).symm
    rw [himm] at hf
    rw [hval]
    obtain ⟨d, hstep⟩ := step_movImmRm (reg := reg) (imm := .word (joinWord i0 i1)) (rest := rest') hwf hop hf
    exact ⟨_, hstep, hat.store .word (.imm (.word (joinWord i0 i1))) d⟩

end Sys2Proof.Machine
end

section
/-! PROOFS of family 40_mov.md: the copy that every executed mov makes (R172 to R178), and which instructions
complete (R171). -/

namespace Sys2Proof.Machine

/-! ### The copy of an executed mov -/

/-- The source of an executed mov fits its destination: both are of the width of the instruction. -/
theorem executedMov_fits {i : Instr} {w : Width} {dst : Loc} {src : Operand}
    (h : executedMov i = some (w, dst, src)) (s : State) : s.readOp w src < 2 ^ locBits w dst := by
  cases i with
  | movRmReg d w' reg rm =>
    simp [executedMov] at h; obtain ⟨rfl, rfl, rfl⟩ := h
    simpa [State.readOp] using readLoc_lt s w' (rmRegSrc d w' reg rm)
  | movImmRm rm imm | movImmReg reg imm =>
    simp [executedMov] at h; obtain ⟨rfl, rfl, rfl⟩ := h
    simpa [State.readOp] using immValue_lt imm
  | movMemAcc w' addr =>
    simp [executedMov] at h; obtain ⟨rfl, rfl, rfl⟩ := h
    rw [locBits_accLoc]
    exact readLoc_lt s w' (.direct addr)
  | movAccMem w' addr =>
    simp [executedMov] at h; obtain ⟨rfl, rfl, rfl⟩ := h
    rw [State.readOp, locBits, ← locBits_accLoc]
    exact readLoc_lt s w' (accLoc w')
  | movRmSreg g rm =>
    cases rm <;> simp [executedMov] at h; obtain ⟨rfl, rfl, rfl⟩ := h
    exact (s.r16 _).isLt
  | movSregRm g rm =>
    cases rm <;> simp [executedMov] at h; obtain ⟨rfl, rfl, rfl⟩ := h
    exact (s.getSeg g).isLt
  | _ => simp [executedMov] at h

/-- An executed mov completes: its destination reads as its source read, and nothing else changes. -/
theorem exec_mov_copies {i : Instr} {w : Width} {dst : Loc} {src : Operand}
    (h : executedMov i = some (w, dst, src)) (s : State) :
    ∃ t, exec i s = .next t ∧ t.readLoc w dst = s.readOp w src ∧ WritesOnly s t w dst ∧
      t.flags = s.flags ∧ t.ip = s.ip :=
  ⟨_, exec_mov s h, move_spec s w dst src (executedMov_fits h s)⟩

/-- Settles O31: both directions are executed movs. -/
theorem movRmRegCopiesTheSource : Obligations.MovRmRegCopiesTheSource :=
  fun d w reg rm s => exec_mov_copies (i := .movRmReg d w reg rm) rfl s

/-- Settles O32: both immediate forms are executed movs, and the immediate is its own pattern. -/
theorem movImmediateStoresTheImmediate : Obligations.MovImmediateStoresTheImmediate :=
  ⟨fun rm imm s => exec_mov_copies (i := .movImmRm rm imm) rfl s,
    fun reg imm s => exec_mov_copies (i := .movImmReg reg imm) rfl s⟩

/-! ### Accumulator and memory (40_mov.md R175, R176) -/

/-- A word is its high half times 256 plus its low half. -/
theorem toNat_eq_halves (v : Word) : v.toNat = (hiByte v).toNat * 256 + (loByte v).toNat := by
  rw [← toNat_joinWord, joinWord_halves]

/-- Settles O33: the word form replaces ax; the byte form replaces al, and the other half, ah, is kept. -/
theorem movMemoryToAccumulator : Obligations.MovMemoryToAccumulator := by
  refine fun addr s => ⟨?_, ?_⟩
  · obtain ⟨t, hexec, hax, ⟨hframe, -⟩, hflags, hip⟩ := exec_mov_copies (i := .movMemAcc .word addr) rfl s
    exact ⟨t, hexec, Eq.trans hax (memRead_word s addr), hframe, hflags, hip⟩
  · obtain ⟨t, hexec, hal, ⟨hframe, hah⟩, hflags, hip⟩ := exec_mov_copies (i := .movMemAcc .byte addr) rfl s
    have hlow : (loByte (t.getReg .ax)).toNat = (s.mem.read addr.toNat).toNat := hal
    have hhigh : hiByte (t.getReg .ax) = hiByte (s.getReg .ax) := hah
    refine ⟨t, hexec, ?_, hframe, hflags, hip⟩
    rw [toNat_eq_halves, hlow, hhigh, toNat_hiByte]

/-- Settles O34: memory reads back at the address what ax or al held, and a word is its two bytes. -/
theorem movAccumulatorToMemory : Obligations.MovAccumulatorToMemory := by
  refine fun addr s => ⟨?_, ?_⟩
  · obtain ⟨t, hexec, hval, ⟨hframe, -⟩, hflags, hip⟩ := exec_mov_copies (i := .movAccMem .word addr) rfl s
    have hword : (t.mem.read ((addr.toNat + 1) % 65536)).toNat * 256 + (t.mem.read addr.toNat).toNat =
        (s.getReg .ax).toNat := (memRead_word t addr).symm.trans hval
    have hlow : (t.mem.read addr.toNat).toNat < 256 := (t.mem.read addr.toNat).isLt
    refine ⟨t, hexec, by omega, by omega, ?_, hflags, hip⟩
    rw [← toNat_succ]
    exact hframe
  · obtain ⟨t, hexec, hval, ⟨hframe, -⟩, hflags, hip⟩ := exec_mov_copies (i := .movAccMem .byte addr) rfl s
    exact ⟨t, hexec, Eq.trans hval (toNat_loByte (s.getReg .ax)), hframe, hflags, hip⟩

/-! ### Segment registers (40_mov.md R177, R178) and the Unimplemented forms (R171) -/

theorem isRegister_eq_false {rm : Rm} (h : ∀ n, rm ≠ .reg n) : isRegister rm = false := by
  cases rm with
  | reg n => exact absurd rfl (h n)
  | mem | direct | mem8 | mem16 => rfl

/-- Settles O35: the register-direct forms are executed movs, and the others are Unimplemented. -/
theorem segmentRegisterMoves : Obligations.SegmentRegisterMoves := by
  refine ⟨fun g n s => ⟨?_, ?_⟩, fun g rm s hrm => ?_⟩
  · obtain ⟨t, hexec, hval, ⟨hframe, -⟩, hflags, hip⟩ := exec_mov_copies (i := .movRmSreg g (.reg n)) rfl s
    exact ⟨t, hexec, BitVec.eq_of_toNat_eq hval, hframe, hflags, hip⟩
  · obtain ⟨t, hexec, hval, ⟨hframe, -⟩, hflags, hip⟩ := exec_mov_copies (i := .movSregRm g (.reg n)) rfl s
    exact ⟨t, hexec, BitVec.eq_of_toNat_eq hval, hframe, hflags, hip⟩
  · have hmem : (!isRegister rm) = true := by rw [isRegister_eq_false hrm]; rfl
    have hto : exec (.movRmSreg g rm) s = unimplemented (.movRmSreg g rm) s := exec_unimplemented s hmem
    have hfrom : exec (.movSregRm g rm) s = unimplemented (.movSregRm g rm) s := exec_unimplemented s hmem
    rw [hto, hfrom]
    exact ⟨fun hp => ⟨unimplemented_noOp _ hp, unimplemented_noOp _ hp⟩,
      fun hp => ⟨unimplemented_refuse _ hp, unimplemented_refuse _ hp⟩⟩

/-- Settles O52: no instruction faults, and a refusal is of an Unimplemented form under Refuse. -/
theorem everyInstructionCompletes : Obligations.EveryInstructionCompletes := by
  intro i s hcompletes
  cases hexec : exec i s with
  | next t => exact ⟨t, rfl⟩
  | fault r => exact absurd hexec (exec_ne_fault i s r)
  | refused r =>
    obtain ⟨hform, hpolicy, -⟩ := exec_refused hexec
    simp [hform, hpolicy] at hcompletes

end Sys2Proof.Machine
end

section
/-! PROOFS of family 41_arith.md: the executed forms (R190, R193 to R201), the intermediate result and its stored
value (R191, R192, R202), the flags after an ALU step (R192), and operands in one register (R203). -/

namespace Sys2Proof.Machine

/-! ### The intermediate result (41_arith.md R191, R192, R202) -/

theorem aluResult_eq_ite (op : AluOp) (a b : Int) : aluResult op a b = if op = .add then a + b else a - b := by
  cases op <;> rfl

/-- Equal operands differ by 0. -/
theorem aluResult_self {op : AluOp} (hop : op ≠ .add) (a : Int) : aluResult op a a = 0 := by
  rw [aluResult_eq_ite, if_neg hop, sub_self]

/-- The intermediate result modulo the width is that of the patterns, whichever way they are read. -/
theorem aluResult_operandInt_emod (op : AluOp) (read : OperandRead) {w : Width} {a b : Nat}
    (ha : a < 2 ^ widthBits w) (hb : b < 2 ^ widthBits w) :
    aluResult op (operandInt read w a) (operandInt read w b) % 2 ^ widthBits w =
      aluResult op a b % 2 ^ widthBits w := by
  have hmod {v : Nat} (hv : v < 2 ^ widthBits w) : operandInt read w v ≡ v [ZMOD 2 ^ widthBits w] := by
    obtain ⟨k, hk⟩ := operandInt_mod w v hv read
    rw [hk]
    exact Int.add_mul_emod_self_right ..
  cases op with
  | add => exact (hmod ha).add (hmod hb)
  | sub | cmp => exact (hmod ha).sub (hmod hb)

theorem operandInt_unsigned_bounds {w : Width} {v : Nat} (hv : v < 2 ^ widthBits w) :
    0 ≤ operandInt .unsigned w v ∧ operandInt .unsigned w v ≤ 65535 := by
  cases w <;> simp only [operandInt, widthBits] at * <;> omega

theorem operandInt_signed_bounds {w : Width} {v : Nat} (hv : v < 2 ^ widthBits w) :
    -32768 ≤ operandInt .signed w v ∧ operandInt .signed w v ≤ 32767 := by
  rw [operandInt_eq w v hv]
  cases w <;> simp only [widthBits, true_and] at * <;> split <;> omega

/-- Settles O42: the operands lie in 0..65535 or in -32768..32767, which bounds their sum and difference, and
both readings agree modulo the width that WriteOp keeps. -/
theorem intermediateResultLaws : Obligations.IntermediateResultLaws := by
  intro op w a b ha hb
  have hua := operandInt_unsigned_bounds ha
  have hub := operandInt_unsigned_bounds hb
  have hsa := operandInt_signed_bounds ha
  have hsb := operandInt_signed_bounds hb
  refine ⟨fun read => ?_, fun hop => ?_, fun hop read => ?_, fun s n read => ?_⟩
  · rw [aluResult_eq_ite]
    cases read <;> split <;> omega
  · simp only [aluResult_eq_ite, if_pos hop]
    omega
  · simp only [aluResult_eq_ite, if_neg hop]
    cases read <;> omega
  · rw [readLoc_writeLoc, locBits_regLoc, aluResult_operandInt_emod op read ha hb]
    rfl

/-! ### The ALU step: what it stores and what it keeps (41_arith.md R192) -/

/-- No operand reads the flags. -/
@[simp] theorem readLoc_with_flags (s : State) (f : Flags) (w : Width) (l : Loc) :
    ({ s with flags := f } : State).readLoc w l = s.readLoc w l := by
  cases l with
  | mem b d => cases b <;> rfl
  | reg8 | reg16 | sreg | direct => rfl

theorem writesOnly_refl (s : State) (w : Width) (l : Loc) : WritesOnly s s w l :=
  ⟨⟨fun _ _ => rfl, fun _ _ => rfl, fun _ _ => rfl, rfl, rfl, rfl⟩, by cases l <;> trivial⟩

/-- A frame leaves the flags open. -/
theorem WritesOnly.with_flags {s t : State} {w : Width} {l : Loc} (h : WritesOnly s t w l) (f : Flags) :
    WritesOnly s { t with flags := f } w l := by
  obtain ⟨⟨hregs, hsegs, hmem, hcode, hlatch, hparams⟩, hhalf⟩ := h
  exact ⟨⟨hregs, hsegs, hmem, hcode, hlatch, hparams⟩, hhalf⟩

/-- The ALU step changes its destination and the flags alone. -/
theorem alu_writesOnly (op : AluOp) (w : Width) (dst : Loc) (src : Operand) (s : State) :
    WritesOnly s (alu op w dst src s) w dst := by
  cases op with
  | add | sub => exact (writeLoc_writesOnly ..).with_flags _
  | cmp => exact (writesOnly_refl ..).with_flags _

theorem readLoc_alu_cmp (w : Width) (dst : Loc) (src : Operand) (s : State) (l : Loc) :
    (alu .cmp w dst src s).readLoc w l = s.readLoc w l := by
  rw [alu_cmp, readLoc_with_flags]

section
variable {i : Instr} {op : AluOp} {w : Width} {dst : Loc} {src : Operand}
variable (h : executedAlu i = some (op, w, dst, src)) (s : State)
include h

/-- Both operands of an executed form are patterns of its width. -/
theorem executedAlu_operands_lt : s.readLoc w dst < 2 ^ widthBits w ∧ s.readOp w src < 2 ^ widthBits w := by
  obtain ⟨hdst, hsrc⟩ := executedAlu_fits h
  exact ⟨hdst ▸ readLoc_lt s w dst, hsrc s⟩

/-- An executed add or sub stores the result of the patterns modulo 2^w, whatever `OPERAND_READ`. -/
theorem readLoc_alu_dst (hop : op ≠ .cmp) : ((alu op w dst src s).readLoc w dst : Int) =
    aluResult op (s.readLoc w dst) (s.readOp w src) % 2 ^ widthBits w := by
  obtain ⟨ha, hb⟩ := executedAlu_operands_lt h s
  rw [alu_stores hop, readLoc_with_flags, readLoc_writeLoc, (executedAlu_fits h).1]
  exact aluResult_operandInt_emod op _ ha hb
end

/-! ### The executed forms, row by row (30_encoding.md R128, R150 to R152) -/

/-- Sign extension of a byte sets the high byte of its word where the top bit is set. -/
theorem toNat_sext16 (b : Byte) : (sext16 b).toNat = if b.toNat < 128 then b.toNat else b.toNat + 65280 := by
  rw [sext16, BitVec.toNat_signExtend, BitVec.msb_eq_decide, BitVec.toNat_setWidth_of_le (by omega)]
  by_cases hlow : b.toNat < 128
  · simp [hlow]
  · simp [hlow, Nat.not_lt.1 hlow]

/-- The nine rows of an operation are executed forms of it, and each lists the pattern of its source. -/
theorem aluRowsOf_executed {op : AluOp} {rmReg : Dir → Width → BitVec 3 → Rm → Instr}
    {immRm : Rm → AluImm → Instr} {immAcc : Imm → Instr}
    (hreg : ∀ d w reg n, executedAlu (rmReg d w reg (.reg n)) =
      some (op, w, rmRegDst d w reg (.reg n), .loc (rmRegSrc d w reg (.reg n))))
    (himm : ∀ n imm, executedAlu (immRm (.reg n) imm) = some (op, imm.width, regLoc imm.width n, .imm imm.value))
    (hacc : ∀ imm, executedAlu (immAcc imm) = some (op, imm.width, accLoc imm.width, .imm imm))
    {s : State} {reg n : BitVec 3} {b : Byte} {v : Word} {row : AluRow}
    (hrow : row ∈ aluRowsOf op rmReg immRm immAcc s reg n b v) :
    ∃ src, executedAlu row.instr = some (row.op, row.width, row.dst, src) ∧ s.readOp row.width src = row.src := by
  simp only [aluRowsOf, List.mem_cons, List.not_mem_nil, or_false] at hrow
  rcases hrow with rfl | rfl | rfl | rfl | rfl | rfl | rfl | rfl | rfl
  · exact ⟨_, hreg .rmDst .byte reg n, rfl⟩
  · exact ⟨_, hreg .rmDst .word reg n, rfl⟩
  · exact ⟨_, hreg .regDst .byte reg n, rfl⟩
  · exact ⟨_, hreg .regDst .word reg n, rfl⟩
  · exact ⟨_, himm n (.byte b), rfl⟩
  · exact ⟨_, himm n (.word v), rfl⟩
  · exact ⟨_, himm n (.sextByte b), toNat_sext16 b⟩
  · exact ⟨_, hacc (.byte b), rfl⟩
  · exact ⟨_, hacc (.word v), rfl⟩

theorem aluRows_executed {s : State} {reg n : BitVec 3} {b : Byte} {v : Word} {row : AluRow}
    (hrow : row ∈ aluRows s reg n b v) :
    ∃ src, executedAlu row.instr = some (row.op, row.width, row.dst, src) ∧ s.readOp row.width src = row.src := by
  rcases List.mem_append.1 hrow with hrow | hcmp
  · rcases List.mem_append.1 hrow with hadd | hsub
    · exact aluRowsOf_executed (fun _ _ _ _ => rfl) (fun _ _ => rfl) (fun _ => rfl) hadd
    · exact aluRowsOf_executed (fun _ _ _ _ => rfl) (fun _ _ => rfl) (fun _ => rfl) hsub
  · exact aluRowsOf_executed (fun _ _ _ _ => rfl) (fun _ _ => rfl) (fun _ => rfl) hcmp

/-! ### The obligations about every executed form -/

/-- An executed add or sub completes, stores the result of the patterns modulo 2^w, and keeps everything but its
destination and the flags. -/
theorem exec_alu_stores {i : Instr} {op : AluOp} {w : Width} {dst : Loc} {src : Operand}
    (h : executedAlu i = some (op, w, dst, src)) (s : State) (hop : op ≠ .cmp) :
    ∃ t, exec i s = .next t ∧
      (t.readLoc w dst : Int) =
        (if op = .add then (s.readLoc w dst : Int) + s.readOp w src
          else (s.readLoc w dst : Int) - s.readOp w src) % 2 ^ widthBits w ∧
      WritesOnly s t w dst ∧ t.ip = s.ip := by
  rw [← aluResult_eq_ite]
  exact ⟨_, exec_alu s h, readLoc_alu_dst h s hop, alu_writesOnly .., alu_ip ..⟩

/-- Settles O36: every executed add or sub stores the result modulo 2^w, and each row is such a form. -/
theorem addAndSubStoreTheWrappedResult : Obligations.AddAndSubStoreTheWrappedResult := by
  refine ⟨fun _ _ _ _ _ s h hop => exec_alu_stores h s hop, fun s reg n b v row hrow hop => ?_⟩
  obtain ⟨src, h, hsrc⟩ := aluRows_executed hrow
  rw [← hsrc]
  exact exec_alu_stores h s hop

/-- Settles O37: cmp stores nothing, and the flag unit leaves DF, IF and TF alone. -/
theorem cmpChangesOnlyTheFlags : Obligations.CmpChangesOnlyTheFlags :=
  fun _ w dst src s h => ⟨_, (exec_alu s h).trans (congrArg _ (alu_cmp w dst src s)), rfl, rfl, rfl⟩

/-- An executed form completes with the flags that the flag unit gives for its operands as integers, and a cmp
changes nothing else. -/
theorem exec_alu_flags {i : Instr} {op : AluOp} {w : Width} {dst : Loc} {src : Operand}
    (h : executedAlu i = some (op, w, dst, src)) (s : State) :
    ∃ t, exec i s = .next t ∧
      ∃ a b : Int,
        a = (if s.params.operandRead = .signed ∧ 2 ^ (widthBits w - 1) ≤ s.readLoc w dst
          then (s.readLoc w dst : Int) - 2 ^ widthBits w else s.readLoc w dst) ∧
        b = (if s.params.operandRead = .signed ∧ 2 ^ (widthBits w - 1) ≤ s.readOp w src
          then (s.readOp w src : Int) - 2 ^ widthBits w else s.readOp w src) ∧
        t.flags = flagUnit s.params.afRule op (if op = .add then a + b else a - b) b w s.flags ∧
        (op = .cmp → t = { s with flags := t.flags }) := by
  obtain ⟨ha, hb⟩ := executedAlu_operands_lt h s
  refine ⟨_, exec_alu s h, _, _, operandInt_eq w _ ha _, operandInt_eq w _ hb _, ?_, ?_⟩
  · rw [alu_flags, aluIntermediate, aluResult_eq_ite]
  · rintro rfl
    exact alu_cmp ..

/-- Settles O38: every executed form hands the flag unit its operands as integers, and each row is such a
form. -/
theorem aluFlagsComeFromTheUnit : Obligations.AluFlagsComeFromTheUnit := by
  refine ⟨fun i op w dst src s h => ?_, fun s reg n imm v row hrow => ?_⟩
  · obtain ⟨t, hexec, a, b, ha, hb, hflags, -⟩ := exec_alu_flags h s
    exact ⟨t, hexec, a, b, ha, hb, hflags⟩
  · obtain ⟨src, h, hsrc⟩ := aluRows_executed hrow
    rw [← hsrc]
    exact exec_alu_flags h s

/-- Settles O41: register and accumulator forms are executed forms, which answer the ALU step; the others are
Unimplemented. -/
theorem aluExecutesInRegisterModeOnly : Obligations.AluExecutesInRegisterModeOnly := by
  refine ⟨fun _ _ _ _ => ⟨rfl, rfl, rfl⟩, fun _ _ => ⟨rfl, rfl, rfl⟩, fun _ => ⟨rfl, rfl, rfl⟩,
    fun i s hi => ?_, fun rm hrm d w reg imm s i hi => ?_⟩
  · obtain ⟨⟨op, w, dst, src⟩, h⟩ := Option.isSome_iff_exists.1 hi
    exact ⟨_, exec_alu s h⟩
  · have hmem : (!isRegister rm) = true := by rw [isRegister_eq_false hrm]; rfl
    have hform : isUnimplemented i = true := by
      simp only [List.mem_cons, List.not_mem_nil, or_false] at hi
      rcases hi with rfl | rfl | rfl | rfl | rfl | rfl <;> exact hmem
    rw [exec_unimplemented s hform]
    exact ⟨unimplemented_noOp i, unimplemented_refuse i⟩

/-! ### One register as both operands, and its two halves (41_arith.md R203) -/

theorem parityFlag_zero : parityFlag 0 = true := by decide

/-- The flag unit on a difference of 0. -/
theorem flagUnit_zero {op : AluOp} (hop : op ≠ .add) (rule : AfRule) (b : Int) (w : Width) (f : Flags) :
    (flagUnit rule op 0 b w f).ZF = true ∧ (flagUnit rule op 0 b w f).CF = false ∧
      (flagUnit rule op 0 b w f).OF = false ∧ (flagUnit rule op 0 b w f).SF = false ∧
      (flagUnit rule op 0 b w f).PF = true ∧ (rule = .nibbleCarry → (flagUnit rule op 0 b w f).AF = false) := by
  refine ⟨rfl, ?_, by cases w <;> rfl, by cases w <;> rfl, parityFlag_zero, ?_⟩
  · cases op with
    | add => exact absurd rfl hop
    | sub | cmp => rfl
  · rintro rfl
    cases op with
    | add => exact absurd rfl hop
    | sub | cmp => simp [flagUnit, auxCarryFlag]

/-- Two byte registers in one slot are its two halves. -/
theorem byteHalf_eq_otherHalf : ∀ {n m : BitVec 3}, byteSlot n = byteSlot m → n ≠ m →
    byteHalf m = otherHalf (byteHalf n) := by
  decide

/-- A write to one half of a register keeps the other half. -/
theorem WritesOnly.r8_other_half {s t : State} {w : Width} {n m : BitVec 3} (h : WritesOnly s t w (.reg8 n))
    (hslot : byteSlot n = byteSlot m) (hne : n ≠ m) : t.r8 m = s.r8 m := by
  rw [State.r8, State.r8, byteHalf_eq_otherHalf hslot hne, ← hslot]
  exact h.half

/-- What a byte register holds after the ALU step on it. -/
theorem r8_alu {i : Instr} {op : AluOp} {n : BitVec 3} {src : Operand}
    (h : executedAlu i = some (op, .byte, .reg8 n, src)) (s : State) (hop : op ≠ .cmp) :
    (alu op .byte (.reg8 n) src s).r8 n = BitVec.ofInt 8 (aluResult op (s.r8 n).toNat (s.readOp .byte src)) := by
  apply BitVec.eq_of_toNat_eq
  have hread := readLoc_alu_dst h s hop
  have hint := toNat_ofInt8 (aluResult op (s.r8 n).toNat (s.readOp .byte src))
  exact Int.ofNat.inj (hread.trans hint.symm)

/-- Settles O44: the step reads both operands before it writes, so a register combines with its own value, and
a half with the other half as it was. -/
theorem sameRegisterOperands : Obligations.SameRegisterOperands := by
  refine ⟨fun i op w n s h => ⟨_, exec_alu s h, ?_, ?_, ?_, fun hop => ?_⟩,
    fun i op n m s h hslot hne => ⟨_, exec_alu s h, (alu_writesOnly ..).r8_other_half hslot hne, ?_⟩⟩
  · rintro rfl
    have hread := readLoc_alu_dst h s (by decide)
    rw [State.readOp, aluResult, ← two_mul] at hread
    exact_mod_cast hread
  · rintro rfl
    have hread := readLoc_alu_dst h s (by decide)
    rw [State.readOp, aluResult_self (by decide), Int.zero_emod] at hread
    exact_mod_cast hread
  · rintro rfl
    exact readLoc_alu_cmp ..
  · rw [alu_flags, aluIntermediate, State.readOp, aluResult_self hop]
    exact flagUnit_zero hop ..
  · cases op with
    | add =>
      rw [r8_alu h s (by decide)]
      simp [aluResult, State.readOp, State.readLoc, BitVec.ofInt_add]
    | sub =>
      rw [r8_alu h s (by decide)]
      simp [aluResult, State.readOp, State.readLoc, Int.sub_eq_add_neg, BitVec.ofInt_add, BitVec.ofInt_neg,
        BitVec.sub_eq_add_neg]
    | cmp => rfl

end Sys2Proof.Machine
end

section
/-! PROOFS of family 42_branch.md: what a jump or loop decodes from (R210 to R231), what it changes (R233), and
which instructions write ip (R232). -/

namespace Sys2Proof.Machine

/-! ### Code bytes of a jump (30_encoding.md R104, R139, R157) -/

/-- The first byte of a jump is one of those that table FB alone classifies. -/
theorem jumpByte_range (m : Mnemonic) : 0x70 ≤ (jumpByte m).toNat ∧ (jumpByte m).toNat ≤ 0x7F ∨
    0xE0 ≤ (jumpByte m).toNat ∧ (jumpByte m).toNat ≤ 0xE3 := by
  cases m <;> decide

/-- A jump is decoded from its first byte and its displacement. -/
theorem decode_jump {i : Instr} {rel : Byte} (hkind : i.kind = .jcc) (hsrc : i.src = .rel8 rel) (p : Params)
    (latch : Option (Kind × Mnemonic)) (rest : List Byte) :
    decode p latch (jumpByte i.mnemonic :: rel :: rest) = .ok ⟨jumpByte i.mnemonic, .jcc, i, 2⟩ := by
  cases i with
  | jo | jno | jb | jnb | je | jne | jbe | ja | js | jns | jp | jnp | jl | jnl | jle | jg | loopnz | loopz | loop
  | jcxz =>
    cases hsrc
    exact decode_jcc (fun b1 => class_jcc _ b1 (jumpByte_range _)) rfl rfl
  | _ => cases hkind

/-- One byte of code is less than any instruction. -/
theorem decode_one_byte (p : Params) (latch : Option (Kind × Mnemonic)) (b : Byte) :
    decode p latch [b] = .error (.truncatedInstruction 1 2) := rfl

/-- The decoded length is the instruction's own. -/
theorem decode_len {p : Params} {latch : Option (Kind × Mnemonic)} {bs : List Byte} {d : Decoded}
    (h : decode p latch bs = .ok d) : d.len = d.instr.length := by
  obtain ⟨_, _, _, _, _, _, _, hlen, _, hasm, _⟩ := decode_ok h
  obtain ⟨-, -, hlength⟩ := assemble_spec hlen hasm
  exact hlength

/-! ### The wired jumps and loopnz (42_branch.md R214, R216, R217, R222, R228) -/

/-- A wired jump answers the same state with ip at the target where its condition holds. -/
theorem exec_jump_eq {i : Instr} {c : Bool} {rel : Byte} {s : State} {cond : Prop} [Decidable cond]
    (h : wiredJump s i = some (c, rel)) (hc : c = true ↔ cond) :
    exec i s = .next { s with ip := if cond then s.ip + sext16 rel else s.ip } := by
  rw [exec_jump s h, branchIf_eq]
  simp only [hc]

/-- Settles O45: each is decoded from its byte, and branches to ip plus the sign-extended displacement. -/
theorem wiredJumpsBranchOnTheirFlag : Obligations.WiredJumpsBranchOnTheirFlag := by
  intro p latch rel rest s
  have hdec {i : Instr} (hkind : i.kind = .jcc) (hsrc : i.src = .rel8 rel) := decode_jump hkind hsrc p latch rest
  exact ⟨⟨hdec (i := .jb rel) rfl rfl, hdec (i := .je rel) rfl rfl, hdec (i := .jne rel) rfl rfl,
      hdec (i := .jp rel) rfl rfl⟩,
    fun b0 _ => decode_one_byte p latch b0,
    s.ip + sext16 rel, toNat_add_sext16 s.ip rel,
    exec_jump_eq rfl Iff.rfl, exec_jump_eq rfl Iff.rfl, exec_jump_eq rfl (by simp), exec_jump_eq rfl Iff.rfl⟩

/-- The condition of loopnz as it is tested: the decremented cx is not 0 and ZF is clear. -/
theorem loopnz_taken_iff (s : State) :
    (s.getReg .cx - 1 != 0 && !s.flags.ZF) = true ↔ s.getReg .cx - 1 ≠ 0 ∧ s.flags.ZF = false := by
  rw [Bool.and_eq_true, bne_iff_ne, Bool.not_eq_true']

/-- What loopnz changes: cx, and ip where it branches. -/
theorem afterLoopnz_eq (rel : Byte) (s : State) :
    afterLoopnz rel s = { s with
      gpr := { s.gpr with cx := s.getReg .cx - 1 }
      ip := if s.getReg .cx - 1 ≠ 0 ∧ s.flags.ZF = false then s.ip + sext16 rel else s.ip } := by
  rw [afterLoopnz, branchIf_eq]
  simp only [loopnz_taken_iff]
  rfl

/-- Subtracting 1 from a word subtracts 1 modulo 2^16. -/
theorem toNat_sub_one (v : Word) : ((v - 1).toNat : Int) = (v.toNat - 1) % 65536 := by
  have h := BitVec.toNat_sub v 1
  rw [show (1 : Word).toNat = 1 from rfl] at h
  omega

/-- Settles O46: it is decoded from its byte, and answers its next state. -/
theorem loopnzDecrementsAndBranches : Obligations.LoopnzDecrementsAndBranches :=
  fun p latch rel rest s => ⟨decode_jump (i := .loopnz rel) rfl rfl p latch rest, decode_one_byte p latch 0xE0,
    s.ip + sext16 rel, s.getReg .cx - 1, toNat_add_sext16 s.ip rel, toNat_sub_one (s.getReg .cx),
    congrArg _ (afterLoopnz_eq rel s)⟩

/-! ### The unwired jumps and loops (42_branch.md R211) -/

/-- The row of an unwired jump: its first byte, the instruction of a displacement, and its mnemonic. -/
structure UnwiredRow (x : Byte × (Byte → Instr) × Mnemonic) (rel : Byte) : Prop where
  mnemonic : (x.2.1 rel).mnemonic = x.2.2
  byte     : x.1 = jumpByte (x.2.1 rel).mnemonic
  kind     : (x.2.1 rel).kind = .jcc
  src      : (x.2.1 rel).src = .rel8 rel
  unwired  : isUnimplemented (x.2.1 rel) = true

/-- An unwired jump is decoded from its byte, and answers the Unimplemented outcome: the same state under NoOp, a
refusal two bytes back under Refuse. -/
theorem UnwiredRow.does_nothing {x : Byte × (Byte → Instr) × Mnemonic} {rel : Byte} (h : UnwiredRow x rel)
    (p : Params) (latch : Option (Kind × Mnemonic)) (rest : List Byte) (s : State) :
    decode p latch (x.1 :: rel :: rest) = .ok ⟨x.1, .jcc, x.2.1 rel, 2⟩ ∧
    decode p latch [x.1] = .error (.truncatedInstruction 1 2) ∧
    (s.params.unimpl = .noOp → exec (x.2.1 rel) s = .next s) ∧
    (s.params.unimpl = .refuse → exec (x.2.1 rel) s = .refused (.unimplemented (s.ip - 2) x.2.2)) := by
  have hdec := decode_jump h.kind h.src p latch rest
  have hlen : 2 = (x.2.1 rel).length := decode_len hdec
  rw [exec_unimplemented s h.unwired]
  refine ⟨h.byte ▸ hdec, decode_one_byte p latch x.1, unimplemented_noOp _, fun hp => ?_⟩
  rw [unimplemented_refuse _ hp, ← hlen, h.mnemonic]
  rfl

/-- Settles O47: the twelve are rows of unwired jumps. -/
theorem unwiredJumpsDoNothing : Obligations.UnwiredJumpsDoNothing := by
  intro x hx p latch rel rest s
  have hrow : UnwiredRow x rel := by
    simp only [List.mem_cons, List.not_mem_nil, or_false] at hx
    rcases hx with rfl | rfl | rfl | rfl | rfl | rfl | rfl | rfl | rfl | rfl | rfl | rfl <;>
      exact ⟨rfl, rfl, rfl, rfl, rfl⟩
  exact hrow.does_nothing p latch rest s

/-- Settles O48: the three are rows of unwired jumps. -/
theorem unwiredLoopsDoNothing : Obligations.UnwiredLoopsDoNothing := by
  intro x hx p latch rel rest s
  have hrow : UnwiredRow x rel := by
    simp only [List.mem_cons, List.not_mem_nil, or_false] at hx
    rcases hx with rfl | rfl | rfl <;> exact ⟨rfl, rfl, rfl, rfl, rfl⟩
  exact hrow.does_nothing p latch rest s

/-! ### What a jump changes (42_branch.md R233) -/

theorem frame_refl (s : State) (regs : List Reg16) (segs : List SegReg) (addrs : List Nat) :
    Frame s s regs segs addrs :=
  ⟨fun _ _ => rfl, fun _ _ => rfl, fun _ _ => rfl, rfl, rfl, rfl⟩

/-- A branch changes ip alone, which a frame leaves open. -/
theorem branchIf_frame (s : State) (c : Bool) (rel : Byte) (regs : List Reg16) (segs : List SegReg)
    (addrs : List Nat) : Frame s (s.branchIf c rel) regs segs addrs := by
  rw [branchIf_eq]
  exact ⟨fun _ _ => rfl, fun _ _ => rfl, fun _ _ => rfl, rfl, rfl, rfl⟩

theorem afterLoopnz_frame (rel : Byte) (s : State) : Frame s (afterLoopnz rel s) [.cx] [] [] := by
  rw [afterLoopnz_eq]
  refine ⟨fun r hr => ?_, fun _ _ => rfl, fun _ _ => rfl, rfl, rfl, rfl⟩
  exact getReg_setReg_other s _ (by simpa using hr)

/-- No jump is an executed mov or an executed add, sub or cmp. -/
theorem jump_not_executed {i : Instr} (h : i.kind = .jcc) : executedMov i = none ∧ executedAlu i = none := by
  cases i with
  | jo | jno | jb | jnb | je | jne | jbe | ja | js | jns | jp | jnp | jl | jnl | jle | jg | loopnz | loopz | loop
  | jcxz => exact ⟨rfl, rfl⟩
  | _ => cases h

/-- Settles O49: a jump that goes on has branched, been loopnz, or changed nothing. -/
theorem jumpsWriteOnlyIpAndCx : Obligations.JumpsWriteOnlyIpAndCx := by
  intro i s t hkind h
  obtain ⟨hmov, halu⟩ := jump_not_executed hkind
  rcases exec_next h with ⟨w, dst, src, hi, -⟩ | ⟨op, w, dst, src, hi, -⟩ | ⟨c, rel, -, rfl⟩ |
    ⟨rel, rfl, rfl⟩ | ⟨-, -, rfl⟩
  · simp [hmov] at hi
  · simp [halu] at hi
  · exact ⟨branchIf_flags .., branchIf_frame .., branchIf_mem ..⟩
  · exact ⟨afterLoopnz_flags .., afterLoopnz_frame .., afterLoopnz_mem ..⟩
  · exact ⟨rfl, frame_refl .., rfl⟩

/-! ### The writers of ip (42_branch.md R232) -/

/-- A wired jump whose condition holds is one of the four with its flag as it must be. -/
theorem wiredJump_taken {i : Instr} {rel : Byte} {s : State} (h : wiredJump s i = some (true, rel)) :
    (i = .jb rel ∧ s.flags.CF = true) ∨ (i = .je rel ∧ s.flags.ZF = true) ∨
      (i = .jne rel ∧ s.flags.ZF = false) ∨ (i = .jp rel ∧ s.flags.PF = true) := by
  cases i with
  | jb | je | jne | jp => simpa [wiredJump, and_comm] using h
  | _ => cases h

theorem wiredJump_length {i : Instr} {c : Bool} {rel : Byte} {s : State} (h : wiredJump s i = some (c, rel)) :
    i.length = 2 := by
  cases i with
  | jb | je | jne | jp => rfl
  | _ => cases h

/-- Where ip is after an instruction, from the ip that it finds: there, or at the target of a taken branch. -/
theorem exec_ip {i : Instr} {s t : State} (h : exec i s = .next t) :
    t.ip = s.ip ∨ i.length = 2 ∧ ∃ rel : Byte, t.ip = s.ip + sext16 rel ∧
      ((i = .jb rel ∧ s.flags.CF = true) ∨ (i = .je rel ∧ s.flags.ZF = true) ∨
        (i = .jne rel ∧ s.flags.ZF = false) ∨ (i = .jp rel ∧ s.flags.PF = true) ∨
        (i = .loopnz rel ∧ s.flags.ZF = false ∧ t.getReg .cx ≠ 0)) := by
  rcases exec_next h with ⟨w, dst, src, -, rfl⟩ | ⟨op, w, dst, src, -, rfl⟩ | ⟨c, rel, hi, rfl⟩ |
    ⟨rel, rfl, rfl⟩ | ⟨-, -, rfl⟩
  · exact .inl (move_ip ..)
  · exact .inl (alu_ip ..)
  · cases c with
    | false => exact .inl rfl
    | true =>
      refine .inr ⟨wiredJump_length hi, rel, rfl, ?_⟩
      rcases wiredJump_taken hi with hjb | hje | hjne | hjp
      · exact .inl hjb
      · exact .inr (.inl hje)
      · exact .inr (.inr (.inl hjne))
      · exact .inr (.inr (.inr (.inl hjp)))
  · rw [afterLoopnz_eq]
    by_cases htaken : s.getReg .cx - 1 ≠ 0 ∧ s.flags.ZF = false
    · obtain ⟨hcx, hzf⟩ := htaken
      exact .inr ⟨rfl, rel, if_pos ⟨hcx, hzf⟩, .inr (.inr (.inr (.inr ⟨rfl, hzf, hcx⟩)))⟩
    · exact .inl (if_neg htaken)
  · exact .inl rfl

/-- Settles O54: the instruction finds ip advanced by its length, which is 2 where it branches. -/
theorem onlyTakenBranchesLeaveTheSequence : Obligations.OnlyTakenBranchesLeaveTheSequence := by
  intro s t d hip hdec hstep
  rw [step_of_decode_ok ((not_halted_iff s).2 hip) hdec] at hstep
  rcases exec_ip hstep with hseq | ⟨hlen, rel, htarget, hbranch⟩
  · exact .inl hseq
  · rw [advance_ip, decode_len hdec, hlen] at htarget
    exact .inr ⟨rel, htarget, hbranch⟩

end Sys2Proof.Machine
end

section
/-! PROOFS of family 43_flag_unit.md: the unit's outputs as integer conditions (R242 to R247), what `OPERAND_READ`
can change of them (R248), and which flags an instruction writes (R250). -/

namespace Sys2Proof.Machine

/-! ### The outputs that read bits of the intermediate (43_flag_unit.md R242, R244) -/

/-- A filter keeps as many elements as the indicators of its condition sum to. -/
theorem length_filter_eq_sum {l : List Nat} {p : Nat → Bool} {f : Nat → Int}
    (h : ∀ k ∈ l, f k = if p k then 1 else 0) : ((l.filter p).length : Int) = (l.map f).sum := by
  induction l with
  | nil => rfl
  | cons k l ih =>
    obtain ⟨hk, hl⟩ := List.forall_mem_cons.1 h
    rw [List.map_cons, List.sum_cons, hk, ← ih hl]
    cases hp : p k <;> simp [hp, add_comm]

/-- The set bits of the intermediate's low byte are counted by its binary digits. -/
theorem popcount_pattern32 (r : Int) : (popcount ((pattern32 r).extractLsb' 0 8) : Int) =
    ((List.range 8).map fun k => r / 2 ^ k % 2).sum := by
  refine length_filter_eq_sum fun k hk => ?_
  have hk : k < 8 := List.mem_range.1 hk
  rw [BitVec.getLsbD_extractLsb', Nat.zero_add, decide_eq_true hk, Bool.true_and, pattern32_bit r k (by omega)]
  rcases Int.emod_two_eq (r / 2 ^ k) with hbit | hbit <;> simp [hbit]

theorem parityFlag_iff (r : Int) :
    parityFlag r = true ↔ ((List.range 8).map fun k => r / 2 ^ k % 2).sum % 2 = 0 := by
  rw [parityFlag, decide_eq_true_iff, ← popcount_pattern32]
  omega

theorem signFlag_iff (w : Width) (r : Int) : signFlag w r = true ↔ r / 2 ^ (widthBits w - 1) % 2 = 1 := by
  cases w with
  | byte => rw [signFlag, pattern32_bit r 7 (by decide), decide_eq_true_iff]; rfl
  | word => rw [signFlag, pattern32_bit r 15 (by decide), decide_eq_true_iff]; rfl

/-! ### The outputs that compare integers (43_flag_unit.md R245 to R247) -/

theorem carryFlag_iff (op : AluOp) (r : Int) : carryFlag op r = true ↔ if op = .add then 255 < r else r < 0 := by
  cases op <;> exact decide_eq_true_iff

theorem overflowFlag_iff (w : Width) (r : Int) : overflowFlag w r = true ↔
    if w = .word then r < -32768 ∨ 65535 < r else r < -127 ∨ 255 < r := by
  cases w <;> exact decide_eq_true_iff

theorem auxCarryFlag_nibble_iff (op : AluOp) (r src : Int) (w : Width) :
    auxCarryFlag .nibbleCarry op r src w = true ↔
      if op = .add then 15 < src % 16 + (r - src) % 16 else (r + src) % 16 < src % 16 := by
  cases op <;> exact decide_eq_true_iff

/-- Settles O39: each output is the condition of its rule, and DF, IF and TF are no outputs. -/
theorem flagUnitFormulas : Obligations.FlagUnitFormulas := by
  refine fun rule op r src w f => ⟨parityFlag_iff r, decide_eq_true_iff, signFlag_iff w r, carryFlag_iff op r,
    overflowFlag_iff w r, ?_, ?_, rfl, rfl, rfl⟩
  · rintro rfl
    exact auxCarryFlag_nibble_iff op r src w
  · rintro rfl
    rfl

/-! ### AF of the operands (43_flag_unit.md R247, 41_arith.md R191) -/

/-- Both readings of a pattern have its low nibble. -/
theorem operandInt_emod_sixteen {w : Width} {v : Nat} (hv : v < 2 ^ widthBits w) (read : OperandRead) :
    operandInt read w v % 16 = v % 16 := by
  obtain ⟨k, hk⟩ := operandInt_mod w v hv read
  rw [hk]
  cases w <;> rw [widthBits] <;> omega

/-- From the intermediate result and the source, the nibble rule finds the destination again: it is the carry or
borrow out of the two low nibbles. -/
theorem auxCarryFlag_aluResult_iff (op : AluOp) (a b : Int) (w : Width) :
    auxCarryFlag .nibbleCarry op (aluResult op a b) b w = true ↔
      if op = .add then 15 < a % 16 + b % 16 else a % 16 < b % 16 := by
  rw [auxCarryFlag_nibble_iff]
  cases op with
  | add => simp [aluResult, add_comm]
  | sub | cmp => simp [aluResult]

/-- AF after an executed form, from the patterns of its operands. -/
theorem alu_auxCarry_iff {i : Instr} {op : AluOp} {w : Width} {dst : Loc} {src : Operand}
    (h : executedAlu i = some (op, w, dst, src)) {s : State} (hrule : s.params.afRule = .nibbleCarry) :
    (alu op w dst src s).flags.AF = true ↔
      if op = .add then 15 < s.readLoc w dst % 16 + s.readOp w src % 16
      else s.readLoc w dst % 16 < s.readOp w src % 16 := by
  obtain ⟨ha, hb⟩ := executedAlu_operands_lt h s
  rw [alu_flags, hrule]
  refine (auxCarryFlag_aluResult_iff _ _ _ w).trans ?_
  rw [operandInt_emod_sixteen ha, operandInt_emod_sixteen hb]
  norm_cast

/-- Settles O40: the nibble rule gives the carry or borrow of the patterns, whatever `OPERAND_READ`. -/
theorem auxiliaryCarryOfTheOperands : Obligations.AuxiliaryCarryOfTheOperands :=
  fun _ _ _ _ _ s h hrule => ⟨_, exec_alu s h, alu_auxCarry_iff h hrule⟩

/-! ### What `OPERAND_READ` can change (43_flag_unit.md R248, 41_arith.md R202) -/

/-- Integers that agree modulo 2^n have the same bits below n. -/
theorem bit_eq_of_modEq {n i : Nat} {r r' : Int} (h : r ≡ r' [ZMOD 2 ^ n]) (hi : i < n) :
    r / 2 ^ i % 2 = r' / 2 ^ i % 2 := by
  obtain ⟨k, hk⟩ := h.dvd
  obtain ⟨m, rfl⟩ := Nat.exists_eq_add_of_lt hi
  have hr' : r' = r + k * 2 ^ m * 2 * 2 ^ i := by rw [eq_add_of_sub_eq' hk]; ring
  rw [hr', Int.add_mul_ediv_right _ _ (by positivity), Int.add_mul_emod_self_right]

/-- Integers that agree modulo 2^n give one pattern of n bits. -/
theorem ofInt_eq_of_modEq {n : Nat} {r r' : Int} (h : r ≡ r' [ZMOD 2 ^ n]) : BitVec.ofInt n r = BitVec.ofInt n r' := by
  apply BitVec.eq_of_toNat_eq
  rw [BitVec.toNat_ofInt, BitVec.toNat_ofInt, Nat.cast_pow, Nat.cast_ofNat, h]

section
variable {w : Width} {r r' : Int} (h : r ≡ r' [ZMOD 2 ^ widthBits w])
include h

theorem parityFlag_eq_of_modEq : parityFlag r = parityFlag r' := by
  have hbits : (List.range 8).map (fun k => r / 2 ^ k % 2) = (List.range 8).map fun k => r' / 2 ^ k % 2 :=
    List.map_congr_left fun k hk => bit_eq_of_modEq h <| by
      have hk : k < 8 := List.mem_range.1 hk
      cases w <;> rw [widthBits] <;> omega
  rw [Bool.eq_iff_iff, parityFlag_iff, parityFlag_iff, hbits]

theorem signFlag_eq_of_modEq : signFlag w r = signFlag w r' := by
  rw [Bool.eq_iff_iff, signFlag_iff, signFlag_iff, bit_eq_of_modEq h (by cases w <;> decide)]

/-- Of two intermediates that agree modulo 2^w, the unit can tell ZF, CF, OF and AF apart only. -/
theorem flagUnit_of_modEq (rule : AfRule) (op : AluOp) (b b' : Int) (f : Flags) :
    flagUnit rule op r b w f = { flagUnit rule op r' b' w f with
      ZF := (flagUnit rule op r b w f).ZF
      CF := (flagUnit rule op r b w f).CF
      OF := (flagUnit rule op r b w f).OF
      AF := (flagUnit rule op r b w f).AF } := by
  rw [flagUnit, parityFlag_eq_of_modEq h, signFlag_eq_of_modEq h]
  rfl

/-- WriteOp to a location of width w stores the value modulo 2^w. -/
theorem writeLoc_eq_of_modEq {l : Loc} (hl : locBits w l = widthBits w) (s : State) :
    s.writeLoc w l r = s.writeLoc w l r' := by
  rw [← hl] at h
  cases l with
  | reg8 n => exact congrArg (s.setR8 n) (ofInt_eq_of_modEq h)
  | reg16 n => exact congrArg (s.setR16 n) (ofInt_eq_of_modEq h)
  | sreg g => exact congrArg (s.setSeg g) (ofInt_eq_of_modEq h)
  | mem | direct =>
    cases w with
    | byte => exact congrArg (s.memWrite8 _) (ofInt_eq_of_modEq h)
    | word => exact congrArg (s.memWrite16 _) (ofInt_eq_of_modEq h)
end

/-- The state with `OPERAND_READ` as given. -/
def State.reading (s : State) (read : OperandRead) : State :=
  { s with params := { s.params with operandRead := read } }

section
variable (s : State) (read : OperandRead) (w : Width)

/-- ReadOp gives the pattern, which `OPERAND_READ` does not touch. -/
@[simp] theorem readLoc_reading (l : Loc) : (s.reading read).readLoc w l = s.readLoc w l := by
  cases l with
  | mem b d => cases b <;> rfl
  | reg8 | reg16 | sreg | direct => rfl

@[simp] theorem readOp_reading (src : Operand) : (s.reading read).readOp w src = s.readOp w src := by
  cases src with
  | loc l => exact readLoc_reading s read w l
  | imm | rel8 => rfl

theorem writeLoc_reading (l : Loc) (v : Int) :
    (s.reading read).writeLoc w l v = (s.writeLoc w l v).reading read := by
  cases l with
  | reg8 | reg16 | sreg => rfl
  | mem b d => cases w <;> cases b <;> rfl
  | direct a => cases w <;> rfl
end

section
variable {i : Instr} {op : AluOp} {w : Width} {dst : Loc} {src : Operand}
variable (h : executedAlu i = some (op, w, dst, src)) (s : State) (read : OperandRead)
include h

/-- `OPERAND_READ` moves the intermediate by a multiple of 2^w. -/
theorem aluIntermediate_reading :
    aluIntermediate op w dst src (s.reading read) ≡ aluIntermediate op w dst src s [ZMOD 2 ^ widthBits w] := by
  obtain ⟨ha, hb⟩ := executedAlu_operands_lt h s
  rw [Int.ModEq, aluIntermediate, aluIntermediate, readLoc_reading, readOp_reading]
  exact (aluResult_operandInt_emod op _ ha hb).trans (aluResult_operandInt_emod op _ ha hb).symm

/-- The flags apart, the ALU step does the same whichever way the operands are read. -/
theorem alu_reading : alu op w dst src (s.reading read) =
    { (alu op w dst src s).reading read with flags := (alu op w dst src (s.reading read)).flags } := by
  have hstored : (s.reading read).writeLoc w dst (aluIntermediate op w dst src (s.reading read)) =
      (s.writeLoc w dst (aluIntermediate op w dst src s)).reading read := by
    rw [writeLoc_reading]
    exact congrArg (State.reading · read)
      (writeLoc_eq_of_modEq (aluIntermediate_reading h s read) (executedAlu_fits h).1 s)
  cases op with
  | add | sub =>
    rw [alu_stores (by decide), hstored]
    rfl
  | cmp => rfl

/-- The flags of both readings agree but for ZF, CF, OF and AF. -/
theorem alu_flags_reading (read' : OperandRead) :
    (alu op w dst src (s.reading read)).flags = { (alu op w dst src (s.reading read')).flags with
      ZF := (alu op w dst src (s.reading read)).flags.ZF
      CF := (alu op w dst src (s.reading read)).flags.CF
      OF := (alu op w dst src (s.reading read)).flags.OF
      AF := (alu op w dst src (s.reading read)).flags.AF } :=
  flagUnit_of_modEq ((aluIntermediate_reading h s read).trans (aluIntermediate_reading h s read').symm) ..

/-- AF under NibbleCarry is that of the patterns, whichever way they are read. -/
theorem alu_auxCarry_reading (hrule : s.params.afRule = .nibbleCarry) (read' : OperandRead) :
    (alu op w dst src (s.reading read)).flags.AF = (alu op w dst src (s.reading read')).flags.AF := by
  have hiff (read : OperandRead) := alu_auxCarry_iff h (s := s.reading read) hrule
  simp only [readLoc_reading, readOp_reading] at hiff
  exact Bool.eq_iff_iff.2 ((hiff read).trans (hiff read').symm)
end

/-- Settles O43: both readings store the same and give the unit intermediates that agree modulo 2^w; the nibble
rule finds one AF for both. -/
theorem operandReadChangesThreeFlagsOnly : Obligations.OperandReadChangesThreeFlagsOnly := by
  intro i s hi
  obtain ⟨⟨op, w, dst, src⟩, h⟩ := Option.isSome_iff_exists.1 hi
  refine ⟨_, _, exec_alu (s.reading .unsigned) h, exec_alu (s.reading .signed) h, ?_, fun hrule => ?_,
    alu_flags_reading h s .unsigned .signed⟩
  · rw [alu_reading h s .unsigned, alu_reading h s .signed]
    rfl
  · have hflags := alu_flags_reading h s .unsigned .signed
    rwa [alu_auxCarry_reading h s .unsigned hrule .signed] at hflags

/-! ### The flag writers (43_flag_unit.md R250, 10_state.md R44) -/

/-- What an instruction does to the flags: an executed add, sub or cmp writes what the unit gives, and every other
instruction nothing. -/
theorem exec_flags {i : Instr} {s t : State} (h : exec i s = .next t) :
    (∃ op w dst src r b, executedAlu i = some (op, w, dst, src) ∧
      t.flags = flagUnit s.params.afRule op r b w s.flags) ∨ t.flags = s.flags := by
  rcases exec_next h with ⟨w, dst, src, -, rfl⟩ | ⟨op, w, dst, src, hi, rfl⟩ | ⟨c, rel, -, rfl⟩ |
    ⟨rel, -, rfl⟩ | ⟨-, -, rfl⟩
  · exact .inr (move_flags ..)
  · exact .inl ⟨op, w, dst, src, _, _, hi, alu_flags ..⟩
  · exact .inr (branchIf_flags ..)
  · exact .inr (afterLoopnz_flags ..)
  · exact .inr rfl

/-- Settles O55: the unit has no output DF, IF or TF, and a step that runs no instruction keeps the state. -/
theorem onlyExecutedAluWritesFlags : Obligations.OnlyExecutedAluWritesFlags := by
  refine ⟨fun s t h => ?_, fun i s t h halu => ?_⟩
  · cases hrun : s.halted with
    | true =>
      cases (step_of_halted hrun).symm.trans h
      exact ⟨rfl, rfl, rfl⟩
    | false =>
      obtain ⟨d, -, hexec⟩ := step_next hrun h
      rcases exec_flags hexec with ⟨_, _, _, _, _, _, -, hflags⟩ | hflags
      · rw [hflags]
        exact ⟨rfl, rfl, rfl⟩
      · rw [hflags]
        exact ⟨rfl, rfl, rfl⟩
  · rcases exec_flags h with ⟨_, _, _, _, _, _, hi, -⟩ | hflags
    · simp [halu] at hi
    · exact hflags

end Sys2Proof.Machine
end

section
/-! PROOFS of family 60_exceptions.md: where a step faults (R265, R267) and is refused (R278), the launch (R264), and
the order of the decoder's checks (R266). -/

namespace Sys2Proof.Machine

/-! ### The faults of a step (60_exceptions.md R265, R267) -/

/-- Settles O8: only the decode of a state that has not halted can raise a fault. -/
theorem faultsComeFromTheDecoder : Obligations.FaultsComeFromTheDecoder := by
  refine ⟨exec_ne_fault, fun s r => ⟨fun h => ?_, ?_⟩⟩
  · obtain ⟨hrun, e, hdec⟩ := step_fault h
    exact ⟨(not_halted_iff s).1 hrun, e, hdec, (step_of_decode_error hrun hdec).symm.trans h⟩
  · rintro ⟨hip, e, hdec, hraise⟩
    exact (step_of_decode_error ((not_halted_iff s).2 hip) hdec).trans hraise

/-! ### The refusals of a step (60_exceptions.md R278) -/

/-- An instruction is refused as an Unimplemented form under Refuse, and only so. -/
theorem exec_refused_iff {i : Instr} {s : State} {r : Refusal} : exec i s = .refused r ↔
    isUnimplemented i = true ∧ s.params.unimpl = .refuse ∧
      r = .unimplemented (s.ip - BitVec.ofNat 16 i.length) i.mnemonic := by
  refine ⟨exec_refused, ?_⟩
  rintro ⟨hform, hpolicy, rfl⟩
  rw [exec_unimplemented s hform, unimplemented_refuse i hpolicy]

/-- A step is refused only where it runs a decoded instruction that is. -/
theorem step_refused {s : State} {r : Refusal} (h : step s = .refused r) :
    s.halted = false ∧ ∃ d, decode s.params s.latch s.fetch = .ok d ∧ exec d.instr (s.advance d) = .refused r := by
  rcases step_cases s with ⟨_, hstep⟩ | ⟨_, e, _, hstep⟩ | ⟨hrun, d, hdec, hstep⟩
  · rw [hstep] at h; cases h
  · obtain ⟨f, hf⟩ := raise_fault s.ip e
    rw [hstep, hf] at h; cases h
  · exact ⟨hrun, d, hdec, hstep.symm.trans h⟩

/-- After the advance over a decoded instruction, ip less the instruction's length is IP0. -/
theorem advance_ip_sub_length {s : State} {d : Decoded} (hdec : decode s.params s.latch s.fetch = .ok d) :
    (s.advance d).ip - BitVec.ofNat 16 d.instr.length = s.ip := by
  rw [advance_ip, decode_len hdec, BitVec.add_sub_cancel]

/-- Settles O53: only an Unimplemented form under Refuse is refused, and the advance that it undoes is its own
length. -/
theorem refusalsRecordIpAndMnemonic : Obligations.RefusalsRecordIpAndMnemonic := by
  refine fun s r => ⟨fun h => ?_, ?_⟩
  · obtain ⟨hrun, d, hdec, hexec⟩ := step_refused h
    obtain ⟨hform, hpolicy, hr⟩ := exec_refused_iff.1 hexec
    rw [advance_ip_sub_length hdec] at hr
    exact ⟨hpolicy, (not_halted_iff s).1 hrun, d, hdec, hform, hr⟩
  · rintro ⟨hpolicy, hip, d, hdec, hform, hr⟩
    rw [← advance_ip_sub_length hdec] at hr
    rw [step_of_decode_ok ((not_halted_iff s).2 hip) hdec]
    exact exec_refused_iff.2 ⟨hform, hpolicy, hr⟩

/-! ### The launch (60_exceptions.md R264, 70_reset_and_hazards.md R291) -/

section
variable (p : Params) (init : Init)

theorem launch_none : launch p init none = .fault .inputUnavailable := rfl

theorem launch_too_long {code : List Byte} (h : maxCodeLen < code.length) :
    launch p init (some code) = .refused (.inputTooLong code.length) := if_pos h

theorem launch_fits {code : List Byte} (h : code.length ≤ maxCodeLen) :
    launch p init (some code) = .next (started p init code) := if_neg h.not_gt

/-- A launch faults for a missing input alone. -/
theorem launch_fault_iff (input : Option (List Byte)) (r : Fault) :
    launch p init input = .fault r ↔ input = none ∧ r = .inputUnavailable := by
  cases input with
  | none => simp [launch_none, eq_comm]
  | some code =>
    rcases Nat.lt_or_ge maxCodeLen code.length with hlong | hfits
    · simp [launch_too_long p init hlong]
    · simp [launch_fits p init hfits]
end

/-- Settles O1: the three answers of the launch, the last of them with the fields of the started state. -/
theorem startSequenceLoadsTheInput : Obligations.StartSequenceLoadsTheInput := fun p init =>
  ⟨launch_none p init, fun code => ⟨launch_too_long p init, fun hfits =>
    ⟨started p init code, launch_fits p init hfits, rfl, Memory.read_nil, rfl, rfl, rfl, rfl, rfl, rfl⟩⟩⟩

/-! ### The order of the checks (60_exceptions.md R266, 30_encoding.md R157) -/

/-- No decode fault is InputUnavailable. -/
theorem raise_ne_inputUnavailable (ip0 : Word) (e : DecodeFault) : raise ip0 e ≠ .fault .inputUnavailable := by
  cases e <;> simp [raise]

/-- The first check of a decode: two bytes of code. -/
theorem decode_of_length_lt_two (p : Params) (latch : Option (Kind × Mnemonic)) {bs : List Byte}
    (h : bs.length < 2) : decode p latch bs = .error (.truncatedInstruction bs.length 2) := by
  match bs with
  | [] | [_] => rfl
  | _ :: _ :: _ => simp at h

/-- The last check of a decode: all bytes that the instruction needs. -/
theorem decodeAs_truncated {p : Params} {k : Kind} {m : Mnemonic} {b0 b1 : Byte} {bs : List Byte} {len : Nat}
    (hlen : lengthCalc m (extractFields k m b0 b1) = some len)
    (h : bs.length < bytesNeeded p (extractFields k m b0 b1) len) : decodeAs p k m b0 b1 bs =
      .error (.truncatedInstruction bs.length (bytesNeeded p (extractFields k m b0 b1) len)) := by
  simp only [decodeAs, hlen, if_pos h]

/-- Settles O9: each check of the decoder, where the checks before it pass. -/
theorem decodeFaultPriority : Obligations.DecodeFaultPriority := by
  refine ⟨launch_fault_iff, fun s h => ?_, fun p latch bs => ⟨decode_of_length_lt_two p latch, ?_⟩⟩
  · obtain ⟨-, e, -, hraise⟩ := (faultsComeFromTheDecoder.2 s .inputUnavailable).1 h
    exact raise_ne_inputUnavailable s.ip e hraise
  · rintro b0 b1 rest rfl
    refine ⟨fun e hc => ⟨decode_of_classify_error hc, classify_error hc⟩, fun k m hc => ⟨fun hlen => ?_,
      fun len hlen hcut => ?_⟩⟩
    · exact decode_decodeError_iff.2 ⟨hc, hlen⟩
    · exact (decode_of_classify_ok hc).trans (decodeAs_truncated hlen hcut)

end Sys2Proof.Machine
end

section
/-! PROOFS of family 70_reset_and_hazards.md: a jump to itself (R295), the dump (R297) and the three ends of a run
(R298). -/

namespace Sys2Proof.Machine

/-! ### The ends of a run (70_reset_and_hazards.md R298) -/

section
variable {s t : State} {d : Decoded} {r : Refusal}

theorem runEnd_of_halted (h : s.halted = true) : runEnd s = some (.halt s s.dump) := if_pos h

theorem runEnd_of_next (hrun : s.halted = false) (h : step s = .next t) : runEnd s = none := by
  simp [runEnd, hrun, h]

theorem runEnd_of_refused (hrun : s.halted = false) (hdec : decode s.params s.latch s.fetch = .ok d)
    (h : step s = .refused r) : runEnd s = some (.refused (s.advance d) r) := by
  simp [runEnd, hrun, hdec, h]
end

/-- What a step answers, and how the run ends with that answer. -/
theorem step_runEnd_cases (s : State) :
    (s.halted = true ∧ step s = .next s ∧ runEnd s = some (.halt s s.dump)) ∨
    (s.halted = false ∧ (∃ t, step s = .next t) ∧ runEnd s = none) ∨
    (s.halted = false ∧ ∃ r, step s = .fault r ∧ runEnd s = some (.fault s r)) ∨
    (s.halted = false ∧ s.params.unimpl = .refuse ∧ ∃ d r, decode s.params s.latch s.fetch = .ok d ∧
      step s = .refused r ∧ runEnd s = some (.refused (s.advance d) r)) := by
  cases hrun : s.halted with
  | true => exact .inl ⟨rfl, step_of_halted hrun, runEnd_of_halted hrun⟩
  | false =>
    cases hstep : step s with
    | next t => exact .inr (.inl ⟨rfl, ⟨t, rfl⟩, runEnd_of_next hrun hstep⟩)
    | fault r => exact .inr (.inr (.inl ⟨rfl, r, rfl, latchHoldsTheLastClassification.2 s r hstep⟩))
    | refused r =>
      obtain ⟨-, d, hdec, hexec⟩ := step_refused hstep
      obtain ⟨-, hpolicy, -⟩ := exec_refused hexec
      exact .inr (.inr (.inr ⟨rfl, hpolicy, d, r, hdec, rfl, runEnd_of_refused hrun hdec hstep⟩))

/-- Settles O7: each answer of the step has its own end, and the final state of a refusal is the advance. -/
theorem runEndsInThreeWays : Obligations.RunEndsInThreeWays := by
  intro s
  rw [← halted_iff, ← not_halted_iff]
  rcases step_runEnd_cases s with ⟨hrun, hstep, hend⟩ | ⟨hrun, ⟨t, hstep⟩, hend⟩ | ⟨hrun, r, hstep, hend⟩ |
    ⟨hrun, hpolicy, d, r, hdec, hstep, hend⟩
  · simp [hrun, hstep, hend]
  · simp [hrun, hstep, hend]
  · simp [hrun, hstep, hend]
  · simp [hrun, hstep, hend, hpolicy, hdec, State.advance]

/-! ### The dump (70_reset_and_hazards.md R297) -/

/-- The flag that a name stands for (10_state.md R43). -/
def Flags.value (f : Flags) : FlagName → Bool
  | .OF => f.OF
  | .DF => f.DF
  | .IF => f.IF
  | .TF => f.TF
  | .SF => f.SF
  | .ZF => f.ZF
  | .AF => f.AF
  | .PF => f.PF
  | .CF => f.CF

/-- The nine names in dump order. -/
def dumpOrder : List FlagName := [.OF, .DF, .IF, .TF, .SF, .ZF, .AF, .PF, .CF]

theorem mem_dumpOrder (n : FlagName) : n ∈ dumpOrder := by cases n <;> decide

theorem named_eq_map (f : Flags) : f.named = dumpOrder.map fun n => (n, f.value n) := rfl

/-- The dump lists the names of the flags that are set, in dump order. -/
theorem dump_flags (s : State) : s.dump.flags = dumpOrder.filter s.flags.value := by
  simp [State.dump, named_eq_map, List.filter_map, Function.comp_def]

theorem mem_dump_flags (s : State) (n : FlagName) : n ∈ s.dump.flags ↔ s.flags.value n = true := by
  rw [dump_flags, List.mem_filter, and_iff_right (mem_dumpOrder n)]

/-- Settles O12: the flags of the dump are the nine in order, less those that are clear. -/
theorem dumpListsSlotsAndSetFlags : Obligations.DumpListsSlotsAndSetFlags := by
  intro s
  have horder : s.dump.flags.Sublist dumpOrder := dump_flags s ▸ List.filter_sublist
  exact ⟨fun h => runEnd_of_halted ((halted_iff s).2 h), rfl, horder, mem_dump_flags s .OF, mem_dump_flags s .DF,
    mem_dump_flags s .IF, mem_dump_flags s .TF, mem_dump_flags s .SF, mem_dump_flags s .ZF, mem_dump_flags s .AF,
    mem_dump_flags s .PF, mem_dump_flags s .CF⟩

/-! ### A jump to itself (70_reset_and_hazards.md R295) -/

/-- A displacement of -2 takes ip from the next instruction back to IP0 (42_branch.md R210). -/
theorem add_two_add_sext16_minus_two (ip : Word) : ip + 2 + sext16 0xFE = ip := by
  have hzero : (2 : Word) + sext16 0xFE = 0 := by decide
  rw [add_assoc, hzero, add_zero]

section
variable {s : State} {i : Instr} {rel : Byte} {rest : List Byte}

/-- A step at a jump's code bytes runs the jump after the latch update and the advance by 2. -/
theorem step_jump (hkind : i.kind = .jcc) (hsrc : i.src = .rel8 rel)
    (hf : s.fetch = jumpByte i.mnemonic :: rel :: rest) :
    step s = exec i { s with latch := some (.jcc, i.mnemonic), ip := s.ip + 2 } := by
  have hdec := decode_jump hkind hsrc s.params s.latch rest
  rw [← hf] at hdec
  rw [step_of_decode_ok (not_halted_of_fetch hf) hdec, State.advance, hkind]
  rfl

theorem wiredJump_kind_src {c : Bool} (h : wiredJump s i = some (c, rel)) : i.kind = .jcc ∧ i.src = .rel8 rel := by
  cases i with
  | jb | je | jne | jp => cases h; exact ⟨rfl, rfl⟩
  | _ => cases h

/-- A wired jump reads the flags alone. -/
theorem wiredJump_of_flags {t : State} (h : t.flags = s.flags) (i : Instr) : wiredJump t i = wiredJump s i := by
  cases i with
  | jb | je | jne | jp => simp only [wiredJump, h]
  | _ => rfl

/-- One step of a taken wired jump to itself changes nothing but the latch. -/
theorem step_jump_to_self (hi : wiredJump s i = some (true, 0xFE))
    (hf : s.fetch = jumpByte i.mnemonic :: 0xFE :: rest) :
    step s = .next { s with latch := some (.jcc, i.mnemonic) } := by
  obtain ⟨hkind, hsrc⟩ := wiredJump_kind_src hi
  rw [step_jump hkind hsrc hf, exec_jump (c := true) (rel := 0xFE), branchIf_eq, if_pos rfl,
    add_two_add_sext16_minus_two]
  exact (wiredJump_of_flags rfl i).trans hi

/-- The state after the first step is its own next state. -/
theorem run_jump_to_self (hi : wiredJump s i = some (true, 0xFE))
    (hf : s.fetch = jumpByte i.mnemonic :: 0xFE :: rest) (k : Nat) :
    Host.Core.run Sys2Proof.core (k + 1) s = .next { s with latch := some (.jcc, i.mnemonic) } := by
  induction k generalizing s with
  | zero => exact run_succ (step_jump_to_self hi hf) 0
  | succ k ih =>
    rw [run_succ (step_jump_to_self hi hf)]
    exact ih ((wiredJump_of_flags rfl i).trans hi) hf

/-- One step of loopnz to itself with ZF clear: it decrements cx, and stays at ip until cx is 0. -/
theorem step_loopnz_to_self (hf : s.fetch = 0xE0 :: 0xFE :: rest) (hzf : s.flags.ZF = false) :
    step s = .next { s with
      gpr := { s.gpr with cx := s.getReg .cx - 1 }
      ip := if s.getReg .cx - 1 ≠ 0 then s.ip else s.ip + 2
      latch := some (.jcc, .loopnz) } := by
  have hstep : step s = _ := step_jump (i := .loopnz 0xFE) rfl rfl hf
  rw [hstep, exec_loopnz, afterLoopnz_eq]
  simp only [hzf, and_true, add_two_add_sext16_minus_two]
  rfl

/-- The run of loopnz to itself, by what cx is after the first decrement: one step for that one, and one for each
count that is left. -/
theorem run_loopnz_to_self {n : Nat} (hf : s.fetch = 0xE0 :: 0xFE :: rest) (hzf : s.flags.ZF = false)
    (hn : (s.getReg .cx - 1).toNat = n) :
    Host.Core.run Sys2Proof.core (n + 1) s = .next { s with
      gpr := { s.gpr with cx := 0 }
      ip := s.ip + 2
      latch := some (.jcc, .loopnz) } := by
  induction n generalizing s with
  | zero =>
    have hcx : s.getReg .cx - 1 = 0 := BitVec.eq_of_toNat_eq hn
    have hstep := step_loopnz_to_self hf hzf
    rw [hcx, if_neg (not_not_intro rfl)] at hstep
    exact run_succ hstep 0
  | succ n ih =>
    have hcx : s.getReg .cx - 1 ≠ 0 := fun h => by rw [h] at hn; cases hn
    have hstep := step_loopnz_to_self hf hzf
    rw [if_pos hcx] at hstep
    rw [run_succ hstep]
    have hleft : (s.getReg .cx - 1 - 1).toNat = n := by have := toNat_sub_one (s.getReg .cx - 1); omega
    exact ih hf hzf hleft
end

/-- Settles O50: each of the four is a wired jump whose condition holds. -/
theorem branchToSelfNeverEnds : Obligations.BranchToSelfNeverEnds := fun _ _ k =>
  ⟨fun hf hzf => run_jump_to_self (i := .je 0xFE) (by rw [wiredJump, hzf]) hf k,
    fun hf hzf => run_jump_to_self (i := .jne 0xFE) (by rw [wiredJump, hzf]; rfl) hf k,
    fun hf hcf => run_jump_to_self (i := .jb 0xFE) (by rw [wiredJump, hcf]) hf k,
    fun hf hpf => run_jump_to_self (i := .jp 0xFE) (by rw [wiredJump, hpf]) hf k⟩

/-- The counts of a loop from cx: 65,536 from 0, and cx from any other. -/
theorem loop_count (cx : Word) : (if cx = 0 then 65536 else cx.toNat) = (cx - 1).toNat + 1 := by
  split
  · subst cx; rfl
  · bv_omega

/-- Settles O51: the counts of cx are the decrement of the first step and those that are left after it. -/
theorem loopnzToSelfEnds : Obligations.LoopnzToSelfEnds := by
  intro s rest hf hzf
  rw [loop_count]
  exact run_loopnz_to_self hf hzf rfl

end Sys2Proof.Machine
end

section
/-! PROOFS of the family of the other statements: the invariant at the start of a run (70_reset_and_hazards.md R291),
its normal end (10_state.md R50), the spec's decode vectors (95_test_vectors.md 2.2) and the canonical form of
memory (20_memory.md R71). -/

namespace Sys2Proof.Machine

/-! ### The canonical form of memory (20_memory.md R71, R72) -/

/-- An address that does not read 0 is listed with its byte. -/
theorem Memory.mem_of_read_ne_zero {m : Memory} {a : Nat} (h : m.read a ≠ 0) : (a, m.read a) ∈ m := by
  induction m with
  | nil => exact absurd (Memory.read_nil a) h
  | cons c m ih =>
    obtain ⟨k, b⟩ := c
    by_cases hk : k = a
    · simp [Memory.read, hk]
    · simp only [Memory.read, hk, if_false] at h ⊢
      exact List.mem_cons_of_mem _ (ih h)

/-- Where the addresses rise, a listed cell is the one that a read of its address finds. -/
theorem Memory.read_of_mem {m : Memory} {c : Host.Cell} (hm : m.Pairwise (fun x y => x.1 < y.1)) (hc : c ∈ m) :
    m.read c.1 = c.2 := by
  induction m with
  | nil => cases hc
  | cons x m ih =>
    obtain ⟨hx, hm⟩ := List.pairwise_cons.1 hm
    rcases List.mem_cons.1 hc with rfl | hc
    · simp [Memory.read]
    · simp only [Memory.read, (hx c hc).ne, if_false]
      exact ih hm hc

/-- The cells of a canonical memory are its addresses that do not read 0. -/
theorem Memory.mem_iff_read {m : Memory} (h : m.wf = true) (a : Nat) (v : Byte) :
    (a, v) ∈ m ↔ m.read a = v ∧ v ≠ 0 := by
  obtain ⟨hrising, hcells⟩ := (Memory.wf_iff m).1 h
  refine ⟨fun hc => ⟨Memory.read_of_mem hrising hc, (hcells _ hc).2⟩, ?_⟩
  rintro ⟨rfl, hv⟩
  exact Memory.mem_of_read_ne_zero hv

/-- Settles O29: the reads determine the cells, and rising addresses determine their order. -/
theorem canonicalMemoriesThatReadAlikeAreEqual : Obligations.CanonicalMemoriesThatReadAlikeAreEqual := by
  intro m m' h h' hread
  have hcells : ∀ c, c ∈ m ↔ c ∈ m' := fun ⟨a, v⟩ => by
    rw [Memory.mem_iff_read h, Memory.mem_iff_read h', hread]
  have hirrefl : Std.Irrefl fun x y : Host.Cell => x.1 < y.1 := ⟨fun c => Nat.lt_irrefl c.1⟩
  exact ((Memory.wf_iff m).1 h).1.eq_of_mem_iff ((Memory.wf_iff m').1 h').1 hcells

/-! ### The start of a run -/

/-- A run starts with the invariant where its code fits. -/
theorem started_inv (p : Params) (init : Init) {code : List Byte} (h : code.length ≤ maxCodeLen) :
    Inv (started p init code) := ⟨rfl, h, rfl⟩

/-- Only an input that fits is launched, and the launch answers its started state. -/
theorem launch_next {p : Params} {init : Init} {input : Option (List Byte)} {t : State}
    (h : launch p init input = .next t) :
    ∃ code, input = some code ∧ code.length ≤ maxCodeLen ∧ t = started p init code := by
  cases input with
  | none => cases (launch_none p init).symm.trans h
  | some code =>
    rcases Nat.lt_or_ge maxCodeLen code.length with hlong | hfits
    · cases (launch_too_long p init hlong).symm.trans h
    · cases (launch_fits p init hfits).symm.trans h
      exact ⟨code, rfl, hfits, rfl⟩

/-- Settles O3: the reset state and every launched state are started states whose code fits. -/
theorem launchMeetsTheInvariant : Obligations.LaunchMeetsTheInvariant := by
  have hlaunch : ∀ (p : Params) (init : Init) (input : Option (List Byte)) (t : State),
      launch p init input = .next t → Inv t := fun p init input t h => by
    obtain ⟨code, -, hfits, rfl⟩ := launch_next h
    exact started_inv p init hfits
  obtain ⟨hreset, -⟩ := resetIsTheReferenceStart
  exact ⟨hlaunch _ _ _ _ hreset, hlaunch⟩

/-! ### The normal end of a run -/

theorem traceRecord_of_halted {s : State} (h : s.halted = true) : traceRecord s = none := if_pos h

/-- Settles O6: at ip ≥ N the state has halted, and the step, the end and the record each ask that first. -/
theorem endedRunStaysAsItIs : Obligations.EndedRunStaysAsItIs := by
  intro s hip
  have hhalted : s.halted = true := (halted_iff s).2 hip
  exact ⟨step_of_halted hhalted, runEnd_of_halted hhalted, traceRecord_of_halted hhalted⟩

/-! ### The spec's decode vectors -/

/-- Settles O13: fourteen closed words, whose decodes are evaluated. -/
theorem specWordsDecode : Obligations.SpecWordsDecode := by
  unfold Obligations.SpecWordsDecode
  decide

end Sys2Proof.Machine
end
